-- ==== Sys2Proof/Word.lean ====
section
/-! DEFINITION. The word and byte types of g16 (00_scope.md R1, R6, R20): registers, instruction
words, addresses and bus data are unsigned 16-bit words; RAM and the console hold bytes. -/

namespace Sys2Proof

/-- A register, an instruction word, an address or the bus data lines: `XLEN` = 16 bits (R5). -/
abbrev Word := BitVec 16

/-- One byte of RAM or of the console. -/
abbrev Byte := BitVec 8

/-- An index of the register file: 4 bits, so that every value names an entry (R20). -/
abbrev RegIdx := BitVec 4

end Sys2Proof
end

