-- ==== Sys2Proof/Config.lean ====
section
/-! DEFINITION. The implementation parameters of 00_scope.md R5. The constants of the spec (numbers
of registers, opcodes and modes, the console's address, the size of the RAM) are definitions here; the
six parameters that 92_eei_decisions.md keeps open are the record `Params`, which a state carries. -/

namespace Sys2Proof.Config

/-- `WORD_BYTES`: address units one word occupies, the PC step (R5, R25). -/
def wordBytes : Nat := 2

/-- `CONSOLE_ADDR`: the one bus address routed to the console (R5, R71). -/
def consoleAddr : Word := 0x0000

/-- `RAM_SIZE`: bytes in the RAM store (R5, R36). -/
def ramSize : Nat := 65536

/-- `NEWLINE`: the byte the console treats as end of line (R5, R72). -/
def newline : Byte := 0x0A

/-- `IDX_IR` (R21). -/
def idxIR : RegIdx := 12
/-- `IDX_PC` (R21). -/
def idxPC : RegIdx := 13
/-- `IDX_SP` (R21). -/
def idxSP : RegIdx := 14
/-- `IDX_FLAGS` (R21). -/
def idxFLAGS : RegIdx := 15

/-- `OP_HALT` (R100). -/
def opHALT : BitVec 5 := 0x00
/-- `OP_NOP` (R100). -/
def opNOP : BitVec 5 := 0x01
/-- `OP_MOV` (R100). -/
def opMOV : BitVec 5 := 0x02
/-- `OP_LDI` (R100). -/
def opLDI : BitVec 5 := 0x03
/-- `OP_LDU` (R100). -/
def opLDU : BitVec 5 := 0x04
/-- `OP_LDO` (R100). -/
def opLDO : BitVec 5 := 0x05
/-- `OP_INC` (R100). -/
def opINC : BitVec 5 := 0x06
/-- `OP_DEC` (R100). -/
def opDEC : BitVec 5 := 0x07
/-- `OP_JZ` (R100). -/
def opJZ : BitVec 5 := 0x08
/-- `OP_JNZ` (R100). -/
def opJNZ : BitVec 5 := 0x09
/-- `OP_JMP` (R100). -/
def opJMP : BitVec 5 := 0x0A
/-- `OP_CALL` (R100). -/
def opCALL : BitVec 5 := 0x0B
/-- `OP_RET` (R100). -/
def opRET : BitVec 5 := 0x0C
/-- `OP_PUSH` (R100). -/
def opPUSH : BitVec 5 := 0x0D
/-- `OP_POP` (R100). -/
def opPOP : BitVec 5 := 0x0E
/-- `OP_ADD` (R100). -/
def opADD : BitVec 5 := 0x0F
/-- `OP_SUB` (R100). -/
def opSUB : BitVec 5 := 0x10
/-- `OP_AND` (R100). -/
def opAND : BitVec 5 := 0x11
/-- `OP_OR` (R100). -/
def opOR : BitVec 5 := 0x12
/-- `OP_XOR` (R100). -/
def opXOR : BitVec 5 := 0x13
/-- `OP_NOT` (R100). -/
def opNOT : BitVec 5 := 0x14
/-- `OP_SHL` (R100). -/
def opSHL : BitVec 5 := 0x15
/-- `OP_SHR` (R100). -/
def opSHR : BitVec 5 := 0x16

/-- The last declared opcode number: a number above it is unassigned (R100, R166). -/
def lastDeclaredOp : BitVec 5 := 0x16

/-- `MODE_DD` (R104). -/
def modeDD : BitVec 3 := 0
/-- `MODE_DLI` (R104). -/
def modeDLI : BitVec 3 := 1
/-- `MODE_DUI` (R104). -/
def modeDUI : BitVec 3 := 2
/-- `MODE_DWI` (R104). -/
def modeDWI : BitVec 3 := 3
/-- `MODE_II` (R104). -/
def modeII : BitVec 3 := 4
/-- `MODE_IDL` (R104). -/
def modeIDL : BitVec 3 := 5
/-- `MODE_IDU` (R104). -/
def modeIDU : BitVec 3 := 6
/-- `MODE_IWD` (R104). -/
def modeIWD : BitVec 3 := 7

end Sys2Proof.Config

namespace Sys2Proof

/-- `LDI_UPPER`: what LDI does to the upper byte (R5, R221, decision D10). -/
inductive LdiUpper
  | preserve
  | clear
deriving DecidableEq, Repr

/-- `DUI_SOURCE`: which byte of the bus data mode DUI merges (R5, R204, decision D9). -/
inductive DuiSource
  | low
  | high
deriving DecidableEq, Repr

/-- `NOP_BEHAVIOUR` (R5, R191, R192, decision D12). -/
inductive NopBehaviour
  | noop
  | notImplemented
deriving DecidableEq, Repr

/-- The open parameters of 92_eei_decisions.md, fixed for a run (R38). -/
structure Params where
  /-- `PROGRAM_BASE`: where the image is loaded and where the PC points after reset (D15). -/
  programBase : Word
  /-- `STACK_TOP`: the stack pointer after reset (D16). -/
  stackTop : Word
  /-- `RAM_FILL`: value of RAM bytes the image does not cover (D18). -/
  ramFill : Byte
  ldiUpper : LdiUpper
  duiSource : DuiSource
  nopBehaviour : NopBehaviour
deriving DecidableEq, Repr

/-- The defaults of R5: the configuration `g16-canonical`. -/
def Params.canonical : Params where
  programBase := 0x0100
  stackTop := 0xFFFE
  ramFill := 0x00
  ldiUpper := .preserve
  duiSource := .low
  nopBehaviour := .noop

end Sys2Proof
end

