-- ==== Sys2Proof/Syntax.lean ====
section
/-! DEFINITION. The syntax of g16 words: the six decoded fields, and one constructor of `Instr` for
every row of spec/opcode_table.json (30_encoding.md R100, R104). -/

namespace Sys2Proof

/-- The decode latch `dec` (10_state.md R30): all six fields, extracted from every word whatever its
format (40_cycle.md R166). `rl` names the bits of `mode`, `imm` those of `rx` and `ry` (R109). -/
structure Fields where
  op : BitVec 5
  mode : BitVec 3
  rx : RegIdx
  ry : RegIdx
  rl : BitVec 3
  imm : Byte
deriving DecidableEq, Repr

/-- The instructions of the opcode map (R100) and of the mode table (R104). `rx` is the left,
destination-side operand, `ry` the right, source-side one; `rl` names R0 to R7. JZ, JNZ and the
reserved opcodes of format RR keep their mode field. The unassigned opcode numbers have no operand
(R264). -/
inductive Instr
  | halt
  | nop
  | movDD (rx ry : RegIdx)
  | movDLI (rx ry : RegIdx)
  | movDUI (rx ry : RegIdx)
  | movDWI (rx ry : RegIdx)
  | movII (rx ry : RegIdx)
  | movIDL (rx ry : RegIdx)
  | movIDU (rx ry : RegIdx)
  | movIWD (rx ry : RegIdx)
  | ldi (rl : BitVec 3) (imm : Byte)
  | ldu (rl : BitVec 3) (imm : Byte)
  | ldo (rl : BitVec 3) (imm : Byte)
  | inc (rx : RegIdx)
  | dec (rx : RegIdx)
  | jz (mode : BitVec 3) (rx ry : RegIdx)
  | jnz (mode : BitVec 3) (rx ry : RegIdx)
  | jmp (rx : RegIdx)
  | call (rx : RegIdx)
  | ret
  | push (rx : RegIdx)
  | pop (rx : RegIdx)
  | add (mode : BitVec 3) (rx ry : RegIdx)
  | sub (mode : BitVec 3) (rx ry : RegIdx)
  | and (mode : BitVec 3) (rx ry : RegIdx)
  | or (mode : BitVec 3) (rx ry : RegIdx)
  | xor (mode : BitVec 3) (rx ry : RegIdx)
  | not (rx : RegIdx)
  | shl (mode : BitVec 3) (rx ry : RegIdx)
  | shr (mode : BitVec 3) (rx ry : RegIdx)
  | unassigned17
  | unassigned18
  | unassigned19
  | unassigned1A
  | unassigned1B
  | unassigned1C
  | unassigned1D
  | unassigned1E
  | unassigned1F
deriving DecidableEq, Repr

/-- What the encoder is given before it packs a word (R107, R108): a format and plain numbers, not yet
known to fit their fields. -/
inductive RawInstr
  | n (op : Nat)
  | rr (op mode rx ry : Nat)
  | ri (op rl imm : Nat)
  | r (op rx : Nat)
deriving DecidableEq, Repr

end Sys2Proof
end

