-- ==== Sys2Proof/WellFormed.lean ====
section
/-! DEFINITION. Well-formedness: the encoder's range checks on plain numbers (30_encoding.md R108),
and which instructions the encoder and the assembler can produce (R264, 31_assembler.md R140). -/

namespace Sys2Proof

/-- Why the encoder refuses its arguments (R108): the field whose value is out of range. -/
inductive EncodeError
  | opRange
  | modeRange
  | rxRange
  | ryRange
  | rlRange
  | immRange
deriving DecidableEq, Repr

/-- R108: `0 <= v <= 2^width - 1`, else the named error; never truncated. -/
def checkField (v width : Nat) (e : EncodeError) : Except EncodeError Unit :=
  if v < 2 ^ width then .ok () else .error e

/-- R108's checks on every field of the format, in the order the encoder packs them. -/
def RawInstr.check : RawInstr → Except EncodeError Unit
  | .n op => checkField op 5 .opRange
  | .rr op mode rx ry =>
    match checkField op 5 .opRange, checkField mode 3 .modeRange,
          checkField rx 4 .rxRange, checkField ry 4 .ryRange with
    | .error e, _, _, _ => .error e
    | .ok _, .error e, _, _ => .error e
    | .ok _, .ok _, .error e, _ => .error e
    | .ok _, .ok _, .ok _, e => e
  | .ri op rl imm =>
    match checkField op 5 .opRange, checkField rl 3 .rlRange, checkField imm 8 .immRange with
    | .error e, _, _ => .error e
    | .ok _, .error e, _ => .error e
    | .ok _, .ok _, e => e
  | .r op rx =>
    match checkField op 5 .opRange, checkField rx 4 .rxRange with
    | .error e, _ => .error e
    | .ok _, e => e

/-- A declared instruction: its opcode number has a mnemonic (R100). The nine unassigned numbers have
none, and no encoder or assembler input spells them (R264). -/
def Instr.wellFormed : Instr → Bool
  | .halt | .nop | .ret => true
  | .movDD _ _ | .movDLI _ _ | .movDUI _ _ | .movDWI _ _ => true
  | .movII _ _ | .movIDL _ _ | .movIDU _ _ | .movIWD _ _ => true
  | .ldi _ _ | .ldu _ _ | .ldo _ _ => true
  | .inc _ | .dec _ => true
  | .jz _ _ _ | .jnz _ _ _ => true
  | .jmp _ | .call _ | .push _ | .pop _ | .not _ => true
  | .add _ _ _ | .sub _ _ _ | .and _ _ _ | .or _ _ _ | .xor _ _ _ | .shl _ _ _ | .shr _ _ _ => true
  | .unassigned17 | .unassigned18 | .unassigned19 | .unassigned1A | .unassigned1B => false
  | .unassigned1C | .unassigned1D | .unassigned1E | .unassigned1F => false

/-- What the assembler's operand forms can produce (R140): a declared instruction whose mode field, in
JZ, JNZ and the reserved opcodes of format RR, is 0. -/
def Instr.assemblable : Instr → Bool
  | .jz m _ _ | .jnz m _ _ => m == 0
  | .add m _ _ | .sub m _ _ | .and m _ _ | .or m _ _ | .xor m _ _ | .shl m _ _ | .shr m _ _ => m == 0
  | .unassigned17 | .unassigned18 | .unassigned19 | .unassigned1A | .unassigned1B => false
  | .unassigned1C | .unassigned1D | .unassigned1E | .unassigned1F => false
  | .halt | .nop | .ret => true
  | .movDD _ _ | .movDLI _ _ | .movDUI _ _ | .movDWI _ _ => true
  | .movII _ _ | .movIDL _ _ | .movIDU _ _ | .movIWD _ _ => true
  | .ldi _ _ | .ldu _ _ | .ldo _ _ => true
  | .inc _ | .dec _ | .jmp _ | .call _ | .push _ | .pop _ | .not _ => true

end Sys2Proof
end

