-- ==== Sys2Proof/Decode.lean ====
section
/-! DEFINITION. The decoder and, after it, the encoder (30_encoding.md R91 to R111), with the field and
byte-order helpers they use (00_scope.md R7, R8, 20_memory.md R52). -/

namespace Sys2Proof

/-- `extract(word, offset, width)` (R7): a plain right shift where the field ends at the top of the
word, a shift and a mask otherwise. -/
def extract (w : Word) (offset width : Nat) : Nat :=
  if offset + width = 16 then w.toNat >>> offset
  else (w.toNat >>> offset) &&& ((1 <<< width) - 1)

/-- `pack(value, offset, width) = (value mod 2^width) << offset` (R8). -/
def pack (v offset width : Nat) : Word :=
  BitVec.ofNat 16 ((v % 2 ^ width) <<< offset)

/-- The field at `offset` of width `width`, as bits. -/
def field (w : Word) (offset width : Nat) : BitVec width :=
  BitVec.ofNat width (extract w offset width)

/-- Bits 7..0 of a word. -/
def lowByte (w : Word) : Byte := w.extractLsb' 0 8

/-- Bits 15..8 of a word. -/
def highByte (w : Word) : Byte := w.extractLsb' 8 8

/-- `hi ++ lo` (R6): the word with `hi` in bits 15..8 and `lo` in bits 7..0. -/
def joinBytes (hi lo : Byte) : Word := hi ++ lo

/-- `zext_16` (R9). -/
def zext16 (b : Byte) : Word := b.setWidth 16

/-- `sext_16` (R9), defined for completeness: no rule of the spec uses it. -/
def sext16 (b : Byte) : Word := b.signExtend 16

/-- The bytes of a word in memory order, the byte at the lower address first (R52, R111). -/
def wordBytesLE (w : Word) : List Byte := [lowByte w, highByte w]

/-- The six fields of a word (R109). -/
def Fields.ofWord (w : Word) : Fields where
  op := field w 11 5
  mode := field w 8 3
  rx := field w 4 4
  ry := field w 0 4
  rl := field w 8 3
  imm := field w 0 8

/-- R166's test on the latched opcode: 0x00 to 0x16 are declared. -/
def Fields.declared (f : Fields) : Bool := f.op.toNat ≤ Config.lastDeclaredOp.toNat

/-- The eight modes of MOV (R104), each with the operands RX and RY. -/
def movOfMode (mode : BitVec 3) (rx ry : RegIdx) : Instr :=
  if mode = Config.modeDD then .movDD rx ry
  else if mode = Config.modeDLI then .movDLI rx ry
  else if mode = Config.modeDUI then .movDUI rx ry
  else if mode = Config.modeDWI then .movDWI rx ry
  else if mode = Config.modeII then .movII rx ry
  else if mode = Config.modeIDL then .movIDL rx ry
  else if mode = Config.modeIDU then .movIDU rx ry
  else .movIWD rx ry

/-- The unassigned opcode numbers 0x17 to 0x1F (R264). -/
def unassignedOf (op : BitVec 5) : Instr :=
  if op = 0x17 then .unassigned17
  else if op = 0x18 then .unassigned18
  else if op = 0x19 then .unassigned19
  else if op = 0x1A then .unassigned1A
  else if op = 0x1B then .unassigned1B
  else if op = 0x1C then .unassigned1C
  else if op = 0x1D then .unassigned1D
  else if op = 0x1E then .unassigned1E
  else .unassigned1F

/-- The instruction of the latched fields: the opcode map of R100. An instruction takes the fields of
its own family only (R94, R166). -/
def Fields.instr (f : Fields) : Instr :=
  if f.op = Config.opHALT then .halt
  else if f.op = Config.opNOP then .nop
  else if f.op = Config.opMOV then movOfMode f.mode f.rx f.ry
  else if f.op = Config.opLDI then .ldi f.rl f.imm
  else if f.op = Config.opLDU then .ldu f.rl f.imm
  else if f.op = Config.opLDO then .ldo f.rl f.imm
  else if f.op = Config.opINC then .inc f.rx
  else if f.op = Config.opDEC then .dec f.rx
  else if f.op = Config.opJZ then .jz f.mode f.rx f.ry
  else if f.op = Config.opJNZ then .jnz f.mode f.rx f.ry
  else if f.op = Config.opJMP then .jmp f.rx
  else if f.op = Config.opCALL then .call f.rx
  else if f.op = Config.opRET then .ret
  else if f.op = Config.opPUSH then .push f.rx
  else if f.op = Config.opPOP then .pop f.rx
  else if f.op = Config.opADD then .add f.mode f.rx f.ry
  else if f.op = Config.opSUB then .sub f.mode f.rx f.ry
  else if f.op = Config.opAND then .and f.mode f.rx f.ry
  else if f.op = Config.opOR then .or f.mode f.rx f.ry
  else if f.op = Config.opXOR then .xor f.mode f.rx f.ry
  else if f.op = Config.opNOT then .not f.rx
  else if f.op = Config.opSHL then .shl f.mode f.rx f.ry
  else if f.op = Config.opSHR then .shr f.mode f.rx f.ry
  else unassignedOf f.op

/-- Decoding is total (R101): every 16-bit word is an instruction of the table. -/
def decodeWord (w : Word) : Instr := (Fields.ofWord w).instr

/-- Why bytes do not decode: fewer than the two bytes of one instruction (R90). -/
inductive DecodeError
  | truncated
deriving DecidableEq, Repr

/-- The first instruction of a byte sequence and the bytes after it (R52, R90). -/
def decode : List Byte → Except DecodeError (Instr × List Byte)
  | lo :: hi :: rest => .ok (decodeWord (joinBytes hi lo), rest)
  | [] | [_] => .error .truncated

/-- `encode_N` (R107). -/
def encodeN (op : Nat) : Word := pack op 11 5

/-- `encode_RR` (R107). -/
def encodeRR (op mode rx ry : Nat) : Word :=
  pack op 11 5 ||| pack mode 8 3 ||| pack rx 4 4 ||| pack ry 0 4

/-- `encode_RI` (R107). -/
def encodeRI (op rl imm : Nat) : Word :=
  pack op 11 5 ||| pack rl 8 3 ||| pack imm 0 8

/-- `encode_R` (R107). -/
def encodeR (op rx : Nat) : Word := pack op 11 5 ||| pack rx 4 4

/-- The encoder on plain numbers: the range checks of R108, then the packing of R107. -/
def RawInstr.encode (r : RawInstr) : Except EncodeError Word :=
  match r.check with
  | .error e => .error e
  | .ok _ =>
    match r with
    | .n op => .ok (encodeN op)
    | .rr op mode rx ry => .ok (encodeRR op mode rx ry)
    | .ri op rl imm => .ok (encodeRI op rl imm)
    | .r op rx => .ok (encodeR op rx)

/-- A typed instruction as the encoder's arguments, by the formats of R100. An unassigned number is
given as a format N word with that number: the table writes its row so, and no mnemonic reaches it. -/
def Instr.raw : Instr → RawInstr
  | .halt => .n Config.opHALT.toNat
  | .nop => .n Config.opNOP.toNat
  | .movDD rx ry => .rr Config.opMOV.toNat Config.modeDD.toNat rx.toNat ry.toNat
  | .movDLI rx ry => .rr Config.opMOV.toNat Config.modeDLI.toNat rx.toNat ry.toNat
  | .movDUI rx ry => .rr Config.opMOV.toNat Config.modeDUI.toNat rx.toNat ry.toNat
  | .movDWI rx ry => .rr Config.opMOV.toNat Config.modeDWI.toNat rx.toNat ry.toNat
  | .movII rx ry => .rr Config.opMOV.toNat Config.modeII.toNat rx.toNat ry.toNat
  | .movIDL rx ry => .rr Config.opMOV.toNat Config.modeIDL.toNat rx.toNat ry.toNat
  | .movIDU rx ry => .rr Config.opMOV.toNat Config.modeIDU.toNat rx.toNat ry.toNat
  | .movIWD rx ry => .rr Config.opMOV.toNat Config.modeIWD.toNat rx.toNat ry.toNat
  | .ldi rl imm => .ri Config.opLDI.toNat rl.toNat imm.toNat
  | .ldu rl imm => .ri Config.opLDU.toNat rl.toNat imm.toNat
  | .ldo rl imm => .ri Config.opLDO.toNat rl.toNat imm.toNat
  | .inc rx => .r Config.opINC.toNat rx.toNat
  | .dec rx => .r Config.opDEC.toNat rx.toNat
  | .jz m rx ry => .rr Config.opJZ.toNat m.toNat rx.toNat ry.toNat
  | .jnz m rx ry => .rr Config.opJNZ.toNat m.toNat rx.toNat ry.toNat
  | .jmp rx => .r Config.opJMP.toNat rx.toNat
  | .call rx => .r Config.opCALL.toNat rx.toNat
  | .ret => .n Config.opRET.toNat
  | .push rx => .r Config.opPUSH.toNat rx.toNat
  | .pop rx => .r Config.opPOP.toNat rx.toNat
  | .add m rx ry => .rr Config.opADD.toNat m.toNat rx.toNat ry.toNat
  | .sub m rx ry => .rr Config.opSUB.toNat m.toNat rx.toNat ry.toNat
  | .and m rx ry => .rr Config.opAND.toNat m.toNat rx.toNat ry.toNat
  | .or m rx ry => .rr Config.opOR.toNat m.toNat rx.toNat ry.toNat
  | .xor m rx ry => .rr Config.opXOR.toNat m.toNat rx.toNat ry.toNat
  | .not rx => .r Config.opNOT.toNat rx.toNat
  | .shl m rx ry => .rr Config.opSHL.toNat m.toNat rx.toNat ry.toNat
  | .shr m rx ry => .rr Config.opSHR.toNat m.toNat rx.toNat ry.toNat
  | .unassigned17 => .n 0x17
  | .unassigned18 => .n 0x18
  | .unassigned19 => .n 0x19
  | .unassigned1A => .n 0x1A
  | .unassigned1B => .n 0x1B
  | .unassigned1C => .n 0x1C
  | .unassigned1D => .n 0x1D
  | .unassigned1E => .n 0x1E
  | .unassigned1F => .n 0x1F

/-- The word of an instruction (R107), unused bits 0 (R94). Typed operands fit their fields, so no
range check can fail here. -/
def encode (i : Instr) : Word :=
  match i.raw with
  | .n op => encodeN op
  | .rr op mode rx ry => encodeRR op mode rx ry
  | .ri op rl imm => encodeRI op rl imm
  | .r op rx => encodeR op rx

/-- The bits of a word that an instruction's format uses (R92 to R94): the decoder looks at no other, the
encoder writes the others as 0. -/
def usedMask (i : Instr) : Word :=
  match i.raw with
  | .n _ => 0xF800
  | .rr _ _ _ _ => 0xFFFF
  | .ri _ _ _ => 0xFFFF
  | .r _ _ => 0xF8F0

/-- The bytes of an instruction in memory order (R111). -/
def encodeBytes (i : Instr) : List Byte := wordBytesLE (encode i)

/-- The instruction the decoder reads from a row's word (bit 0 is the least significant bit of the
word): the word's two bytes are laid out as RAM stores them and given to `decode`. A word that needs
more than the instruction's 16 bits is no instruction. -/
def decodeTableWord (nbits w : Nat) : Option Instr :=
  let v := w % 2 ^ nbits
  if v < 2 ^ 16 then
    match decode (wordBytesLE (BitVec.ofNat 16 v)) with
    | .ok (i, _) => some i
    | .error _ => none
  else none

end Sys2Proof
end

