-- ==== Sys2Proof/Machine/State.lean ====
section
/-! DEFINITION. The state of the machine (10_state.md R20 to R39) as plain data, the reasons a step can
stop, and the state after reset (R39). -/

namespace Sys2Proof.Machine

/-- `state` (R31): "CPU State: enum Fetch, Decode, Execute, Halted". -/
inductive CpuState
  | fetch
  | decode
  | execute
  | halted
deriving DecidableEq, Repr

/-- The four causes of a halt (60_exceptions.md R273 to R276). -/
inductive HaltCause
  | haltInstruction
  | unrecognizedOpcode
  | unsupportedMode
  | notImplemented
deriving DecidableEq, Repr

/-- The halt record (R34, R272): the cause, the latched opcode and mode bits, and the number of the
tick in which the halt occurred. -/
structure HaltRecord where
  cause : HaltCause
  op : BitVec 5
  mode : BitVec 3
  cycle : Nat
deriving DecidableEq, Repr

/-- One pin set (R35). While `valid` is false the other three signals have no meaning. -/
structure Pins where
  address : Word
  data : Word
  readIntent : Bool
  valid : Bool
deriving DecidableEq, Repr

/-- Deasserted pins (R39). The three signals beside `valid` are meaningless here; DESIGN CHOICE,
notes/assumptions/9.md. -/
def Pins.idle : Pins := { address := 0, data := 0, readIntent := false, valid := false }

/-- Everything the spec gives the machine (R39's table), and the run's parameters (R5, R38). -/
structure State where
  /-- The open parameters of R5, fixed for a run: the model's own field. -/
  params : Params
  /-- The register file `x` (R20): entries 12 to 15 are IR, PC, SP, FLAGS (R21, R24). -/
  regs : Vector Word 16
  /-- `state` (R31). -/
  cpuState : CpuState
  /-- The indirect-write-pending sub-state of Execute (R31). -/
  pending : Bool
  /-- The internal scratch register (R32). -/
  scratch : Word
  /-- The decode latch (R30). -/
  dec : Fields
  /-- Ticks begun since reset (R33). -/
  cycle : Nat
  /-- Absent until the CPU halts (R34). -/
  haltRecord : Option HaltRecord
  /-- The CPU's pins (R35). -/
  cpuPins : Pins
  /-- The RAM's pins (R35). -/
  ramPins : Pins
  /-- The console's pins (R35). -/
  conPins : Pins
  /-- The RAM (R36), in the canonical form of `Memory.wf`. -/
  ram : List Host.Cell
  /-- The console's accumulated buffer (R37). -/
  conBuffer : List (BitVec 8)
  /-- The lines delivered to the output sink, oldest first (R37). -/
  conLines : List (List (BitVec 8))
deriving DecidableEq, Repr

/-- Why the model has no next state. -/
inductive Fault
  /-- Raised by the RAM process (Ops/Bus `ramProcess`) on a transaction whose second byte lies outside
  the store, which is only a word access at 0xFFFF (20_memory.md R67). Safe: the spec gives no result. -/
  | busOutOfRange
deriving DecidableEq, Repr

/-- Why the model declines an input. -/
inductive Refusal
  /-- An instruction without a meaning. No arm of `exec` answers with it. Safe. -/
  | notModelled (mnemonic : String)
  /-- Raised by the host's load operation on an image that does not fit between `PROGRAM_BASE` and the
  end of the RAM (20_memory.md R78). Safe: no machine state exists. -/
  | imageTooLarge
deriving DecidableEq, Repr

/-- R39's register file: PC = `PROGRAM_BASE`, SP = `STACK_TOP`, every other entry 0. -/
def resetRegs (p : Params) : Vector Word 16 :=
  #v[0, 0, 0, 0, 0, 0, 0, 0, 0, 0, 0, 0, 0, p.programBase, p.stackTop, 0]

/-- The machine right after reset with no image loaded (R39, R301), under the defaults of R5. -/
def State.reset : State where
  params := Params.canonical
  regs := resetRegs Params.canonical
  cpuState := .fetch
  pending := false
  scratch := 0
  dec := { op := 0, mode := 0, rx := 0, ry := 0, rl := 0, imm := 0 }
  cycle := 0
  haltRecord := none
  cpuPins := Pins.idle
  ramPins := Pins.idle
  conPins := Pins.idle
  ram := []
  conBuffer := []
  conLines := []

end Sys2Proof.Machine
end

