-- ==== Sys2Proof/Machine/Ops.lean ====
section
/-! DEFINITION. The named operations over the RAM, the registers, the pins and the control state, and
the machine's one kind of exception: raising a halt (60_exceptions.md R271) and, since nothing returns
from it, the reset that alone leaves it (70_reset_and_hazards.md R300). -/

namespace Sys2Proof.Machine

/-- What one step of the machine, or one phase of it, answers. -/
abbrev Result := Host.Outcome State Fault Refusal

/-- Go on with the next state of `r`; a fault or a refusal ends the step. -/
def andThen (r : Result) (f : State → Result) : Result :=
  match r with
  | .next s => f s
  | .fault e => .fault e
  | .refused e => .refused e

/-! ### RAM: a canonical list of cells -/

/-- The byte at `a`: the listed one, else `fill` (`RAM_FILL`, 20_memory.md R78). This is the one
definition of what an unlisted address reads as. -/
def memRead (fill : Byte) : List Host.Cell → Nat → Byte
  | [], _ => fill
  | (k, b) :: m, a => if k = a then b else memRead fill m a

/-- Write the byte `b` at `a`, keeping the addresses rising and listing no byte equal to `fill`. -/
def memWrite (fill : Byte) : List Host.Cell → Nat → Byte → List Host.Cell
  | [], a, b => if b = fill then [] else [(a, b)]
  | (k, c) :: m, a, b =>
    if a < k then (if b = fill then (k, c) :: m else (a, b) :: (k, c) :: m)
    else if a = k then (if b = fill then m else (a, b) :: m)
    else (k, c) :: memWrite fill m a b

/-- The canonical form: addresses strictly rising and inside the store, no cell equal to `fill`. -/
abbrev Memory.wf (fill : Byte) (m : List Host.Cell) : Prop :=
  m.Pairwise (fun c d => c.1 < d.1) ∧ (∀ c ∈ m, c.2 ≠ fill) ∧ ∀ c ∈ m, c.1 < Config.ramSize

/-- Write a byte sequence at rising addresses from `a` (the load operation's copy, R78). -/
def memWriteBytes (fill : Byte) (m : List Host.Cell) (a : Nat) : List Byte → List Host.Cell
  | [] => m
  | b :: bs => memWriteBytes fill (memWrite fill m a b) (a + 1) bs

/-- `ram[a]` (R36). -/
def State.readByte (s : State) (a : Nat) : Byte := memRead s.params.ramFill s.ram a

/-- `ram[a] <- b`. -/
def State.writeByte (s : State) (a : Nat) (b : Byte) : State :=
  { s with ram := memWrite s.params.ramFill s.ram a b }

/-- `ram[a+1] ++ ram[a]`: the little-endian word at byte address `a` (R52). -/
def State.readWord (s : State) (a : Nat) : Word := joinBytes (s.readByte (a + 1)) (s.readByte a)

/-- `ram[a] <- v[7:0]` and `ram[a+1] <- v[15:8]` (R52, R59). -/
def State.writeWord (s : State) (a : Nat) (v : Word) : State :=
  (s.writeByte a (lowByte v)).writeByte (a + 1) (highByte v)

/-! ### The register file -/

/-- `x[i]` (00_scope.md R9, R20): no entry is hard-wired and no read has a side effect (R22). -/
def State.reg (s : State) (i : RegIdx) : Word := s.regs[i.toNat]'i.isLt

/-- `x[i] <- v` (R9). The dedicated registers are entries like any other (R24). -/
def State.setReg (s : State) (i : RegIdx) (v : Word) : State :=
  { s with regs := s.regs.set i.toNat v i.isLt }

/-- `pc` = `x[13]` (R24, R25). -/
def State.pc (s : State) : Word := s.reg Config.idxPC

/-- `ir` = `x[12]` (R24, R27). -/
def State.ir (s : State) : Word := s.reg Config.idxIR

/-- `sp` = `x[14]` (R24, R28). -/
def State.sp (s : State) : Word := s.reg Config.idxSP

/-- `flags` = `x[15]` (R24, R29). -/
def State.flags (s : State) : Word := s.reg Config.idxFLAGS

/-! ### The CPU's pins -/

/-- `cpu_pins.valid <- false`: no request this tick (40_cycle.md R162). -/
def dropRequest (s : State) : State := { s with cpuPins := { s.cpuPins with valid := false } }

/-- `MemRead(addr, 2)`, the request of step S1 (20_memory.md R62). The data lines have no meaning on a
read request and keep the value they carried; DESIGN CHOICE, notes/assumptions/9.md. -/
def requestRead (addr : Word) (s : State) : State :=
  { s with cpuPins := { s.cpuPins with address := addr, readIntent := true, valid := true } }

/-- `MemWrite(addr, 2, v)`, the request of step S1 (20_memory.md R63). -/
def requestWrite (addr v : Word) (s : State) : State :=
  { s with cpuPins := { address := addr, data := v, readIntent := false, valid := true } }

/-- The start of a setup half-cycle of a running CPU: the tick is counted (10_state.md R33) and no
request is driven yet (R162). -/
def beginTick (s : State) : State := dropRequest { s with cycle := s.cycle + 1 }

/-! ### Halting: the machine's only exception -/

/-- `raise Halt(cause)` (60_exceptions.md R271): the halt record, the state and `pending`, and nothing
else. Nothing is saved and control goes nowhere (R282). -/
def raiseHalt (cause : HaltCause) (s : State) : State :=
  { s with
    haltRecord := some { cause := cause, op := s.dec.op, mode := s.dec.mode, cycle := s.cycle }
    cpuState := .halted
    pending := false }

/-- Reset of the CPU (70_reset_and_hazards.md R300, R301): the only way out of Halted. Every piece of
CPU state takes its value of R39; the RAM, the console and the parameters keep theirs (decision D38). -/
def resetCpu (s : State) : State :=
  { s with
    regs := resetRegs s.params
    cpuState := .fetch
    pending := false
    scratch := 0
    dec := { op := 0, mode := 0, rx := 0, ry := 0, rl := 0, imm := 0 }
    cycle := 0
    haltRecord := none
    cpuPins := Pins.idle
    ramPins := Pins.idle
    conPins := Pins.idle }

end Sys2Proof.Machine
end

