-- ==== Sys2Proof/Machine/Bus.lean ====
section
/-! DEFINITION. The bus, the RAM process and the console process, and one tick in its fixed order
S1, S2, C1, C2, C3 (20_memory.md R55 to R73). -/

namespace Sys2Proof.Machine

/-- Bus setup, step S2 (R58): route the CPU's request by its address, and deassert the pin set that is
not selected (decision D22). -/
def busSetup (s : State) : State :=
  if s.cpuPins.valid then
    if s.cpuPins.address = Config.consoleAddr then
      { s with
        conPins := { s.cpuPins with valid := true }
        ramPins := { s.ramPins with valid := false } }
    else
      { s with
        ramPins := { s.cpuPins with valid := true }
        conPins := { s.conPins with valid := false } }
  else
    { s with
      ramPins := { s.ramPins with valid := false }
      conPins := { s.conPins with valid := false } }

/-- RAM process, step C1 (R59), and the fault of R67 where the second byte of the access lies outside
the store. -/
def ramProcess (s : State) : Result :=
  if s.ramPins.valid then
    let a := s.ramPins.address.toNat
    if a + 1 ≥ Config.ramSize then .fault .busOutOfRange
    else if s.ramPins.readIntent then
      .next { s with ramPins := { s.ramPins with data := s.readWord a } }
    else .next (s.writeWord a s.ramPins.data)
  else .next s

/-- The accumulated buffer after the byte `c` (R72): a newline empties it, a zero byte leaves it, any
other byte is appended. -/
def bufferAfter (c : Byte) (buffer : List Byte) : List Byte :=
  if c = Config.newline then [] else if c = 0 then buffer else buffer ++ [c]

/-- The lines delivered after the byte `c` (R72): a newline flushes the buffer as one line. -/
def linesAfter (c : Byte) (buffer : List Byte) (lines : List (List Byte)) : List (List Byte) :=
  if c = Config.newline then lines ++ [buffer] else lines

/-- The console takes one byte (R72). -/
def consoleTake (c : Byte) (s : State) : State :=
  { s with
    conBuffer := bufferAfter c s.conBuffer
    conLines := linesAfter c s.conBuffer s.conLines }

/-- Console process, step C1 (R72): a write hands over bits 7..0 of the data; a read does nothing
(R73). -/
def consoleProcess (s : State) : State :=
  if s.conPins.valid && !s.conPins.readIntent then consoleTake (lowByte s.conPins.data) s else s

/-- Bus complete, step C2 (R60): only a completed RAM read answers the CPU. -/
def busComplete (s : State) : State :=
  if s.ramPins.valid && s.ramPins.readIntent then
    { s with cpuPins := { s.cpuPins with data := s.ramPins.data, valid := true } }
  else { s with cpuPins := { s.cpuPins with valid := false } }

/-- Steps S2, C1 and C2: what the bus and its two slaves do with the CPU's request (R56). -/
def busCycle (s : State) : Result :=
  andThen (ramProcess (busSetup s)) fun t => .next (busComplete (consoleProcess t))

/-- One tick whose CPU setup is `setup` and whose CPU complete is `complete` (R56). -/
def runTick (setup complete : State → State) (s : State) : Result :=
  andThen (busCycle (setup s)) fun t => .next (complete t)

/-- Step C3 of a tick whose step S1 may have halted the CPU: a halted CPU does nothing (40_cycle.md
R163). -/
def unlessHalted (complete : State → State) (s : State) : State :=
  if s.cpuState = .halted then s else complete s

/-- One Execute tick (R168, R169). -/
def executeTick (setup complete : State → State) (s : State) : Result :=
  runTick (fun t => setup (beginTick t)) (unlessHalted complete) s

/-- The instruction is finished: back to Fetch (R169). -/
def toFetch (s : State) : State := { s with cpuState := .fetch }

end Sys2Proof.Machine
end

