-- ==== Sys2Proof/Machine/Operands.lean ====
section
/-! DEFINITION. The operand forms of g16: the 3-bit register field, the direct and indirect operands of
the mode table (30_encoding.md R104), the byte merges, and LDO's own-address form (43_loadimm.md R223). -/

namespace Sys2Proof.Machine

/-- The register an RL field names: R0 to R7 (10_state.md R23). -/
def regOfRL (rl : BitVec 3) : RegIdx := rl.setWidth 4

/-- A direct operand: the register's own value (R104). -/
def directOperand (r : RegIdx) (s : State) : Word := s.reg r

/-- The effective address of an indirect operand: the register's full value, with no offset, scaling or
alignment (42_move.md R202). -/
def indirectAddress (r : RegIdx) (s : State) : Word := s.reg r

/-- `v` with its low byte replaced by `b`. -/
def withLowByte (v : Word) (b : Byte) : Word := joinBytes (highByte v) b

/-- `v` with its high byte replaced by `b`. -/
def withHighByte (v : Word) (b : Byte) : Word := joinBytes b (lowByte v)

/-- What mode DLI makes of the destination `old` and the bus word `d` (R203). -/
def mergeDLI (old d : Word) : Word := withLowByte old (lowByte d)

/-- What mode DUI makes of them (R204): the byte is chosen by `DUI_SOURCE`. -/
def mergeDUI (src : DuiSource) (old d : Word) : Word :=
  match src with
  | .low => withHighByte old (lowByte d)
  | .high => withHighByte old (highByte d)

/-- What LDI makes of the register (43_loadimm.md R221): the upper byte by `LDI_UPPER`. -/
def mergeLDI (upper : LdiUpper) (old : Word) (imm : Byte) : Word :=
  match upper with
  | .preserve => withLowByte old imm
  | .clear => zext16 imm

/-- LDO's operand: the instruction's own address plus the offset, `pc - 2 + zext_16(imm)` modulo 2^16;
the PC has already advanced (R223). -/
def ownAddressPlus (imm : Byte) (s : State) : Word :=
  s.pc - BitVec.ofNat 16 Config.wordBytes + zext16 imm

end Sys2Proof.Machine
end

