-- ==== Sys2Proof/Machine/Flags.lean ====
section
/-! DEFINITION. Flags. The spec gives no flag computation: FLAGS is an ordinary register with no layout
that no instruction writes as a side effect and none reads (10_state.md R29, 44_incdec.md R230). The one
condition the machine tests is a register's value against zero (45_condjump.md R240), and it is not a
flag. -/

namespace Sys2Proof.Machine

/-- The condition of JZ and JNZ: the whole 16-bit register is 0x0000, with no signed reading (R240,
R242). -/
def isZero (v : Word) : Bool := v == 0

end Sys2Proof.Machine
end

