-- ==== Sys2Proof/Machine/CondJump.lean ====
section
/-! DEFINITION. The conditional jumps JZ and JNZ (45_condjump.md). -/

namespace Sys2Proof.Machine

/-- Step S1 of a conditional jump whose condition on the register `rx` is `taken` (R241 to R243): a mode
other than 0 halts before the condition is tested; a taken jump writes the PC with the target register;
one that is not taken changes nothing. -/
def condJumpSetup (taken : Word → Bool) (mode : BitVec 3) (rx ry : RegIdx) (s : State) : State :=
  if mode ≠ Config.modeDD then raiseHalt .unsupportedMode s
  else if taken (directOperand rx s) then s.setReg Config.idxPC (directOperand ry s)
  else s

/-- JZ, step S1 (R241). -/
def jzSetup (mode : BitVec 3) (rx ry : RegIdx) (s : State) : State :=
  condJumpSetup isZero mode rx ry s

/-- JZ: jump if the condition register is zero (R241). -/
def execJz (mode : BitVec 3) (rx ry : RegIdx) (s : State) : Result :=
  executeTick (jzSetup mode rx ry) toFetch s

/-- JNZ, step S1 (R242). -/
def jnzSetup (mode : BitVec 3) (rx ry : RegIdx) (s : State) : State :=
  condJumpSetup (fun v => !isZero v) mode rx ry s

/-- JNZ: jump if the condition register is not zero (R242). -/
def execJnz (mode : BitVec 3) (rx ry : RegIdx) (s : State) : Result :=
  executeTick (jnzSetup mode rx ry) toFetch s

end Sys2Proof.Machine
end

