-- ==== Sys2Proof/Machine/IncDec.lean ====
section
/-! DEFINITION. INC and DEC (44_incdec.md): modulo 2^16, no flag, no trap (R230). -/

namespace Sys2Proof.Machine

/-- INC, step S1 (R231). -/
def incSetup (rx : RegIdx) (s : State) : State := s.setReg rx (s.reg rx + 1)

/-- INC: add one to a register (R231). -/
def execInc (rx : RegIdx) (s : State) : Result := executeTick (incSetup rx) toFetch s

/-- DEC, step S1 (R232). -/
def decSetup (rx : RegIdx) (s : State) : State := s.setReg rx (s.reg rx - 1)

/-- DEC: subtract one from a register (R232). -/
def execDec (rx : RegIdx) (s : State) : Result := executeTick (decSetup rx) toFetch s

end Sys2Proof.Machine
end

