-- ==== Sys2Proof/Machine/LoadImm.lean ====
section
/-! DEFINITION. The load-immediate instructions LDI, LDU, LDO (43_loadimm.md): all the work is done in
step S1 of one Execute tick, with no bus transaction (R220). -/

namespace Sys2Proof.Machine

/-- LDI, step S1 (R221). -/
def ldiSetup (rl : BitVec 3) (imm : Byte) (s : State) : State :=
  s.setReg (regOfRL rl) (mergeLDI s.params.ldiUpper (s.reg (regOfRL rl)) imm)

/-- LDI: load immediate into the low byte (R221). -/
def execLdi (rl : BitVec 3) (imm : Byte) (s : State) : Result :=
  executeTick (ldiSetup rl imm) toFetch s

/-- LDU, step S1 (R222). -/
def lduSetup (rl : BitVec 3) (imm : Byte) (s : State) : State :=
  s.setReg (regOfRL rl) (withHighByte (s.reg (regOfRL rl)) imm)

/-- LDU: load immediate into the high byte (R222). -/
def execLdu (rl : BitVec 3) (imm : Byte) (s : State) : Result :=
  executeTick (lduSetup rl imm) toFetch s

/-- LDO, step S1 (R223). -/
def ldoSetup (rl : BitVec 3) (imm : Byte) (s : State) : State :=
  s.setReg (regOfRL rl) (ownAddressPlus imm s)

/-- LDO: load the instruction's own address plus an offset (R223). -/
def execLdo (rl : BitVec 3) (imm : Byte) (s : State) : Result :=
  executeTick (ldoSetup rl imm) toFetch s

end Sys2Proof.Machine
end

