-- ==== Sys2Proof/Machine/Move.lean ====
section
/-! DEFINITION. MOV in its eight addressing modes (42_move.md). Each mode has its step S1 (setup) and its
step C3 (complete); a mode that waits for the bus stays in Execute until it is answered (40_cycle.md
R170). -/

namespace Sys2Proof.Machine

/-- MOV DD, step S1 (R201). -/
def movDDSetup (rx ry : RegIdx) (s : State) : State := s.setReg rx (directOperand ry s)

/-- MOV DD: copy a register, with no bus transaction (R201). -/
def execMovDD (rx ry : RegIdx) (s : State) : Result := executeTick (movDDSetup rx ry) toFetch s

/-- Step S1 of the load modes: one read at the effective address (R202). -/
def loadSetup (ry : RegIdx) (s : State) : State := requestRead (indirectAddress ry s) s

/-- Step C3 of the load modes (R202): with an answer, merge it into the destination and finish; with
none, change nothing and stay in Execute (R170). -/
def loadComplete (merge : Word → Word → Word) (rx : RegIdx) (s : State) : State :=
  if s.cpuPins.valid then toFetch (s.setReg rx (merge (s.reg rx) s.cpuPins.data)) else s

/-- MOV DLI, step C3 (R203). -/
def movDLIComplete (rx : RegIdx) (s : State) : State := loadComplete mergeDLI rx s

/-- MOV DLI: load a byte into the low byte of a register (R203). -/
def execMovDLI (rx ry : RegIdx) (s : State) : Result :=
  executeTick (loadSetup ry) (movDLIComplete rx) s

/-- MOV DUI, step C3 (R204). -/
def movDUIComplete (rx : RegIdx) (s : State) : State :=
  loadComplete (mergeDUI s.params.duiSource) rx s

/-- MOV DUI: load a byte into the high byte of a register (R204). -/
def execMovDUI (rx ry : RegIdx) (s : State) : Result :=
  executeTick (loadSetup ry) (movDUIComplete rx) s

/-- MOV DWI, step C3 (R205). -/
def movDWIComplete (rx : RegIdx) (s : State) : State := loadComplete (fun _ d => d) rx s

/-- MOV DWI: load a word (R205). -/
def execMovDWI (rx ry : RegIdx) (s : State) : Result :=
  executeTick (loadSetup ry) (movDWIComplete rx) s

/-- MOV II, step S1 (R200, R206): the read in the first tick, the write of the scratch value in the
second. -/
def movIISetup (rx ry : RegIdx) (s : State) : State :=
  if s.pending then requestWrite (indirectAddress rx s) s.scratch s
  else requestRead (indirectAddress ry s) s

/-- MOV II, step C3 (R206): an answered read is kept in the scratch register and the write becomes
pending; an unanswered one changes nothing; after the write the instruction is finished. -/
def movIIComplete (s : State) : State :=
  if s.pending then toFetch { s with pending := false }
  else if s.cpuPins.valid then { s with scratch := s.cpuPins.data, pending := true }
  else s

/-- One Execute tick of MOV II. -/
def movIITick (rx ry : RegIdx) (s : State) : Result := executeTick (movIISetup rx ry) movIIComplete s

/-- MOV II: copy a word from one address to another, a read tick and then a write tick, "never collapsed
into one" (R206). From the pending sub-state only the write tick is left; after an unanswered read the
CPU waits in Execute. -/
def execMovII (rx ry : RegIdx) (s : State) : Result :=
  if s.pending then movIITick rx ry s
  else andThen (movIITick rx ry s) fun t => if t.pending then movIITick rx ry t else .next t

/-- Step S1 of the three store modes: the mode is not supported (R207 to R209). -/
def storeModeSetup (s : State) : State := raiseHalt .unsupportedMode s

/-- MOV IDL: declared, halts with `UnsupportedMode` (R207). -/
def execMovIDL (_rx _ry : RegIdx) (s : State) : Result := executeTick storeModeSetup toFetch s

/-- MOV IDU: declared, halts with `UnsupportedMode` (R208). -/
def execMovIDU (_rx _ry : RegIdx) (s : State) : Result := executeTick storeModeSetup toFetch s

/-- MOV IWD: declared, halts with `UnsupportedMode` (R209). -/
def execMovIWD (_rx _ry : RegIdx) (s : State) : Result := executeTick storeModeSetup toFetch s

end Sys2Proof.Machine
end

