-- ==== Sys2Proof/Machine/NoOp.lean ====
section
/-! DEFINITION. The no-operand instructions HALT and NOP (41_noop.md). -/

namespace Sys2Proof.Machine

/-- HALT, step S1 (R190). -/
def haltSetup (s : State) : State := raiseHalt .haltInstruction s

/-- HALT: stop the CPU with cause `HaltInstruction` (R190). -/
def execHalt (s : State) : Result := executeTick haltSetup toFetch s

/-- NOP, step S1: nothing (R191), or the halt of R192 under `NOP_BEHAVIOUR = not_implemented`. -/
def nopSetup (s : State) : State :=
  match s.params.nopBehaviour with
  | .noop => s
  | .notImplemented => raiseHalt .notImplemented s

/-- NOP: no operation (R191, R192). -/
def execNop (s : State) : Result := executeTick nopSetup toFetch s

end Sys2Proof.Machine
end

