-- ==== Sys2Proof/Machine/Reserved.lean ====
section
/-! DEFINITION. The reserved opcodes, which halt in Execute with cause `NotImplemented` (46_reserved.md
R250 to R263), and the unassigned opcode numbers, which halt in Decode with cause `UnrecognizedOpcode`
(R264). Their halt is their whole effect: "it must not execute ADD as an addition or RET as a return". -/

namespace Sys2Proof.Machine

/-- Step S1 of every reserved opcode (R250): the operand fields are not examined. -/
def reservedSetup (s : State) : State := raiseHalt .notImplemented s

/-- The Execute tick of a reserved opcode (R250). -/
def reservedExec (s : State) : Result := executeTick reservedSetup toFetch s

/-- JMP: reserved, halts with `NotImplemented` (R251). -/
def execJmp (_rx : RegIdx) (s : State) : Result := reservedExec s

/-- CALL: reserved, halts with `NotImplemented` (R252). -/
def execCall (_rx : RegIdx) (s : State) : Result := reservedExec s

/-- RET: reserved, halts with `NotImplemented` (R253). -/
def execRet (s : State) : Result := reservedExec s

/-- PUSH: reserved, halts with `NotImplemented` (R254). -/
def execPush (_rx : RegIdx) (s : State) : Result := reservedExec s

/-- POP: reserved, halts with `NotImplemented` (R255). -/
def execPop (_rx : RegIdx) (s : State) : Result := reservedExec s

/-- ADD: reserved, halts with `NotImplemented` (R256). -/
def execAdd (_mode : BitVec 3) (_rx _ry : RegIdx) (s : State) : Result := reservedExec s

/-- SUB: reserved, halts with `NotImplemented` (R257). -/
def execSub (_mode : BitVec 3) (_rx _ry : RegIdx) (s : State) : Result := reservedExec s

/-- AND: reserved, halts with `NotImplemented` (R258). -/
def execAnd (_mode : BitVec 3) (_rx _ry : RegIdx) (s : State) : Result := reservedExec s

/-- OR: reserved, halts with `NotImplemented` (R259). -/
def execOr (_mode : BitVec 3) (_rx _ry : RegIdx) (s : State) : Result := reservedExec s

/-- XOR: reserved, halts with `NotImplemented` (R260). -/
def execXor (_mode : BitVec 3) (_rx _ry : RegIdx) (s : State) : Result := reservedExec s

/-- NOT: reserved, halts with `NotImplemented` (R261). -/
def execNot (_rx : RegIdx) (s : State) : Result := reservedExec s

/-- SHL: reserved, halts with `NotImplemented` (R262). -/
def execShl (_mode : BitVec 3) (_rx _ry : RegIdx) (s : State) : Result := reservedExec s

/-- SHR: reserved, halts with `NotImplemented` (R263). -/
def execShr (_mode : BitVec 3) (_rx _ry : RegIdx) (s : State) : Result := reservedExec s

/-- An unassigned opcode number (R264): the halt of step C3 of its own Decode tick. The fields are
latched and the tick is counted already; the CPU never enters Execute for it. -/
def unassignedExec (s : State) : Result := .next (raiseHalt .unrecognizedOpcode s)

/-- Opcode number 0x17: unassigned, halts with `UnrecognizedOpcode` (R264). -/
def execUnassigned17 (s : State) : Result := unassignedExec s

/-- Opcode number 0x18: unassigned, halts with `UnrecognizedOpcode` (R264). -/
def execUnassigned18 (s : State) : Result := unassignedExec s

/-- Opcode number 0x19: unassigned, halts with `UnrecognizedOpcode` (R264). -/
def execUnassigned19 (s : State) : Result := unassignedExec s

/-- Opcode number 0x1A: unassigned, halts with `UnrecognizedOpcode` (R264). -/
def execUnassigned1A (s : State) : Result := unassignedExec s

/-- Opcode number 0x1B: unassigned, halts with `UnrecognizedOpcode` (R264). -/
def execUnassigned1B (s : State) : Result := unassignedExec s

/-- Opcode number 0x1C: unassigned, halts with `UnrecognizedOpcode` (R264). -/
def execUnassigned1C (s : State) : Result := unassignedExec s

/-- Opcode number 0x1D: unassigned, halts with `UnrecognizedOpcode` (R264). -/
def execUnassigned1D (s : State) : Result := unassignedExec s

/-- Opcode number 0x1E: unassigned, halts with `UnrecognizedOpcode` (R264). -/
def execUnassigned1E (s : State) : Result := unassignedExec s

/-- Opcode number 0x1F: unassigned, halts with `UnrecognizedOpcode` (R264). -/
def execUnassigned1F (s : State) : Result := unassignedExec s

end Sys2Proof.Machine
end

