-- ==== Sys2Proof/Machine/Cycle.lean ====
section
/-! DEFINITION. The CPU's state machine, tick by tick (40_cycle.md R160 to R174): the two callbacks in
each of the four states, and `tick`, the whole tick of 20_memory.md R56. `step` advances by instructions;
`tick` is what it is made of. -/

namespace Sys2Proof.Machine

/-! ### Fetch -/

/-- Fetch, step S1: read at the PC (R164). -/
def fetchSetup (s : State) : State := requestRead s.pc s

/-- Fetch, step C3 (R163, R164): an answered read goes to the IR and the PC advances by one word; with
no answer the CPU writes nothing and stays in Fetch (R165). -/
def fetchComplete (s : State) : State :=
  if s.cpuPins.valid then
    { ((s.setReg Config.idxIR s.cpuPins.data).setReg Config.idxPC
        (s.pc + BitVec.ofNat 16 Config.wordBytes)) with cpuState := .decode }
  else s

/-- One Fetch tick. -/
def fetchTick (s : State) : Result := runTick (fun t => fetchSetup (beginTick t)) fetchComplete s

/-! ### Decode -/

/-- The latching of the six fields from the IR (R166). -/
def latchFields (s : State) : State := { s with dec := Fields.ofWord s.ir }

/-- Decode, step C3 (R166): latch the fields, then halt on an unassigned opcode number or go on to
Execute. -/
def decodeComplete (s : State) : State :=
  if (latchFields s).dec.declared then { latchFields s with cpuState := .execute }
  else raiseHalt .unrecognizedOpcode (latchFields s)

/-- One Decode tick: nothing is requested (R167). -/
def decodeTick (s : State) : Result := runTick beginTick decodeComplete s

/-- The part of a Decode tick that belongs to every instruction: the tick, the latch, and the entry into
Execute of a declared opcode. An unassigned number's halt, which ends this same tick, is its own meaning
(46_reserved.md R264). -/
def decodePhase (s : State) : Result :=
  runTick beginTick
    (fun t => if (latchFields t).dec.declared then { latchFields t with cpuState := .execute }
              else latchFields t) s

/-! ### Execute -/

/-- Execute, step S1, by the decoded instruction (R168). A latched unassigned number never reaches
Execute; the entry here keeps the table total and halts as Decode would. -/
def executeSetup (i : Instr) (s : State) : State :=
  match i with
  | .halt => haltSetup s
  | .nop => nopSetup s
  | .movDD rx ry => movDDSetup rx ry s
  | .movDLI _ ry | .movDUI _ ry | .movDWI _ ry => loadSetup ry s
  | .movII rx ry => movIISetup rx ry s
  | .movIDL _ _ | .movIDU _ _ | .movIWD _ _ => storeModeSetup s
  | .ldi rl imm => ldiSetup rl imm s
  | .ldu rl imm => lduSetup rl imm s
  | .ldo rl imm => ldoSetup rl imm s
  | .inc rx => incSetup rx s
  | .dec rx => decSetup rx s
  | .jz m rx ry => jzSetup m rx ry s
  | .jnz m rx ry => jnzSetup m rx ry s
  | .jmp _ | .call _ | .ret | .push _ | .pop _ | .not _ => reservedSetup s
  | .add _ _ _ | .sub _ _ _ | .and _ _ _ | .or _ _ _ | .xor _ _ _ | .shl _ _ _ | .shr _ _ _ =>
    reservedSetup s
  | .unassigned17 | .unassigned18 | .unassigned19 | .unassigned1A | .unassigned1B
  | .unassigned1C | .unassigned1D | .unassigned1E | .unassigned1F => raiseHalt .unrecognizedOpcode s

/-- Execute, step C3 (R169): the loads and MOV II look at the answer, every other instruction returns to
Fetch. -/
def executeComplete (i : Instr) (s : State) : State :=
  match i with
  | .movDLI rx _ => movDLIComplete rx s
  | .movDUI rx _ => movDUIComplete rx s
  | .movDWI rx _ => movDWIComplete rx s
  | .movII _ _ => movIIComplete s
  | .halt | .nop | .ret => toFetch s
  | .movDD _ _ | .movIDL _ _ | .movIDU _ _ | .movIWD _ _ => toFetch s
  | .ldi _ _ | .ldu _ _ | .ldo _ _ | .inc _ | .dec _ | .jz _ _ _ | .jnz _ _ _ => toFetch s
  | .jmp _ | .call _ | .push _ | .pop _ | .not _ => toFetch s
  | .add _ _ _ | .sub _ _ _ | .and _ _ _ | .or _ _ _ | .xor _ _ _ | .shl _ _ _ | .shr _ _ _ => toFetch s
  | .unassigned17 | .unassigned18 | .unassigned19 | .unassigned1A | .unassigned1B
  | .unassigned1C | .unassigned1D | .unassigned1E | .unassigned1F => toFetch s

/-! ### The tick -/

/-- CPU setup, step S1 (R162). A halted CPU asserts nothing and is not counted (R172). -/
def cpuSetup (s : State) : State :=
  match s.cpuState with
  | .halted => dropRequest s
  | .fetch => fetchSetup (beginTick s)
  | .decode => beginTick s
  | .execute => executeSetup s.dec.instr (beginTick s)

/-- CPU complete, step C3 (R163), on the CPU's state after step S1. -/
def cpuComplete (s : State) : State :=
  match s.cpuState with
  | .halted => s
  | .fetch => fetchComplete s
  | .decode => decodeComplete s
  | .execute => executeComplete s.dec.instr s

/-- One full clock tick: S1, S2, C1, C2, C3 (20_memory.md R56). -/
def tick (s : State) : Result := runTick cpuSetup cpuComplete s

/-- `n` ticks, stopping at a fault. -/
def ticks : Nat → State → Result
  | 0, s => .next s
  | n + 1, s => andThen (tick s) (ticks n)

/-- The request the CPU drives in step S1 of its next tick, if any: one entry of the bus trace that
60_exceptions.md R289 lets a model expose. -/
def nextRequest (s : State) : Option Pins :=
  if (cpuSetup s).cpuPins.valid then some (cpuSetup s).cpuPins else none

end Sys2Proof.Machine
end

