-- ==== Sys2Proof/Machine/Dispatch.lean ====
section
/-! DEFINITION. The dispatch of an instruction to its meaning, one arm per constructor. `exec i s` is what
`i` does from the moment Decode has latched its fields (40_cycle.md R168): its Execute ticks, or, for an
unassigned number, the halt that ends its Decode tick (46_reserved.md R264). -/

namespace Sys2Proof.Machine

def exec (i : Instr) (s : State) : Host.Outcome State Fault Refusal :=
  match i with
  | .halt => Sys2Proof.Machine.execHalt s
  | .nop => Sys2Proof.Machine.execNop s
  | .movDD rx ry => Sys2Proof.Machine.execMovDD rx ry s
  | .movDLI rx ry => Sys2Proof.Machine.execMovDLI rx ry s
  | .movDUI rx ry => Sys2Proof.Machine.execMovDUI rx ry s
  | .movDWI rx ry => Sys2Proof.Machine.execMovDWI rx ry s
  | .movII rx ry => Sys2Proof.Machine.execMovII rx ry s
  | .movIDL rx ry => Sys2Proof.Machine.execMovIDL rx ry s
  | .movIDU rx ry => Sys2Proof.Machine.execMovIDU rx ry s
  | .movIWD rx ry => Sys2Proof.Machine.execMovIWD rx ry s
  | .ldi rl imm => Sys2Proof.Machine.execLdi rl imm s
  | .ldu rl imm => Sys2Proof.Machine.execLdu rl imm s
  | .ldo rl imm => Sys2Proof.Machine.execLdo rl imm s
  | .inc rx => Sys2Proof.Machine.execInc rx s
  | .dec rx => Sys2Proof.Machine.execDec rx s
  | .jz mode rx ry => Sys2Proof.Machine.execJz mode rx ry s
  | .jnz mode rx ry => Sys2Proof.Machine.execJnz mode rx ry s
  | .jmp rx => Sys2Proof.Machine.execJmp rx s
  | .call rx => Sys2Proof.Machine.execCall rx s
  | .ret => Sys2Proof.Machine.execRet s
  | .push rx => Sys2Proof.Machine.execPush rx s
  | .pop rx => Sys2Proof.Machine.execPop rx s
  | .add mode rx ry => Sys2Proof.Machine.execAdd mode rx ry s
  | .sub mode rx ry => Sys2Proof.Machine.execSub mode rx ry s
  | .and mode rx ry => Sys2Proof.Machine.execAnd mode rx ry s
  | .or mode rx ry => Sys2Proof.Machine.execOr mode rx ry s
  | .xor mode rx ry => Sys2Proof.Machine.execXor mode rx ry s
  | .not rx => Sys2Proof.Machine.execNot rx s
  | .shl mode rx ry => Sys2Proof.Machine.execShl mode rx ry s
  | .shr mode rx ry => Sys2Proof.Machine.execShr mode rx ry s
  | .unassigned17 => Sys2Proof.Machine.execUnassigned17 s
  | .unassigned18 => Sys2Proof.Machine.execUnassigned18 s
  | .unassigned19 => Sys2Proof.Machine.execUnassigned19 s
  | .unassigned1A => Sys2Proof.Machine.execUnassigned1A s
  | .unassigned1B => Sys2Proof.Machine.execUnassigned1B s
  | .unassigned1C => Sys2Proof.Machine.execUnassigned1C s
  | .unassigned1D => Sys2Proof.Machine.execUnassigned1D s
  | .unassigned1E => Sys2Proof.Machine.execUnassigned1E s
  | .unassigned1F => Sys2Proof.Machine.execUnassigned1F s

end Sys2Proof.Machine
end

