-- ==== Sys2Proof/Machine/Advance.lean ====
section
/-! DEFINITION. What one step does from each CPU state (40_cycle.md R175): a whole instruction from
Fetch, the rest of one from Decode or Execute. A read of address 0 is never answered (R171): the step
then ends after the unanswered tick, in Fetch or in Execute, and the next step repeats the read. -/

namespace Sys2Proof.Machine

/-- Run the latched instruction. -/
def runLatched (s : State) : Result := exec s.dec.instr s

/-- Decode the word in the IR and run its instruction. -/
def decodeAndRun (s : State) : Result := andThen (decodePhase s) runLatched

/-- Fetch at the PC, then decode and run; an unanswered fetch leaves the CPU in Fetch (R165). -/
def fetchAndRun (s : State) : Result :=
  andThen (fetchTick s) fun t => if t.cpuState = .decode then decodeAndRun t else .next t

/-- From the CPU's state to the next instruction boundary, the halt, or the end of an unanswered tick. A
halted CPU changes nothing but its pins' `valid`, which is already false once it has halted (R172). -/
def advance (s : State) : Result :=
  match s.cpuState with
  | .fetch => fetchAndRun s
  | .decode => decodeAndRun s
  | .execute => runLatched s
  | .halted => tick s

/-- The two bytes of the word `w` stored where the next fetch reads them, at the PC, with the CPU in
Fetch. -/
def placeWord (s : State) (w : Nat) : State :=
  { s.writeWord s.pc.toNat (BitVec.ofNat 16 w) with cpuState := .fetch, pending := false }

end Sys2Proof.Machine
end

