-- ==== Sys2Proof/Machine/Step.lean ====
section
/-! DEFINITION. The step of the machine, by instructions (40_cycle.md R175). -/

namespace Sys2Proof.Machine

/-- One step: one instruction, or one further tick of a read that is never answered (R171). -/
def step (s : State) : Host.Outcome State Fault Refusal := advance s

/-- `s` with the word `w` stored at the PC, where the next fetch reads it. Instructions are one word, so
`nbits` is 16 and the bits of `w` above `nbits` are zero. -/
def State.withFetchWord (s : State) (nbits w : Nat) : State := placeWord s (w % 2 ^ nbits)

end Sys2Proof.Machine
end

