-- ==== Sys2Proof/Machine/Lexer.lean ====
section
/-! DEFINITION. The assembler's lexer (31_assembler.md R120 to R127): source text to a flat sequence of
typed tokens. The assembler is software that runs before the machine does; nothing here is machine
state. -/

namespace Sys2Proof.Asm

/-- The token kinds (R121). -/
inductive TokenKind
  | opcode
  | registerDirect
  | registerIndirect
  | immediateDecimal
  | immediateHex
  | immediateAsciiRun
  | labelImmediate
  | labelDefinition
  | identifier
deriving DecidableEq, Repr

/-- A token (R120): its kind and its text with the marker stripped; an ascii run's text is that after
escape processing (R122). -/
structure Token where
  kind : TokenKind
  value : List Char
deriving DecidableEq, Repr

/-- The assembler's errors: the five classes of R145, and the encode-time errors it adds. Each names the
token, text or label at fault. -/
inductive AsmError
  /-- R133, R145. -/
  | unexpectedInDataSection (t : Token)
  /-- R131 item 4, R145. -/
  | dataWithoutLabel (t : Token)
  /-- R131 item 4, R145. -/
  | unexpectedInInstructionSection (t : Token)
  /-- R145: an identifier or an ascii run in an operand list. -/
  | unsupportedOperand (t : Token)
  /-- R135. -/
  | undefinedLabel (name : List Char)
  /-- R134. -/
  | duplicateLabel (name : List Char)
  /-- R123: a backslash pair other than the two escapes. -/
  | badEscape (run : List Char)
  /-- R123: a character outside 0x20 to 0x7E. -/
  | notPrintable (c : Char)
  /-- R127. -/
  | unknownRegister (name : List Char)
  /-- R140, R141: wrong number or kinds of operands for the keyword. -/
  | operandForm (keyword : List Char)
  /-- R140, R108: LDI, LDU, LDO name R0 to R7 only. -/
  | notLowRegister (name : List Char)
  /-- R142: the label is behind the instruction or more than 255 bytes ahead. -/
  | labelOutOfRange (offset : Int)
  /-- R143: not a numeral of the base its marker names. -/
  | badLiteral (text : List Char)
  /-- R143, R108: above 255. -/
  | immediateOutOfRange (v : Nat)
deriving DecidableEq, Repr

/-- The mnemonic keywords (R126). `movl` and `movu` are spellings of MOV (R141). -/
inductive Keyword
  | halt | nop | mov | movl | movu | ldi | ldu | ldo | inc | dec | jz | jnz | jmp | call | ret | push | pop
  | add | sub | and | or | xor | not | shl | shr
deriving DecidableEq, Repr

/-- The keyword set (R126), lower case. -/
def keywordTable : List (String × Keyword) :=
  [("halt", .halt), ("nop", .nop), ("mov", .mov), ("movl", .movl), ("movu", .movu), ("ldi", .ldi),
   ("ldu", .ldu), ("ldo", .ldo), ("inc", .inc), ("dec", .dec), ("jz", .jz), ("jnz", .jnz), ("jmp", .jmp),
   ("call", .call), ("ret", .ret), ("push", .push), ("pop", .pop), ("add", .add), ("sub", .sub),
   ("and", .and), ("or", .or), ("xor", .xor), ("not", .not), ("shl", .shl), ("shr", .shr)]

/-- The first entry of a table whose text is exactly `w` (R126: exact, case-sensitive). -/
def lookupText {α : Type} (table : List (String × α)) (w : List Char) : Option α :=
  match table with
  | [] => none
  | (k, v) :: rest => if k.toList = w then some v else lookupText rest w

/-- The keyword a token spells, if any (R126). -/
def keywordOf (w : List Char) : Option Keyword := lookupText keywordTable w

/-- The lines of a text (R120). -/
def splitLines : List Char → List (List Char)
  | [] => [[]]
  | c :: cs =>
    if c = '\n' then [] :: splitLines cs
    else match splitLines cs with
      | [] => [[c]]
      | l :: ls => (c :: l) :: ls

/-- A piece of a line before classification: an ordinary word, or the raw text of an ascii run. -/
inductive Piece
  | word (cs : List Char)
  | run (cs : List Char)
deriving DecidableEq, Repr

/-- White space and commas separate tokens (R120). A carriage return counts as white space; DEDUCED,
notes/assumptions/14.md. -/
def isSeparator (c : Char) : Bool := c == ' ' || c == '\t' || c == '\r' || c == ','

/-- The word collected so far, if any (its characters stand in reverse order). -/
def emitWord (acc : List Char) : List Piece := if acc = [] then [] else [.word acc.reverse]

/-- The pieces of one line (R120, R122). `inRun` says that the scan stands inside an ascii run; `acc` is
the text collected so far, reversed. A run opens at `#'` wherever it stands outside a comment (DEDUCED,
notes/assumptions/12.md) and closes at the next quote or at the end of the line. Text that stands directly
after the closing quote is read as a new token (DESIGN CHOICE, notes/assumptions/17.md). A comment runs to
the end of the line. -/
def scanLine (inRun : Bool) (acc : List Char) : List Char → List Piece
  | [] => if inRun then [.run acc.reverse] else emitWord acc
  | c :: cs =>
    if inRun then
      if c = '\'' then .run acc.reverse :: scanLine false [] cs
      else scanLine true (c :: acc) cs
    else if c = ';' then emitWord acc
    else if isSeparator c then emitWord acc ++ scanLine false [] cs
    else if c = '\'' ∧ acc.head? = some '#' then emitWord acc.tail ++ scanLine true [] cs
    else scanLine false (c :: acc) cs

/-- Escapes inside an ascii run (R123): `\n` is the byte `NEWLINE`, two backslashes are one; every other
character is printable ASCII and stands for its own code. A backslash that ends the run is an error too;
DEDUCED, notes/assumptions/13.md. -/
def unescape : List Char → Except AsmError (List Char)
  | [] => .ok []
  | '\\' :: 'n' :: cs =>
    match unescape cs with
    | .ok r => .ok (Char.ofNat Config.newline.toNat :: r)
    | .error e => .error e
  | '\\' :: '\\' :: cs =>
    match unescape cs with
    | .ok r => .ok ('\\' :: r)
    | .error e => .error e
  | c :: cs =>
    if c = '\\' then .error (.badEscape (c :: cs))
    else if 0x20 ≤ c.toNat ∧ c.toNat ≤ 0x7E then
      match unescape cs with
      | .ok r => .ok (c :: r)
      | .error e => .error e
    else .error (.notPrintable c)

/-- The classification of R124 after its first test (the trailing colon). -/
def classifyPlain (w : List Char) : Token :=
  match w with
  | '$' :: v => ⟨.registerDirect, v⟩
  | '@' :: v => ⟨.registerIndirect, v⟩
  | '#' :: 'd' :: v => ⟨.immediateDecimal, v⟩
  | '#' :: 'x' :: v => ⟨.immediateHex, v⟩
  | '=' :: v => ⟨.labelImmediate, v⟩
  | w => if (keywordOf w).isSome then ⟨.opcode, w⟩ else ⟨.identifier, w⟩

/-- The classification of a token that is not an ascii run, in the order of R124. -/
def classify (w : List Char) : Token :=
  if w.getLast? = some ':' then ⟨.labelDefinition, w.dropLast⟩ else classifyPlain w

/-- A piece as a token (R122, R124). No numeral is validated here (R125). -/
def tokenOf : Piece → Except AsmError Token
  | .word w => .ok (classify w)
  | .run cs =>
    match unescape cs with
    | .ok v => .ok ⟨.immediateAsciiRun, v⟩
    | .error e => .error e

/-- Apply `f` along a list, stopping at the first error. -/
def mapE {α β : Type} (f : α → Except AsmError β) : List α → Except AsmError (List β)
  | [] => .ok []
  | a :: as =>
    match f a with
    | .error e => .error e
    | .ok b =>
      match mapE f as with
      | .error e => .error e
      | .ok bs => .ok (b :: bs)

/-- The lexer (R120): line structure does not survive. -/
def lex (src : List Char) : Except AsmError (List Token) :=
  mapE tokenOf ((splitLines src).flatMap (scanLine false []))

end Sys2Proof.Asm
end

