-- ==== Sys2Proof/Machine/Assembler.lean ====
section
/-! DEFINITION. The two-pass assembler (31_assembler.md R130 to R146): addresses and labels, label
resolution, operands to fields, and the image. -/

namespace Sys2Proof.Asm

/-! ### First pass -/

/-- An instruction of the source (R130): its address, its keyword, its operand tokens. -/
structure SrcInstr where
  address : Nat
  opcode : List Char
  operands : List Token
deriving DecidableEq, Repr

/-- The data item (R130, R133). -/
structure DataItem where
  label : List Char
  rawBytes : List Byte
  address : Nat
deriving DecidableEq, Repr

/-- The state of the first pass (R130): the address counter in bytes, the finished instructions, the one
whose operands are being read, the data item once the data section is entered, and the symbol table. -/
structure Pass where
  base : Nat
  counter : Nat
  finished : List SrcInstr
  current : Option SrcInstr
  data : Option DataItem
  symbols : List (List Char × Nat)
deriving DecidableEq, Repr

/-- The start of the first pass (R130): instruction mode, the counter at 0. -/
def Pass.start (base : Nat) : Pass :=
  { base := base, counter := 0, finished := [], current := none, data := none, symbols := [] }

/-- All instructions read so far, the open one last. -/
def Pass.instrs (p : Pass) : List SrcInstr := p.finished ++ p.current.toList

/-- The address recorded for a label (R135). -/
def lookupLabel (symbols : List (List Char × Nat)) (name : List Char) : Option Nat :=
  match symbols with
  | [] => none
  | (n, a) :: rest => if n = name then some a else lookupLabel rest name

/-- The byte of a character of an ascii run: its code (R123). -/
def charByte (c : Char) : Byte := BitVec.ofNat 8 c.toNat

/-- Data-section mode (R133): ascii runs append to the item, anything else is an error. -/
def passData (d : DataItem) (t : Token) (p : Pass) : Except AsmError Pass :=
  if t.kind = .immediateAsciiRun then
    .ok { p with
      data := some { d with rawBytes := d.rawBytes ++ t.value.map charByte }
      counter := p.counter + t.value.length }
  else .error (.unexpectedInDataSection t)

/-- A label definition (R131 items 1 and 2, R134): it records `PROGRAM_BASE` plus the counter, ends the
open instruction's operand list, and, when an ascii run follows at once, enters the data section. -/
def passLabel (next : Option Token) (t : Token) (p : Pass) : Except AsmError Pass :=
  match lookupLabel p.symbols t.value with
  | some _ => .error (.duplicateLabel t.value)
  | none =>
    .ok { p with
      finished := p.instrs
      current := none
      symbols := (t.value, p.base + p.counter) :: p.symbols
      data :=
        if next.map Token.kind = some .immediateAsciiRun then
          some { label := t.value, rawBytes := [], address := p.base + p.counter }
        else none }

/-- An opcode token (R131 item 3, R132): a new instruction at the counter, which advances by one
instruction slot of `WORD_BYTES`. -/
def passOpcode (t : Token) (p : Pass) : Pass :=
  { p with
    finished := p.instrs
    current := some { address := p.base + p.counter, opcode := t.value, operands := [] }
    counter := p.counter + Config.wordBytes }

/-- Any other token in instruction mode: an operand of the open instruction (R131 item 3), or a parse
error (R131 item 4). -/
def passOperand (t : Token) (p : Pass) : Except AsmError Pass :=
  match p.current with
  | some i => .ok { p with current := some { i with operands := i.operands ++ [t] } }
  | none =>
    if t.kind = .immediateAsciiRun then .error (.dataWithoutLabel t)
    else .error (.unexpectedInInstructionSection t)

/-- One token of the first pass; `next` is the token after it (R131, R133). -/
def passToken (next : Option Token) (t : Token) (p : Pass) : Except AsmError Pass :=
  match p.data with
  | some d => passData d t p
  | none =>
    match t.kind with
    | .labelDefinition => passLabel next t p
    | .opcode => .ok (passOpcode t p)
    | .registerDirect | .registerIndirect | .immediateDecimal | .immediateHex | .immediateAsciiRun
    | .labelImmediate | .identifier => passOperand t p

/-- The first pass: "single left-to-right scan over tokens" (R130). -/
def firstPass : List Token → Pass → Except AsmError Pass
  | [], p => .ok p
  | t :: ts, p =>
    match passToken ts.head? t p with
    | .error e => .error e
    | .ok p' => firstPass ts p'

/-! ### Second pass -/

/-- An operand after label resolution. -/
inductive Operand
  | direct (name : List Char)
  | indirect (name : List Char)
  | decimal (text : List Char)
  | hex (text : List Char)
  | address (a : Nat)
deriving DecidableEq, Repr

/-- R135: a label-immediate becomes the address recorded for its label; an identifier, an ascii run or a
label definition is no operand (R145). -/
def resolveOperand (symbols : List (List Char × Nat)) (t : Token) : Except AsmError Operand :=
  match t.kind with
  | .registerDirect => .ok (.direct t.value)
  | .registerIndirect => .ok (.indirect t.value)
  | .immediateDecimal => .ok (.decimal t.value)
  | .immediateHex => .ok (.hex t.value)
  | .labelImmediate =>
    match lookupLabel symbols t.value with
    | some a => .ok (.address a)
    | none => .error (.undefinedLabel t.value)
  | .opcode | .immediateAsciiRun | .labelDefinition | .identifier => .error (.unsupportedOperand t)

/-! ### From operands to fields -/

/-- The register names (R127). -/
def registerTable : List (String × RegIdx) :=
  [("r0", 0), ("r1", 1), ("r2", 2), ("r3", 3), ("r4", 4), ("r5", 5), ("r6", 6), ("r7", 7), ("r8", 8),
   ("r9", 9), ("r10", 10), ("r11", 11), ("r12", 12), ("r13", 13), ("r14", 14), ("r15", 15),
   ("ir", Config.idxIR), ("pc", Config.idxPC), ("sp", Config.idxSP), ("flags", Config.idxFLAGS)]

/-- The register of a name (R127). -/
def registerOf (name : List Char) : Except AsmError RegIdx :=
  match lookupText registerTable name with
  | some r => .ok r
  | none => .error (.unknownRegister name)

/-- The RL field of a register name: R0 to R7 only (R140, 30_encoding.md R108). -/
def lowRegisterOf (name : List Char) : Except AsmError (BitVec 3) :=
  match registerOf name with
  | .error e => .error e
  | .ok r => if r.toNat < 8 then .ok (BitVec.ofNat 3 r.toNat) else .error (.notLowRegister name)

/-- The value of a decimal digit (R143). -/
def decDigit (c : Char) : Option Nat :=
  if '0'.toNat ≤ c.toNat ∧ c.toNat ≤ '9'.toNat then some (c.toNat - '0'.toNat) else none

/-- The value of a hexadecimal digit, either case (R143). -/
def hexDigit (c : Char) : Option Nat :=
  if '0'.toNat ≤ c.toNat ∧ c.toNat ≤ '9'.toNat then some (c.toNat - '0'.toNat)
  else if 'a'.toNat ≤ c.toNat ∧ c.toNat ≤ 'f'.toNat then some (c.toNat - 'a'.toNat + 10)
  else if 'A'.toNat ≤ c.toNat ∧ c.toNat ≤ 'F'.toNat then some (c.toNat - 'A'.toNat + 10)
  else none

/-- The digits of a numeral read in `radix` from the value `acc` on. -/
def numeralFrom (digit : Char → Option Nat) (radix acc : Nat) : List Char → Option Nat
  | [] => some acc
  | c :: cs =>
    match digit c with
    | some d => numeralFrom digit radix (acc * radix + d) cs
    | none => none

/-- A numeral of one or more digits (R143). -/
def numeral (digit : Char → Option Nat) (radix : Nat) (text : List Char) : Option Nat :=
  if text = [] then none else numeralFrom digit radix 0 text

/-- R143, R108: the 8-bit immediate of a numeral, 0 to 255. -/
def immediateOf (digit : Char → Option Nat) (radix : Nat) (text : List Char) : Except AsmError Byte :=
  match numeral digit radix text with
  | none => .error (.badLiteral text)
  | some v => if v < 256 then .ok (BitVec.ofNat 8 v) else .error (.immediateOutOfRange v)

/-- R142: LDO's immediate for the label address `target`, relative to the instruction's own address. -/
def labelOffset (own target : Nat) : Except AsmError Byte :=
  if own ≤ target ∧ target - own < 256 then .ok (BitVec.ofNat 8 (target - own))
  else .error (.labelOutOfRange ((target : Int) - (own : Int)))

/-- Build an instruction from two results, the first error first. -/
def build2 {α β : Type} (a : Except AsmError α) (b : Except AsmError β) (mk : α → β → Instr) :
    Except AsmError Instr :=
  match a, b with
  | .error e, _ => .error e
  | .ok _, .error e => .error e
  | .ok x, .ok y => .ok (mk x y)

/-- Build an instruction from one result. -/
def build1 {α : Type} (a : Except AsmError α) (mk : α → Instr) : Except AsmError Instr :=
  match a with
  | .error e => .error e
  | .ok x => .ok (mk x)

/-- Format N: no operands (R140). -/
def formN (kw : List Char) (i : Instr) (ops : List Operand) : Except AsmError Instr :=
  if ops = [] then .ok i else .error (.operandForm kw)

/-- Format R: one register-direct operand (R140). -/
def formR (kw : List Char) (mk : RegIdx → Instr) (ops : List Operand) : Except AsmError Instr :=
  match ops with
  | [.direct a] => build1 (registerOf a) mk
  | _ => .error (.operandForm kw)

/-- Format RR of JZ, JNZ and the reserved opcodes: two register-direct operands, mode 0 (R140). -/
def formRR (kw : List Char) (mk : BitVec 3 → RegIdx → RegIdx → Instr) (ops : List Operand) :
    Except AsmError Instr :=
  match ops with
  | [.direct a, .direct b] => build2 (registerOf a) (registerOf b) (mk Config.modeDD)
  | _ => .error (.operandForm kw)

/-- Format RI with a numeric immediate (R140). -/
def formRI (kw : List Char) (mk : BitVec 3 → Byte → Instr) (ops : List Operand) : Except AsmError Instr :=
  match ops with
  | [.direct a, .decimal t] => build2 (lowRegisterOf a) (immediateOf decDigit 10 t) mk
  | [.direct a, .hex t] => build2 (lowRegisterOf a) (immediateOf hexDigit 16 t) mk
  | _ => .error (.operandForm kw)

/-- LDO: a label, or a numeric immediate (R140, R142). -/
def formLdo (kw : List Char) (own : Nat) (ops : List Operand) : Except AsmError Instr :=
  match ops with
  | [.direct a, .address t] => build2 (lowRegisterOf a) (labelOffset own t) Instr.ldo
  | ops => formRI kw Instr.ldo ops

/-- `mov` (R141): the operand kinds choose DD, DWI, II or IWD. -/
def formMov (kw : List Char) (ops : List Operand) : Except AsmError Instr :=
  match ops with
  | [.direct a, .direct b] => build2 (registerOf a) (registerOf b) Instr.movDD
  | [.direct a, .indirect b] => build2 (registerOf a) (registerOf b) Instr.movDWI
  | [.indirect a, .indirect b] => build2 (registerOf a) (registerOf b) Instr.movII
  | [.indirect a, .direct b] => build2 (registerOf a) (registerOf b) Instr.movIWD
  | _ => .error (.operandForm kw)

/-- `movl` and `movu` (R141): one direct and one indirect operand. -/
def formMovByte (kw : List Char) (load store : RegIdx → RegIdx → Instr) (ops : List Operand) :
    Except AsmError Instr :=
  match ops with
  | [.direct a, .indirect b] => build2 (registerOf a) (registerOf b) load
  | [.indirect a, .direct b] => build2 (registerOf a) (registerOf b) store
  | _ => .error (.operandForm kw)

/-- The instruction of a keyword at the address `own` with the operands `ops` (R140). `kw` is the
keyword's text, for the errors. -/
def instrOf (k : Keyword) (kw : List Char) (own : Nat) (ops : List Operand) : Except AsmError Instr :=
  match k with
  | .halt => formN kw .halt ops
  | .nop => formN kw .nop ops
  | .ret => formN kw .ret ops
  | .mov => formMov kw ops
  | .movl => formMovByte kw .movDLI .movIDL ops
  | .movu => formMovByte kw .movDUI .movIDU ops
  | .ldi => formRI kw .ldi ops
  | .ldu => formRI kw .ldu ops
  | .ldo => formLdo kw own ops
  | .inc => formR kw .inc ops
  | .dec => formR kw .dec ops
  | .jmp => formR kw .jmp ops
  | .call => formR kw .call ops
  | .push => formR kw .push ops
  | .pop => formR kw .pop ops
  | .not => formR kw .not ops
  | .jz => formRR kw .jz ops
  | .jnz => formRR kw .jnz ops
  | .add => formRR kw .add ops
  | .sub => formRR kw .sub ops
  | .and => formRR kw .and ops
  | .or => formRR kw .or ops
  | .xor => formRR kw .xor ops
  | .shl => formRR kw .shl ops
  | .shr => formRR kw .shr ops

/-- The second pass on one instruction: resolve its labels (R135), then form the fields (R140). -/
def assembleInstr (symbols : List (List Char × Nat)) (i : SrcInstr) : Except AsmError Instr :=
  match mapE (resolveOperand symbols) i.operands with
  | .error e => .error e
  | .ok ops =>
    match keywordOf i.opcode with
    | some k => instrOf k i.opcode i.address ops
    | none => .error (.operandForm i.opcode)

/-! ### The image -/

/-- The data bytes of a pass (R133). -/
def Pass.dataBytes (p : Pass) : List Byte :=
  match p.data with
  | some d => d.rawBytes
  | none => []

/-- The image (R146): every instruction's word, low byte first, then the data. All instructions precede
all data and leave no gap, so each stands at its address minus `PROGRAM_BASE`. -/
def imageOf (is : List Instr) (bytes : List Byte) : List Byte := is.flatMap encodeBytes ++ bytes

/-- The instructions of a source text, and its data bytes. -/
def assembleParts (base : Nat) (src : List Char) : Except AsmError (List Instr × List Byte) :=
  match lex src with
  | .error e => .error e
  | .ok toks =>
    match firstPass toks (Pass.start base) with
    | .error e => .error e
    | .ok p =>
      match mapE (assembleInstr p.symbols) p.instrs with
      | .error e => .error e
      | .ok is => .ok (is, p.dataBytes)

/-- The assembler (R120 to R146) with the image based at `base` (`PROGRAM_BASE`): an image, or an error
and no image (R145). -/
def assemble (base : Nat) (src : List Char) : Except AsmError (List Byte) :=
  match assembleParts base src with
  | .error e => .error e
  | .ok (is, bytes) => .ok (imageOf is bytes)

end Sys2Proof.Asm
end

