-- ==== Sys2Proof/Machine/HostPort.lean ====
section
/-! DEFINITION. What the host does to the machine outside any tick (70_reset_and_hazards.md R300, R301,
R320; 20_memory.md R78): load an image, start a run, reset the CPU. -/

namespace Sys2Proof.Machine

/-- The load operation (R78): copy the image to `PROGRAM_BASE` and up; an image that does not fit is
refused. It is no bus transaction. -/
def loadImage (img : List Byte) (s : State) : Result :=
  if s.params.programBase.toNat + img.length > Config.ramSize then .refused .imageTooLarge
  else .next { s with ram := memWriteBytes s.params.ramFill s.ram s.params.programBase.toNat img }

/-- A machine under the parameters `p` before anything is loaded: every RAM byte is `RAM_FILL`, the
console is empty, the CPU is reset (R301 steps 1 and 3). -/
def powerOn (p : Params) : State := resetCpu { State.reset with params := p }

/-- The start of a run (R301): an empty machine, the load of the image, the reset of the CPU. -/
def startRun (p : Params) (img : List Byte) : Result :=
  andThen (loadImage img (powerOn p)) fun s => .next (resetCpu s)

end Sys2Proof.Machine
end

