-- ==== Sys2Proof/Safety.lean ====
section
/-! DEFINITION. What the statements say of states: the invariant of the machine, the parts a frame keeps,
and states that agree but for timing and pins. -/

namespace Sys2Proof.Machine

/-- The machine invariant. Each clause is a rule of the spec. -/
structure State.Inv (s : State) : Prop where
  /-- The RAM's list is canonical and inside the store (20_memory.md R78, 10_state.md R36). -/
  ramWf : Memory.wf s.params.ramFill s.ram
  /-- `pending` only in Execute, for MOV in mode II (10_state.md R31). -/
  pendingOnly : s.pending = true →
    s.cpuState = .execute ∧ s.dec.op = Config.opMOV ∧ s.dec.mode = Config.modeII
  /-- The halt record is absent until the CPU enters Halted (10_state.md R34). -/
  recordIff : s.haltRecord.isSome = true ↔ s.cpuState = .halted
  /-- Execute is entered with a declared opcode only (40_cycle.md R166, 46_reserved.md R264). -/
  executeDeclared : s.cpuState = .execute → s.dec.declared = true
  /-- In Execute the latch holds the fields of the word in the IR (40_cycle.md R166). -/
  executeLatched : s.cpuState = .execute → s.dec = Fields.ofWord s.ir
  /-- A halted CPU's tick left every pin set deasserted (20_memory.md R58, R60). -/
  haltedQuiet : s.cpuState = .halted →
    s.cpuPins.valid = false ∧ s.ramPins.valid = false ∧ s.conPins.valid = false
  /-- The console's buffer never holds a zero byte or a newline (20_memory.md R72). -/
  bufferClean : ∀ c ∈ s.conBuffer, c ≠ 0 ∧ c ≠ Config.newline

/-- `t` has the registers of `s` but for entry `r`, which holds `v` (R9's `x[r] <- v`). -/
def RegsUpdated (s t : State) (r : RegIdx) (v : Word) : Prop :=
  t.reg r = v ∧ ∀ q, q ≠ r → t.reg q = s.reg q

/-- Every register of `t` is that of `s`. -/
def RegsSame (s t : State) : Prop := ∀ q, t.reg q = s.reg q

/-- Every byte of RAM reads in `t` as in `s`. -/
def RamSame (s t : State) : Prop := ∀ a, t.readByte a = s.readByte a

/-- Every byte of RAM outside `a` and `a + 1` reads in `t` as in `s`. -/
def RamSameOutsideWord (s t : State) (a : Nat) : Prop :=
  ∀ b, b ≠ a → b ≠ a + 1 → t.readByte b = s.readByte b

/-- The console of `t` is that of `s`. -/
def ConsoleSame (s t : State) : Prop := t.conBuffer = s.conBuffer ∧ t.conLines = s.conLines

/-- The control state other than `state` and `cycle`, and the parameters: latch, scratch, `pending`,
halt record. -/
def ControlSame (s t : State) : Prop :=
  t.params = s.params ∧ t.dec = s.dec ∧ t.scratch = s.scratch ∧ t.pending = s.pending ∧
    t.haltRecord = s.haltRecord

/-- No pin set of `t` carries a request or an answer: in the tick that led to `t` the bus selected neither
slave (20_memory.md R58, R60). -/
def NoPinAsserted (t : State) : Prop :=
  t.cpuPins.valid = false ∧ t.ramPins.valid = false ∧ t.conPins.valid = false

/-- `t` is `s` after one tick that finished an instruction without a bus transaction and without a halt:
back in Fetch, one tick later, no pin asserted, and RAM, console and control state as before. The
registers are said separately. -/
def QuietlyDone (s t : State) : Prop :=
  t.cpuState = .fetch ∧ t.cycle = s.cycle + 1 ∧ RamSame s t ∧ ConsoleSame s t ∧ ControlSame s t ∧
    NoPinAsserted t

/-- `t` is `s` halted with `cause` in tick `n` (60_exceptions.md R271, R272): the record, the state and
`pending`; no register, no byte of RAM, nothing of the console, the latch or the scratch register. -/
def HaltedWith (s t : State) (cause : HaltCause) (n : Nat) : Prop :=
  t.cpuState = .halted ∧ t.pending = false ∧ t.cycle = n ∧
    t.haltRecord = some { cause := cause, op := s.dec.op, mode := s.dec.mode, cycle := n } ∧
    RegsSame s t ∧ RamSame s t ∧ ConsoleSame s t ∧
    t.params = s.params ∧ t.dec = s.dec ∧ t.scratch = s.scratch

/-- `t` is `s` halted with `cause` in the setup half of its one Execute tick, in which no bus request is
made (41_noop.md R190, 46_reserved.md R250). -/
def HaltedInExecute (s t : State) (cause : HaltCause) : Prop :=
  HaltedWith s t cause (s.cycle + 1) ∧ NoPinAsserted t

/-- Every piece of the CPU's state has its value of R39 under the parameters `p` (10_state.md R39,
70_reset_and_hazards.md R300). -/
def CpuReset (p : Params) (t : State) : Prop :=
  t.cpuState = .fetch ∧ t.pc = p.programBase ∧ t.sp = p.stackTop ∧
    (∀ q, q ≠ Config.idxPC → q ≠ Config.idxSP → t.reg q = 0) ∧
    t.dec = { op := 0, mode := 0, rx := 0, ry := 0, rl := 0, imm := 0 } ∧
    t.pending = false ∧ t.scratch = 0 ∧ t.cycle = 0 ∧ t.haltRecord = none ∧ NoPinAsserted t

/-- The word address of an access that the RAM answers: not the console, and both bytes inside the store
(20_memory.md R62, R67). -/
def RamWordAddress (a : Word) : Prop := a ≠ Config.consoleAddr ∧ a.toNat + 1 < Config.ramSize

/-- The register an instruction writes, if any: RX, RL, or the PC of a conditional jump (42_move.md,
43_loadimm.md, 44_incdec.md, 45_condjump.md). -/
def destination : Instr → Option RegIdx
  | .movDD rx _ | .movDLI rx _ | .movDUI rx _ | .movDWI rx _ => some rx
  | .ldi rl _ | .ldu rl _ | .ldo rl _ => some (regOfRL rl)
  | .inc rx | .dec rx => some rx
  | .jz _ _ _ | .jnz _ _ _ => some Config.idxPC
  | .halt | .nop | .ret => none
  | .movII _ _ | .movIDL _ _ | .movIDU _ _ | .movIWD _ _ => none
  | .jmp _ | .call _ | .push _ | .pop _ | .not _ => none
  | .add _ _ _ | .sub _ _ _ | .and _ _ _ | .or _ _ _ | .xor _ _ _ | .shl _ _ _ | .shr _ _ _ => none
  | .unassigned17 | .unassigned18 | .unassigned19 | .unassigned1A | .unassigned1B => none
  | .unassigned1C | .unassigned1D | .unassigned1E | .unassigned1F => none

/-- The registers once Fetch has stored `w` in the IR and advanced the PC (40_cycle.md R164, R175). -/
def fetchedReg (s : State) (w : Word) (q : RegIdx) : Word :=
  if q = Config.idxPC then s.pc + 2 else if q = Config.idxIR then w else s.reg q

/-- The halt a word brings about, by opcode number and mode bits alone (30_encoding.md R112,
60_exceptions.md R273 to R276, R281); none for a word that executes. -/
def haltClass (p : Params) (op : BitVec 5) (mode : BitVec 3) : Option HaltCause :=
  if 0x17 ≤ op.toNat then some .unrecognizedOpcode
  else if 0x0A ≤ op.toNat then some .notImplemented
  else if op.toNat = 0x00 then some .haltInstruction
  else if op.toNat = 0x01 ∧ p.nopBehaviour = .notImplemented then some .notImplemented
  else if op.toNat = 0x02 ∧ 5 ≤ mode.toNat then some .unsupportedMode
  else if (op.toNat = 0x08 ∨ op.toNat = 0x09) ∧ mode.toNat ≠ 0 then some .unsupportedMode
  else none

/-- `s` with everything removed that only a count of ticks or the pins can show: the cycle counter, the
cycle of the halt record, and the three pin sets (70_reset_and_hazards.md R312, R316). -/
def State.untimed (s : State) : State :=
  { s with
    cycle := 0
    haltRecord := s.haltRecord.map fun r => { r with cycle := 0 }
    cpuPins := Pins.idle
    ramPins := Pins.idle
    conPins := Pins.idle }

/-- The result of a step without timing and pins. -/
def untimedResult : Result → Result
  | .next s => .next s.untimed
  | .fault e => .fault e
  | .refused e => .refused e

end Sys2Proof.Machine
end

