-- ==== Sys2Proof/Certificates/Slice0/Obligations.lean ====
section
/-! DEFINITION. The statements about the g16 machine, for the provers. Each names the rule or section of
spec/ it formalises; where a number or an operand role is a decision of 92_eei_decisions.md, the docstring
names it. -/

open Sys2Proof Sys2Proof.Machine

/-! ### Encoding -/

/-- Words written out from the encodings of 41_noop.md to 46_reserved.md decode to their instructions.
The opcode and mode numbers are decisions D1 and D3. -/
def Obligations.WordsOfTheSpecDecode : Prop :=
  decodeWord 0b0000011111111111 = .halt ∧ decodeWord 0b0000100000000000 = .nop ∧
  decodeWord 0b0001000001110110 = .movDD 7 6 ∧ decodeWord 0b0001010000000001 = .movII 0 1 ∧
  decodeWord 0b0001101000001101 = .ldi 2 0x0D ∧ decodeWord 0b0011011100011111 = .inc 1 ∧
  decodeWord 0b0100100000100011 = .jnz 0 2 3 ∧ decodeWord 0b0111100000010010 = .add 0 1 2 ∧
  decodeWord 0b1111100000000000 = .unassigned1F

/-- 30_encoding.md section 4 (round trip of `encode` and `decode`): every instruction, with every operand
at every value, decodes from its own word and from its own bytes in front of any others. -/
def Obligations.DecodeOfEncodeIsTheInstruction : Prop :=
  ∀ i : Instr, decodeWord (encode i) = i ∧
    ∀ rest : List Byte, decode (encodeBytes i ++ rest) = .ok (i, rest)

/-- 30_encoding.md sections 1 and 4 (unused bits; decision D26 for the zeros): encoding the decoded word
gives the word with its unused bits cleared, and those bits never change what a word decodes to. -/
def Obligations.EncodeOfDecodeClearsUnusedBitsOnly : Prop :=
  ∀ w : Word, encode (decodeWord w) = w &&& usedMask (decodeWord w) ∧
    decodeWord (w &&& usedMask (decodeWord w)) = decodeWord w

/-- R7: of the two arms of `extract`, the plain shift of a field that ends at the top of the word and the
shift and mask of any other, both give the word's bits `offset + width - 1 .. offset`. -/
def Obligations.ExtractArmsGiveTheFieldBits : Prop :=
  ∀ (w : Word) (o n : Nat), o + n ≤ 16 →
    (o + n = 16 → extract w o n = w.toNat >>> o) ∧
    extract w o n = (w.toNat >>> o) &&& ((1 <<< n) - 1) ∧
    ∀ k, (extract w o n).testBit k = (decide (k < n) && w.getLsbD (o + k))

/-- 00_scope.md section 4 (`pack`, derived by the spec from `extract`): `extract` is the value of the
field's bits; `pack` is the value modulo `2^width`, shifted; extracting a packed value gives it back modulo
`2^width`, and packing an extracted field gives the word's own bits of that field and zero outside. -/
def Obligations.FieldPrimitivesExtractAndPack : Prop :=
  ∀ (w : Word) (v o n : Nat), o + n ≤ 16 →
    extract w o n = w.toNat / 2 ^ o % 2 ^ n ∧
    (pack v o n).toNat = v % 2 ^ n * 2 ^ o ∧
    extract (pack v o n) o n = v % 2 ^ n ∧
    pack (extract w o n) o n = w &&& pack (2 ^ n - 1) o n

/-- 30_encoding.md section 4 (range checks; decision D28): the encoder answers a word exactly when every
field is in range, the word is the one packed from the fields, and its fields read back as given; it never
truncates. -/
def Obligations.EncoderRefusesExactlyOutOfRange : Prop :=
  (∀ op mode rx ry : Nat,
    ((∃ w, (RawInstr.rr op mode rx ry).encode = .ok w) ↔ op < 32 ∧ mode < 8 ∧ rx < 16 ∧ ry < 16) ∧
    ∀ w, (RawInstr.rr op mode rx ry).encode = .ok w →
      w = encodeRR op mode rx ry ∧ (Fields.ofWord w).op.toNat = op ∧
      (Fields.ofWord w).mode.toNat = mode ∧ (Fields.ofWord w).rx.toNat = rx ∧
      (Fields.ofWord w).ry.toNat = ry) ∧
  (∀ op rl imm : Nat,
    ((∃ w, (RawInstr.ri op rl imm).encode = .ok w) ↔ op < 32 ∧ rl < 8 ∧ imm < 256) ∧
    ∀ w, (RawInstr.ri op rl imm).encode = .ok w →
      w = encodeRI op rl imm ∧ (Fields.ofWord w).op.toNat = op ∧
      (Fields.ofWord w).rl.toNat = rl ∧ (Fields.ofWord w).imm.toNat = imm) ∧
  (∀ op rx : Nat,
    ((∃ w, (RawInstr.r op rx).encode = .ok w) ↔ op < 32 ∧ rx < 16) ∧
    ∀ w, (RawInstr.r op rx).encode = .ok w →
      w = encodeR op rx ∧ (Fields.ofWord w).op.toNat = op ∧ (Fields.ofWord w).rx.toNat = rx) ∧
  (∀ op : Nat,
    ((∃ w, (RawInstr.n op).encode = .ok w) ↔ op < 32) ∧
    ∀ w, (RawInstr.n op).encode = .ok w → w = encodeN op ∧ (Fields.ofWord w).op.toNat = op)

/-! ### Reset and invariants -/

/-- The table of 10_state.md section 6. The numbers of PC and SP are decisions D15 and D16; the zeros of
the other registers, the latch, the scratch register and the console are decision D19, the fill byte D18,
the counter D24, the record D25. -/
def Obligations.ResetLeavesTheStatesOfTheTable : Prop :=
  State.reset.cpuState = .fetch ∧ State.reset.pc = 0x0100 ∧ State.reset.sp = 0xFFFE ∧
  (∀ q : RegIdx, q ≠ Config.idxPC → q ≠ Config.idxSP → State.reset.reg q = 0) ∧
  State.reset.dec = { op := 0, mode := 0, rx := 0, ry := 0, rl := 0, imm := 0 } ∧
  State.reset.pending = false ∧ State.reset.scratch = 0 ∧ State.reset.cycle = 0 ∧
  State.reset.haltRecord = none ∧ State.reset.cpuPins.valid = false ∧
  State.reset.ramPins.valid = false ∧ State.reset.conPins.valid = false ∧
  (∀ a : Nat, State.reset.readByte a = 0x00) ∧
  State.reset.conBuffer = [] ∧ State.reset.conLines = []

/-- The state after reset meets the machine's invariant. -/
def Obligations.ResetMeetsTheInvariant : Prop := State.reset.Inv

/-- Every step keeps the invariant, from every state that meets it: the RAM stays canonical, `pending` only
in Execute of MOV II (10_state.md R31), the record exactly when halted (R34), Execute only with a declared
opcode and with the latch holding the IR's fields, a halted CPU with quiet pins, and a console buffer
without zeros and newlines. -/
def Obligations.StepKeepsTheInvariant : Prop :=
  ∀ s t : State, s.Inv → step s = .next t → t.Inv

/-- Every tick keeps the invariant too, in the middle of an instruction as well as at its ends. -/
def Obligations.TickKeepsTheInvariant : Prop :=
  ∀ s t : State, s.Inv → tick s = .next t → t.Inv

/-- 40_cycle.md section 8 (the instruction-level summary): a step is one to four whole ticks of the state
machine, with the same result, faults included. That the model steps by instructions, with the tick beside
them, is its own choice (log entry 5). -/
def Obligations.StepIsOneToFourTicks : Prop :=
  ∀ s : State, s.Inv → ∃ n : Nat, 1 ≤ n ∧ n ≤ 4 ∧ step s = ticks n s

/-! ### The cycle -/

/-- A step runs the decoded instruction: where the two bytes at the PC decode to `i`, the step is `exec i`
in the state after the Fetch and Decode ticks: IR and PC written, the latch filled, two ticks counted,
Execute entered, pins quiet, everything else as before. For an unassigned number the spec has the Decode
tick itself end Halted; that `exec` makes that halt, from a state that is still in Decode, is the model's
choice of where to split the tick (log entry 5). -/
def Obligations.StepRunsTheDecodedInstruction : Prop :=
  ∀ (s : State) (i : Instr), s.cpuState = .fetch → RamWordAddress s.pc →
    decode [s.readByte s.pc.toNat, s.readByte (s.pc.toNat + 1)] = .ok (i, []) →
    ∃ u : State, step s = exec i u ∧
      (∀ q, u.reg q = fetchedReg s (s.readWord s.pc.toNat) q) ∧
      u.dec = Fields.ofWord (s.readWord s.pc.toNat) ∧ u.dec.instr = i ∧ u.cycle = s.cycle + 2 ∧
      u.cpuState = (if i.wellFormed then .execute else .decode) ∧
      RamSame s u ∧ ConsoleSame s u ∧ u.params = s.params ∧ u.scratch = s.scratch ∧
      u.pending = s.pending ∧ u.haltRecord = s.haltRecord ∧
      u.cpuPins.valid = false ∧ u.ramPins.valid = false ∧ u.conPins.valid = false

/-- 40_cycle.md section 3, the Fetch tick: it requests a read at the PC; where the RAM answers, the word at the PC goes to the
IR, the PC advances by one word width modulo 2^16 and Decode follows. Without an answer, which is at the
console's address, nothing is written and the same request is made again; a word access at 0xFFFF is the
fault of 20_memory.md section 5 (decision D17). -/
def Obligations.FetchTickByAddress : Prop :=
  ∀ s : State, s.cpuState = .fetch →
    ((nextRequest s).map fun p => (p.address, p.readIntent)) = some (s.pc, true) ∧
    (RamWordAddress s.pc → ∃ t, tick s = .next t ∧ t.cpuState = .decode ∧
      (∀ q, t.reg q = fetchedReg s (s.readWord s.pc.toNat) q) ∧ t.cycle = s.cycle + 1 ∧
      RamSame s t ∧ ConsoleSame s t ∧ ControlSame s t) ∧
    (s.pc = 0x0000 → ∃ t, tick s = .next t ∧ t.cpuState = .fetch ∧ RegsSame s t ∧
      t.cycle = s.cycle + 1 ∧ RamSame s t ∧ ConsoleSame s t ∧ ControlSame s t ∧
      ((nextRequest t).map fun p => (p.address, p.readIntent)) = some (0x0000, true)) ∧
    (s.pc = 0xFFFF → tick s = .fault .busOutOfRange)

/-- 30_encoding.md R112 with 60_exceptions.md section 2: a step from Fetch on any word halts exactly when
the word's opcode and mode put it in a halting class, with that class's cause, the latched opcode and mode
bits and the number of the tick (two ticks for an unassigned number, three otherwise), with no register but
PC and IR, no RAM byte, nothing of the console and not the scratch register changed, and with no bus
request in the halting tick. -/
def Obligations.EveryWordHaltsByItsClassOrNotAtAll : Prop :=
  ∀ (s : State) (w : Word), s.cpuState = .fetch → RamWordAddress s.pc →
    s.readWord s.pc.toNat = w →
    (∀ c, haltClass s.params (field w 11 5) (field w 8 3) = some c →
      ∃ t n, step s = .next t ∧ n = s.cycle + (if c = .unrecognizedOpcode then 2 else 3) ∧
        t.cpuState = .halted ∧ t.cycle = n ∧
        t.haltRecord = some { cause := c, op := field w 11 5, mode := field w 8 3, cycle := n } ∧
        (∀ q, t.reg q = fetchedReg s w q) ∧ RamSame s t ∧ ConsoleSame s t ∧
        t.params = s.params ∧ t.scratch = s.scratch ∧ NoPinAsserted t) ∧
    (haltClass s.params (field w 11 5) (field w 8 3) = none →
      ∀ t, step s = .next t → t.cpuState ≠ .halted ∧ t.haltRecord = s.haltRecord)

/-- 70_reset_and_hazards.md section 4 (ticks per instruction): an instruction that finishes has taken three
ticks, four for MOV II. That a step whose read is unanswered ends after that tick, in Execute with three
ticks counted, is the model's choice (log entry 3): the spec gives such a read no bound of ticks. -/
def Obligations.TicksPerInstruction : Prop :=
  ∀ (s t : State) (w : Word), s.cpuState = .fetch → s.pending = false → RamWordAddress s.pc →
    s.readWord s.pc.toNat = w → step s = .next t →
    (t.cpuState = .fetch →
      t.cycle = s.cycle + (if field w 11 5 = Config.opMOV ∧ field w 8 3 = Config.modeII then 4 else 3)) ∧
    (t.cpuState = .execute →
      t.cycle = s.cycle + 3 ∧ fetchedReg s w (field w 0 4) = Config.consoleAddr)

/-- 40_cycle.md section 6: Halted is terminal: under the invariant neither a tick nor a step of a halted CPU changes any
state at all and none drives a request; reset leads out of it, to Fetch. -/
def Obligations.HaltedIsTerminal : Prop :=
  ∀ s : State, s.Inv → s.cpuState = .halted →
    tick s = .next s ∧ step s = .next s ∧ nextRequest s = none ∧ (resetCpu s).cpuState = .fetch

/-- 10_state.md section 2 and 60_exceptions.md section 1: the halt record is absent until the CPU enters
Halted; a step that halts writes it, with the latched opcode and mode bits and the tick's number (the form
of the record is decision D25, the counter D24, log entry 7); once written no step changes it; reset
removes it. -/
def Obligations.HaltRecordIsWrittenOnce : Prop :=
  ∀ s t : State, s.Inv → step s = .next t →
    (s.cpuState ≠ .halted → s.haltRecord = none) ∧
    (t.cpuState ≠ .halted → t.haltRecord = none) ∧
    (s.cpuState ≠ .halted → t.cpuState = .halted → ∃ r, t.haltRecord = some r ∧ r.op = t.dec.op ∧
      r.mode = t.dec.mode ∧ r.cycle = t.cycle) ∧
    (∀ r, s.haltRecord = some r → t.haltRecord = some r) ∧ (resetCpu t).haltRecord = none

/-- 10_state.md sections 2 and 5 (the cycle counter, decision D24; the parameters), 40_cycle.md section 8 and
70_reset_and_hazards.md section 4 (ticks per instruction): a step never changes the parameters, counts at
least one tick of a running CPU and at most four, and none of a halted one. That a step is an instruction,
or ends after the one tick of an unanswered read, is the model's choice of granularity (log entries 5 and
3): the spec gives such a read no bound of ticks. -/
def Obligations.StepCountsTicksAndKeepsParameters : Prop :=
  ∀ s t : State, step s = .next t →
    t.params = s.params ∧
    (s.cpuState = .halted → t.cycle = s.cycle) ∧
    (s.cpuState = .decode ∨ s.cpuState = .fetch → s.cycle < t.cycle ∧ t.cycle ≤ s.cycle + 4) ∧
    (s.cpuState = .execute → s.dec.declared = true → s.cycle < t.cycle ∧ t.cycle ≤ s.cycle + 2)

/-- 40_cycle.md section 5 (the unanswered read, decisions D21 and D23): a CPU in Fetch with PC 0x0000 stays
there for any number of ticks, counting each, with no register, RAM byte or halt record changed. -/
def Obligations.FetchAtTheConsoleHangs : Prop :=
  ∀ (n : Nat) (s : State), s.cpuState = .fetch → s.pc = 0x0000 →
    ∃ t, ticks n s = .next t ∧ t.cpuState = .fetch ∧ t.cycle = s.cycle + n ∧ RegsSame s t ∧
      RamSame s t ∧ ConsoleSame s t ∧ t.haltRecord = s.haltRecord

/-- The same of a CPU that waits in Execute on a load or on the read of MOV II whose address is 0x0000. -/
def Obligations.ExecuteOnTheConsoleHangs : Prop :=
  ∀ (n : Nat) (s : State) (rx ry : RegIdx), s.cpuState = .execute → s.pending = false →
    s.dec.instr = .movDLI rx ry ∨ s.dec.instr = .movDUI rx ry ∨ s.dec.instr = .movDWI rx ry ∨
      s.dec.instr = .movII rx ry →
    s.reg ry = 0x0000 →
    ∃ t, ticks n s = .next t ∧ t.cpuState = .execute ∧ t.pending = false ∧ t.dec = s.dec ∧
      t.cycle = s.cycle + n ∧ RegsSame s t ∧ RamSame s t ∧ ConsoleSame s t ∧
      t.haltRecord = s.haltRecord

/-- 70_reset_and_hazards.md sections 3 and 4 (pins do not persist, timing is not architectural): two states
that agree but for pins and tick counts step to results that agree but for pins and tick counts. -/
def Obligations.PinsAndTickCountsDoNotInfluence : Prop :=
  ∀ s s' : State, s.untimed = s'.untimed → untimedResult (step s) = untimedResult (step s')

/-! ### The bus -/

/-- 20_memory.md section 3, bus setup: a valid request goes, with its address, data and intent and with validity asserted, to the
console's pins when it is at the console's address and to the RAM's pins otherwise; without a request both
are deasserted. The pin set that is not selected is deasserted too (decision D22). Nothing but the two pin
sets changes. -/
def Obligations.BusSetupRoutesByAddress : Prop :=
  ∀ s : State,
    (s.cpuPins.valid = true → s.cpuPins.address = Config.consoleAddr →
      (busSetup s).conPins = s.cpuPins ∧ (busSetup s).ramPins.valid = false) ∧
    (s.cpuPins.valid = true → s.cpuPins.address ≠ Config.consoleAddr →
      (busSetup s).ramPins = s.cpuPins ∧ (busSetup s).conPins.valid = false) ∧
    (s.cpuPins.valid = false →
      (busSetup s).ramPins.valid = false ∧ (busSetup s).conPins.valid = false) ∧
    busSetup s = { s with ramPins := (busSetup s).ramPins, conPins := (busSetup s).conPins }

/-- R59, the RAM process: on a valid transaction, a read puts the little-endian word at the address on the
RAM's data lines and changes no byte; a write stores the data's low byte at the address and its high byte
at the next, changes no other byte and keeps the RAM's canonical form. Without one it does nothing. -/
def Obligations.RamProcessReadsOrWritesAWord : Prop :=
  ∀ s : State,
    (s.ramPins.valid = false → ramProcess s = .next s) ∧
    (Memory.wf s.params.ramFill s.ram → s.ramPins.valid = true →
      s.ramPins.address.toNat + 1 < Config.ramSize →
      ∃ t, ramProcess s = .next t ∧ Memory.wf t.params.ramFill t.ram ∧
        t = { s with ram := t.ram, ramPins := t.ramPins } ∧
        (s.ramPins.readIntent = true →
          t.ramPins = { s.ramPins with
            data := joinBytes (s.readByte (s.ramPins.address.toNat + 1))
              (s.readByte s.ramPins.address.toNat) } ∧ RamSame s t) ∧
        (s.ramPins.readIntent = false →
          t.ramPins = s.ramPins ∧
          t.readByte s.ramPins.address.toNat = lowByte s.ramPins.data ∧
          t.readByte (s.ramPins.address.toNat + 1) = highByte s.ramPins.data ∧
          RamSameOutsideWord s t s.ramPins.address.toNat))

/-- 20_memory.md section 6, the console process: on a valid transaction that hands it a character, the low byte of the data is
that character: a newline byte (0x0A, decision D32) flushes the buffer as one line and resets it, any other
byte but zero is appended, a zero byte does nothing; and nothing but the console changes. Without such a
transaction it does nothing. -/
def Obligations.ConsoleKeepsItsContract : Prop :=
  ∀ s : State,
    (s.conPins.valid = false ∨ s.conPins.readIntent = true → consoleProcess s = s) ∧
    (s.conPins.valid = true → s.conPins.readIntent = false →
      (lowByte s.conPins.data = 0x0A → consoleProcess s =
        { s with conLines := s.conLines ++ [s.conBuffer], conBuffer := [] }) ∧
      (lowByte s.conPins.data ≠ 0x0A → lowByte s.conPins.data ≠ 0 → consoleProcess s =
        { s with conBuffer := s.conBuffer ++ [lowByte s.conPins.data] }) ∧
      (lowByte s.conPins.data = 0 → consoleProcess s = s))

/-- 20_memory.md sections 3 and 4: after a bus cycle the CPU sees a valid response exactly when it asked the
RAM for a read, and the response is the RAM's word; a write, a read of the console and the absence of a
request get none (consequences the spec derives from the bus's setup and complete steps). -/
def Obligations.OnlyRamReadsAreAnswered : Prop :=
  ∀ s t : State, busCycle s = .next t →
    (t.cpuPins.valid = true ↔
      s.cpuPins.valid = true ∧ s.cpuPins.readIntent = true ∧ s.cpuPins.address ≠ Config.consoleAddr) ∧
    (t.cpuPins.valid = true ↔ t.ramPins.valid = true ∧ t.ramPins.readIntent = true) ∧
    (t.cpuPins.valid = true → t.cpuPins.data = t.ramPins.data ∧
      t.cpuPins.data = s.readWord s.cpuPins.address.toNat)

/-- 42_move.md section 6 (bus transactions of a MOV in Execute): none for DD and the store modes; one read,
at every source address, for a load; one read, at every source address, and then one write, in two ticks,
for II. Where the RAM answers the read the instruction then leaves Execute. That RY names the source and RX
the destination is decision D5; that a store mode leaves Execute rests on its halt, decision D8. -/
def Obligations.BusTransactionsOfMov : Prop :=
  ∀ (s : State) (rx ry : RegIdx), s.cpuState = .execute →
    (s.dec.instr = .movDD rx ry →
      nextRequest s = none ∧ ∃ t, tick s = .next t ∧ t.cpuState = .fetch) ∧
    (s.dec.instr = .movDLI rx ry ∨ s.dec.instr = .movDUI rx ry ∨ s.dec.instr = .movDWI rx ry →
      (∃ p, nextRequest s = some p ∧ p.address = s.reg ry ∧ p.readIntent = true) ∧
      (RamWordAddress (s.reg ry) → ∃ t, tick s = .next t ∧ t.cpuState = .fetch)) ∧
    (s.dec.instr = .movII rx ry → s.pending = false →
      (∃ p, nextRequest s = some p ∧ p.address = s.reg ry ∧ p.readIntent = true) ∧
      (RamWordAddress (s.reg ry) →
        ∃ u, tick s = .next u ∧ u.cpuState = .execute ∧ u.pending = true ∧
          u.scratch = s.readWord (s.reg ry).toNat ∧
          nextRequest u = some { address := s.reg rx, data := s.readWord (s.reg ry).toNat,
                                 readIntent := false, valid := true } ∧
          (s.reg rx ≠ 0xFFFF → ∃ t, tick u = .next t ∧ t.cpuState = .fetch ∧ t.pending = false))) ∧
    (s.dec.instr = .movIDL rx ry ∨ s.dec.instr = .movIDU rx ry ∨ s.dec.instr = .movIWD rx ry →
      nextRequest s = none ∧ ∃ t, tick s = .next t ∧ t.cpuState ≠ .execute)

/-- 20_memory.md section 5 (range, decision D17): a load, or the read of MOV II, at 0xFFFF, and the write of
MOV II at 0xFFFF, end in the fault; there is no wrap to byte 0. -/
def Obligations.AccessAtTheTopOfTheStoreFaults : Prop :=
  ∀ (s : State) (rx ry : RegIdx), s.cpuState = .execute →
    (s.reg ry = 0xFFFF →
      exec (.movDLI rx ry) s = .fault .busOutOfRange ∧ exec (.movDUI rx ry) s = .fault .busOutOfRange ∧
      exec (.movDWI rx ry) s = .fault .busOutOfRange ∧
      (s.pending = false → exec (.movII rx ry) s = .fault .busOutOfRange)) ∧
    (s.reg rx = 0xFFFF → (s.pending = true ∨ RamWordAddress (s.reg ry)) →
      exec (.movII rx ry) s = .fault .busOutOfRange)

/-! ### Instructions -/

/-- HALT stops the CPU with cause HaltInstruction, one tick later, without a bus request, and changes nothing
else (41_noop.md; 60_exceptions.md section 1). -/
def Obligations.HaltEntersHalted : Prop :=
  ∀ s : State, ∃ t, exec .halt s = .next t ∧ HaltedInExecute s t .haltInstruction

/-- NOP has no effect (decision D12), or, under `NOP_BEHAVIOUR = not_implemented`, halts with cause
NotImplemented. -/
def Obligations.NopDoesNothingOrHalts : Prop :=
  ∀ s : State, s.cpuState = .execute →
    (s.params.nopBehaviour = .noop → ∃ t, exec .nop s = .next t ∧ QuietlyDone s t ∧ RegsSame s t) ∧
    (s.params.nopBehaviour = .notImplemented →
      ∃ t, exec .nop s = .next t ∧ HaltedInExecute s t .notImplemented)

/-- MOV DD copies RY to RX at once, with no bus transaction, for every pair of the 16 registers; a
destination of 13 is a jump (42_move.md section 2; the operand order is decision D5). -/
def Obligations.MovDDCopiesARegister : Prop :=
  ∀ (s : State) (rx ry : RegIdx), s.cpuState = .execute →
    ∃ t, exec (.movDD rx ry) s = .next t ∧ RegsUpdated s t rx (s.reg ry) ∧ QuietlyDone s t

/-- MOV DLI and DUI: the byte at the address in RY goes to the low, or the high, byte of RX (decision D9:
the byte at the address, or under `DUI_SOURCE = high` the next one); the other byte is kept, no other
register, RAM byte, console or control state changes. -/
def Obligations.ByteLoadsMergeOneByte : Prop :=
  ∀ (s : State) (rx ry : RegIdx), s.cpuState = .execute → RamWordAddress (s.reg ry) →
    (∃ t, exec (.movDLI rx ry) s = .next t ∧ t.cpuState = .fetch ∧ t.cycle = s.cycle + 1 ∧
      RegsUpdated s t rx (joinBytes (highByte (s.reg rx)) (s.readByte (s.reg ry).toNat)) ∧
      RamSame s t ∧ ConsoleSame s t ∧ ControlSame s t) ∧
    (∃ t, exec (.movDUI rx ry) s = .next t ∧ t.cpuState = .fetch ∧ t.cycle = s.cycle + 1 ∧
      RegsUpdated s t rx
        (joinBytes
          (match s.params.duiSource with
            | .low => s.readByte (s.reg ry).toNat
            | .high => s.readByte ((s.reg ry).toNat + 1))
          (lowByte (s.reg rx))) ∧
      RamSame s t ∧ ConsoleSame s t ∧ ControlSame s t)

/-- MOV DWI: RX receives the little-endian word at the address in RY, odd or even; the address is taken
before the destination is written (42_move.md section 3). -/
def Obligations.WordLoadReadsTheWord : Prop :=
  ∀ (s : State) (rx ry : RegIdx), s.cpuState = .execute → RamWordAddress (s.reg ry) →
    ∃ t, exec (.movDWI rx ry) s = .next t ∧ t.cpuState = .fetch ∧ t.cycle = s.cycle + 1 ∧
      RegsUpdated s t rx
        (joinBytes (s.readByte ((s.reg ry).toNat + 1)) (s.readByte (s.reg ry).toNat)) ∧
      RamSame s t ∧ ConsoleSame s t ∧ ControlSame s t

/-- A load, or the read tick of MOV II, at 0x0000 is never answered: one tick passes, the CPU stays in
Execute and nothing else changes (40_cycle.md section 5, decisions D21 and D23). That `exec` answers a next
state there, after the one unanswered tick, is the model's choice (log entry 3): the spec gives the
instruction no end. -/
def Obligations.ReadOfTheConsoleWaits : Prop :=
  ∀ (s : State) (rx ry : RegIdx) (i : Instr), s.cpuState = .execute → s.reg ry = 0x0000 →
    (i = .movDLI rx ry ∨ i = .movDUI rx ry ∨ i = .movDWI rx ry ∨
      (i = .movII rx ry ∧ s.pending = false)) →
    ∃ t, exec i s = .next t ∧ t.cpuState = .execute ∧ t.cycle = s.cycle + 1 ∧ RegsSame s t ∧
      RamSame s t ∧ ConsoleSame s t ∧ ControlSame s t

/-- MOV II with a destination in RAM: from the not-pending sub-state, two ticks later, the two bytes at the
address in RX are the two bytes that stood at the address in RY, every other byte reads as before, the
scratch register holds the word, and a fetch at the destination would read it (42_move.md section 4;
20_memory.md section 7). -/
def Obligations.MovIICopiesAWordInRam : Prop :=
  ∀ (s : State) (rx ry : RegIdx), s.Inv → s.cpuState = .execute → s.pending = false →
    RamWordAddress (s.reg ry) → RamWordAddress (s.reg rx) →
    ∃ t, exec (.movII rx ry) s = .next t ∧ t.cpuState = .fetch ∧ t.pending = false ∧
      t.cycle = s.cycle + 2 ∧
      t.readByte (s.reg rx).toNat = s.readByte (s.reg ry).toNat ∧
      t.readByte ((s.reg rx).toNat + 1) = s.readByte ((s.reg ry).toNat + 1) ∧
      t.readWord (s.reg rx).toNat = s.readWord (s.reg ry).toNat ∧
      RamSameOutsideWord s t (s.reg rx).toNat ∧ RegsSame s t ∧ ConsoleSame s t ∧
      t.scratch = s.readWord (s.reg ry).toNat ∧ t.dec = s.dec ∧ t.params = s.params ∧
      t.haltRecord = s.haltRecord

/-- MOV II with destination 0x0000: the console takes the byte at the source address and the RAM is
unchanged. A newline (0x0A, decision D32) flushes the buffer as one line, an empty one too; a zero byte
does nothing; any other byte is appended (20_memory.md section 6). -/
def Obligations.MovIIToTheConsole : Prop :=
  ∀ (s : State) (rx ry : RegIdx), s.cpuState = .execute → s.pending = false →
    RamWordAddress (s.reg ry) → s.reg rx = 0x0000 →
    ∃ t, exec (.movII rx ry) s = .next t ∧ t.cpuState = .fetch ∧ t.pending = false ∧
      t.cycle = s.cycle + 2 ∧ RegsSame s t ∧ RamSame s t ∧
      t.scratch = s.readWord (s.reg ry).toNat ∧ t.dec = s.dec ∧ t.params = s.params ∧
      t.haltRecord = s.haltRecord ∧
      (if s.readByte (s.reg ry).toNat = 0x0A then
        t.conLines = s.conLines ++ [s.conBuffer] ∧ t.conBuffer = []
      else if s.readByte (s.reg ry).toNat = 0x00 then
        t.conLines = s.conLines ∧ t.conBuffer = s.conBuffer
      else
        t.conLines = s.conLines ∧ t.conBuffer = s.conBuffer ++ [s.readByte (s.reg ry).toNat])

/-- MOV II resumed in the pending sub-state: one tick writes the scratch value, to the RAM or to the
console, and finishes the instruction (42_move.md section 4). -/
def Obligations.PendingMovIIWritesTheScratch : Prop :=
  ∀ (s : State) (rx ry : RegIdx), s.Inv → s.cpuState = .execute → s.pending = true →
    s.reg rx ≠ 0xFFFF →
    ∃ t, exec (.movII rx ry) s = .next t ∧ t.cpuState = .fetch ∧ t.pending = false ∧
      t.cycle = s.cycle + 1 ∧ RegsSame s t ∧ t.scratch = s.scratch ∧ t.dec = s.dec ∧
      t.params = s.params ∧ t.haltRecord = s.haltRecord ∧
      (s.reg rx ≠ 0x0000 →
        t.readWord (s.reg rx).toNat = s.scratch ∧ RamSameOutsideWord s t (s.reg rx).toNat ∧
        ConsoleSame s t) ∧
      (s.reg rx = 0x0000 → RamSame s t ∧
        t.conBuffer = bufferAfter (lowByte s.scratch) s.conBuffer ∧
        t.conLines = linesAfter (lowByte s.scratch) s.conBuffer s.conLines)

/-- The three store modes halt with cause UnsupportedMode, write nothing and make no bus request
(42_move.md section 5, decision D8). -/
def Obligations.StoreModesHalt : Prop :=
  ∀ (s : State) (rx ry : RegIdx) (i : Instr),
    i = .movIDL rx ry ∨ i = .movIDU rx ry ∨ i = .movIWD rx ry →
    ∃ t, exec i s = .next t ∧ HaltedInExecute s t .unsupportedMode

/-- LDI sets the low byte of R0 to R7; the high byte is kept (decision D10) or, under
`LDI_UPPER = clear`, cleared. -/
def Obligations.LdiSetsTheLowByte : Prop :=
  ∀ (s : State) (rl : BitVec 3) (imm : Byte), s.cpuState = .execute →
    ∃ t, exec (.ldi rl imm) s = .next t ∧
      RegsUpdated s t (rl.setWidth 4)
        (match s.params.ldiUpper with
          | .preserve => joinBytes (highByte (s.reg (rl.setWidth 4))) imm
          | .clear => joinBytes 0 imm) ∧
      QuietlyDone s t

/-- LDU sets the high byte of R0 to R7 and keeps the low byte (43_loadimm.md). -/
def Obligations.LduSetsTheHighByte : Prop :=
  ∀ (s : State) (rl : BitVec 3) (imm : Byte), s.cpuState = .execute →
    ∃ t, exec (.ldu rl imm) s = .next t ∧
      RegsUpdated s t (rl.setWidth 4) (joinBytes imm (lowByte (s.reg (rl.setWidth 4)))) ∧
      QuietlyDone s t

/-- LDO writes, to R0 to R7, the instruction's own address plus the unsigned offset (decision D11), modulo
2^16: where the PC is `a + 2`, the register becomes `a + imm` (43_loadimm.md). -/
def Obligations.LdoFormsAnAddressFromItsOwn : Prop :=
  ∀ (s : State) (rl : BitVec 3) (imm : Byte) (a : Word), s.cpuState = .execute → s.pc = a + 2 →
    ∃ t, exec (.ldo rl imm) s = .next t ∧
      RegsUpdated s t (rl.setWidth 4) (BitVec.ofNat 16 ((a.toNat + imm.toNat) % 65536)) ∧
      QuietlyDone s t

/-- INC and DEC add and subtract one modulo 2^16, on any of the 16 registers, and write no flag
(44_incdec.md). -/
def Obligations.IncDecWrapModulo : Prop :=
  ∀ (s : State) (rx : RegIdx), s.cpuState = .execute →
    (∃ t, exec (.inc rx) s = .next t ∧
      RegsUpdated s t rx (BitVec.ofNat 16 (((s.reg rx).toNat + 1) % 65536)) ∧ QuietlyDone s t) ∧
    (∃ t, exec (.dec rx) s = .next t ∧
      RegsUpdated s t rx (BitVec.ofNat 16 (((s.reg rx).toNat + 65535) % 65536)) ∧ QuietlyDone s t)

/-- JZ and JNZ with mode 0: the whole condition register is compared with zero; a taken jump writes the PC
with the target register and no other register, one not taken writes none (45_condjump.md; which operand
is which is decision D6). -/
def Obligations.ConditionalJumpsTestARegister : Prop :=
  ∀ (s : State) (rx ry : RegIdx), s.cpuState = .execute →
    (s.reg rx = 0 →
      (∃ t, exec (.jz 0 rx ry) s = .next t ∧ RegsUpdated s t Config.idxPC (s.reg ry) ∧
        QuietlyDone s t) ∧
      (∃ t, exec (.jnz 0 rx ry) s = .next t ∧ RegsSame s t ∧ QuietlyDone s t)) ∧
    (s.reg rx ≠ 0 →
      (∃ t, exec (.jnz 0 rx ry) s = .next t ∧ RegsUpdated s t Config.idxPC (s.reg ry) ∧
        QuietlyDone s t) ∧
      (∃ t, exec (.jz 0 rx ry) s = .next t ∧ RegsSame s t ∧ QuietlyDone s t))

/-- JZ and JNZ with any other mode halt with cause UnsupportedMode, before the condition is tested, with no
bus request (45_condjump.md, decision D7). -/
def Obligations.ConditionalJumpsOfOtherModesHalt : Prop :=
  ∀ (s : State) (m : BitVec 3) (rx ry : RegIdx) (i : Instr), m ≠ 0 →
    i = .jz m rx ry ∨ i = .jnz m rx ry →
    ∃ t, exec i s = .next t ∧ HaltedInExecute s t .unsupportedMode

/-- 46_reserved.md section 1: each of the thirteen reserved opcodes, whatever its fields, halts with cause
NotImplemented, makes no bus request and does nothing else (which mnemonics are reserved is decision D2). -/
def Obligations.ReservedOpcodesHalt : Prop :=
  ∀ (s : State) (i : Instr) (m : BitVec 3) (rx ry : RegIdx),
    i ∈ [.jmp rx, .call rx, .ret, .push rx, .pop rx, .add m rx ry, .sub m rx ry, .and m rx ry,
      .or m rx ry, .xor m rx ry, .not rx, .shl m rx ry, .shr m rx ry] →
    ∃ t, exec i s = .next t ∧ HaltedInExecute s t .notImplemented

/-- 46_reserved.md section 3: each of the nine unassigned opcode numbers halts with cause
UnrecognizedOpcode in the Decode tick that is already counted, whose pins stay as they are. That `exec` makes
the halt of that tick is the model's split of it (log entry 5). -/
def Obligations.UnassignedOpcodesHalt : Prop :=
  ∀ (s : State) (i : Instr),
    i ∈ [Instr.unassigned17, .unassigned18, .unassigned19, .unassigned1A, .unassigned1B, .unassigned1C,
      .unassigned1D, .unassigned1E, .unassigned1F] →
    ∃ t, exec i s = .next t ∧ HaltedWith s t .unrecognizedOpcode s.cycle ∧
      t.cpuPins = s.cpuPins ∧ t.ramPins = s.ramPins ∧ t.conPins = s.conPins

/-- No instruction changes a register other than the one its fields name as destination, or, for a
conditional jump, the PC: SP and FLAGS are never written as a side effect (10_state.md section 1;
44_incdec.md). -/
def Obligations.OnlyTheDestinationRegisterChanges : Prop :=
  ∀ (i : Instr) (s t : State), exec i s = .next t →
    ∀ q : RegIdx, destination i ≠ some q → t.reg q = s.reg q

/-- 42_move.md section 6 (what MOV cannot do): every instruction but MOV II leaves every byte of RAM and the
console as they were. -/
def Obligations.OnlyMovIIWritesMemory : Prop :=
  ∀ (i : Instr) (s t : State), exec i s = .next t → (∀ rx ry, i ≠ .movII rx ry) →
    RamSame s t ∧ ConsoleSame s t

/-- 20_memory.md section 8 (`ram[0]` is unreachable): no step changes byte 0 of the RAM. -/
def Obligations.RamByteZeroNeverChanges : Prop :=
  ∀ s t : State, s.Inv → step s = .next t → t.readByte 0 = s.readByte 0

/-! ### The host -/

/-- 20_memory.md section 8 (loading the image; decision D18 for the fill): an image that fits stands at
`PROGRAM_BASE` and up, and every other byte and every other part of the state is as before; one that does
not fit is refused. -/
def Obligations.LoadPlacesTheImageOrRefuses : Prop :=
  ∀ (s : State) (img : List Byte), Memory.wf s.params.ramFill s.ram →
    (s.params.programBase.toNat + img.length ≤ 65536 →
      ∃ t, loadImage img s = .next t ∧
        (∀ k b, img[k]? = some b → t.readByte (s.params.programBase.toNat + k) = b) ∧
        (∀ a, a < s.params.programBase.toNat ∨ s.params.programBase.toNat + img.length ≤ a →
          t.readByte a = s.readByte a) ∧
        Memory.wf t.params.ramFill t.ram ∧ t = { s with ram := t.ram }) ∧
    (65536 < s.params.programBase.toNat + img.length → loadImage img s = .refused .imageTooLarge)

/-- 70_reset_and_hazards.md section 1 (reset, start of a run, warm reset; decisions D19 and D38): reset gives
every piece of CPU state its value of the table, under whatever parameters, and leaves RAM, console and
parameters; a run starts in that state of the CPU with the image loaded over `RAM_FILL` and an empty
console, and meets the invariant. -/
def Obligations.ResetOfTheCpuAndStartOfARun : Prop :=
  (∀ s : State, CpuReset s.params (resetCpu s) ∧ RamSame s (resetCpu s) ∧ ConsoleSame s (resetCpu s) ∧
    (resetCpu s).params = s.params) ∧
  (∀ (p : Params) (img : List Byte), p.programBase.toNat + img.length ≤ 65536 →
    ∃ t, startRun p img = .next t ∧ t.Inv ∧ t.params = p ∧ CpuReset p t ∧
      (∀ k b, img[k]? = some b → t.readByte (p.programBase.toNat + k) = b) ∧
      (∀ a, a < p.programBase.toNat ∨ p.programBase.toNat + img.length ≤ a →
        t.readByte a = p.ramFill) ∧ t.conBuffer = [] ∧ t.conLines = [])

/-! ### The assembler -/

/-- 31_assembler.md section 2 (the address counter; decision D13): after a first pass that starts at the
base, the k-th instruction has the address `base + 2k`, and the counter is two per instruction plus one
per data byte. -/
def Obligations.FirstPassCountsBytes : Prop :=
  ∀ (base : Nat) (toks : List Asm.Token) (p : Asm.Pass),
    Asm.firstPass toks (Asm.Pass.start base) = .ok p →
    (∀ k i, p.instrs[k]? = some i → i.address = base + 2 * k) ∧
    p.counter = 2 * p.instrs.length + p.dataBytes.length

/-- R133: in data-section mode every ascii run appends its bytes to the item and advances the counter by
their number, and any other token is the error of that token: the section runs to the end of the input. -/
def Obligations.DataSectionRunsToTheEnd : Prop :=
  ∀ (toks : List Asm.Token) (p : Asm.Pass) (d : Asm.DataItem), p.data = some d →
    (∀ q, Asm.firstPass toks p = .ok q ↔
      (∀ t ∈ toks, t.kind = .immediateAsciiRun) ∧
      q = { p with
        data := some { d with rawBytes := d.rawBytes ++ toks.flatMap fun t => t.value.map Asm.charByte }
        counter := p.counter + (toks.map fun t => t.value.length).sum }) ∧
    ∀ (pre post : List Asm.Token) (t : Asm.Token), toks = pre ++ t :: post →
      (∀ u ∈ pre, u.kind = .immediateAsciiRun) → t.kind ≠ .immediateAsciiRun →
      Asm.firstPass toks p = .error (.unexpectedInDataSection t)

/-- 31_assembler.md section 3 (undefined labels): an instruction one of whose operands refers to a label
that was never defined does not assemble, and when the operands before it resolve the error names that
label. Which error is reported where a later operand or the operand form is wrong too is the model's choice
(log entry 15): the spec orders no errors. -/
def Obligations.UndefinedLabelFailsAssembly : Prop :=
  ∀ (symbols : List (List Char × Nat)) (i : Asm.SrcInstr) (pre post : List Asm.Token) (t : Asm.Token),
    i.operands = pre ++ t :: post → t.kind = .labelImmediate →
    Asm.lookupLabel symbols t.value = none →
    (∀ r, Asm.assembleInstr symbols i ≠ .ok r) ∧
    ((∀ u ∈ pre, ∃ o, Asm.resolveOperand symbols u = .ok o) →
      Asm.assembleInstr symbols i = .error (.undefinedLabel t.value))

/-- 31_assembler.md section 4 (operand forms, decision D29): everything the assembler produces is a declared
instruction, with mode 0 in JZ, JNZ and the reserved opcodes. -/
def Obligations.AssemblerProducesAssemblableInstructions : Prop :=
  ∀ (base : Nat) (src : List Char) (is : List Instr) (bytes : List Byte),
    Asm.assembleParts base src = .ok (is, bytes) → ∀ i ∈ is, i.assemblable = true ∧ i.wellFormed = true

/-- 31_assembler.md section 4 (label immediates: only the difference is encoded): the image does not depend
on `PROGRAM_BASE`. -/
def Obligations.ImageDoesNotDependOnTheBase : Prop :=
  ∀ (base base' : Nat) (src : List Char), Asm.assemble base src = Asm.assemble base' src

/-- 31_assembler.md section 6 and 30_encoding.md section 4: the image holds the k-th instruction at offset
`2k`, where the decoder reads it back, and the data bytes after the last instruction. -/
def Obligations.ImageHoldsInstructionsThenData : Prop :=
  ∀ (is : List Instr) (bytes : List Byte),
    (Asm.imageOf is bytes).length = 2 * is.length + bytes.length ∧
    (Asm.imageOf is bytes).drop (2 * is.length) = bytes ∧
    ∀ k i, is[k]? = some i →
      decode ((Asm.imageOf is bytes).drop (2 * k)) = .ok (i, (Asm.imageOf is bytes).drop (2 * k + 2))

/-- 31_assembler.md section 4 with 43_loadimm.md (decisions D11 and D30): where the assembler gives an LDO at
the address `own` the immediate of a label at `target`, executing it leaves the label's address in the
register; and it gives one exactly for labels 0 to 255 bytes ahead. -/
def Obligations.LabelOffsetExecutesToTheLabel : Prop :=
  ∀ (own target : Nat),
    ((∃ imm, Asm.labelOffset own target = .ok imm) ↔ own ≤ target ∧ target ≤ own + 255) ∧
    ∀ (imm : Byte) (rl : BitVec 3) (s : State), Asm.labelOffset own target = .ok imm →
      s.cpuState = .execute → s.pc = BitVec.ofNat 16 (own + 2) →
      ∃ t, exec (.ldo rl imm) s = .next t ∧
        RegsUpdated s t (rl.setWidth 4) (BitVec.ofNat 16 target) ∧ QuietlyDone s t
end

