-- ==== Sys2Proof/Laws/Assembler.lean ====
section
/-! SUPPORT. The assembler's shared operations (31_assembler.md): what a list of results, a symbol lookup
and the two builders can answer. -/

namespace Sys2Proof.Asm

/-- Where every element succeeded, each has its result in the list. -/
theorem mapE_mem {α β : Type} (f : α → Except AsmError β) (l : List α) (r : List β)
    (h : mapE f l = .ok r) : ∀ a ∈ l, ∃ b ∈ r, f a = .ok b := by
  induction l generalizing r with
  | nil => simp
  | cons a as ih =>
    rw [mapE] at h
    cases ha : f a with
    | error e => rw [ha] at h; cases h
    | ok b =>
      rw [ha] at h; simp only at h
      cases hs : mapE f as with
      | error e => rw [hs] at h; cases h
      | ok bs =>
        rw [hs] at h; cases h
        intro x hx
        rcases List.mem_cons.1 hx with rfl | hx
        · exact ⟨b, by simp, ha⟩
        · obtain ⟨c, hc, hf⟩ := ih bs hs x hx
          exact ⟨c, by simp [hc], hf⟩

/-- Where every element succeeded, each result comes from one. -/
theorem mapE_mem_result {α β : Type} (f : α → Except AsmError β) (l : List α) (r : List β)
    (h : mapE f l = .ok r) : ∀ b ∈ r, ∃ a ∈ l, f a = .ok b := by
  induction l generalizing r with
  | nil => cases h; simp
  | cons a as ih =>
    rw [mapE] at h
    cases ha : f a with
    | error e => rw [ha] at h; cases h
    | ok b =>
      rw [ha] at h; simp only at h
      cases hs : mapE f as with
      | error e => rw [hs] at h; cases h
      | ok bs =>
        rw [hs] at h; cases h
        intro x hx
        rcases List.mem_cons.1 hx with rfl | hx
        · exact ⟨a, by simp, ha⟩
        · obtain ⟨c, hc, hf⟩ := ih bs hs x hx
          exact ⟨c, by simp [hc], hf⟩

/-- An instruction built of two results. -/
theorem build2_ok {α β : Type} {a : Except AsmError α} {b : Except AsmError β} {mk : α → β → Instr}
    {i : Instr} (h : build2 a b mk = .ok i) : ∃ x y, a = .ok x ∧ b = .ok y ∧ i = mk x y := by
  unfold build2 at h
  split at h <;> cases h
  exact ⟨_, _, rfl, rfl, rfl⟩

/-- An instruction built of one result. -/
theorem build1_ok {α : Type} {a : Except AsmError α} {mk : α → Instr} {i : Instr}
    (h : build1 a mk = .ok i) : ∃ x, a = .ok x ∧ i = mk x := by
  unfold build1 at h
  split at h <;> cases h
  exact ⟨_, rfl, rfl⟩

/-- The first definition of a name is the one looked up (R135). -/
theorem lookupLabel_cons (n name : List Char) (a : Nat) (rest : List (List Char × Nat)) :
    lookupLabel ((n, a) :: rest) name = if n = name then some a else lookupLabel rest name := rfl

/-- In data-section mode a token is the section's (R133). -/
theorem passToken_data (next : Option Token) (t : Token) (p : Pass) (d : DataItem) (h : p.data = some d) :
    passToken next t p = passData d t p := by
  simp [passToken, h]

end Sys2Proof.Asm
end

