-- ==== Sys2Proof/Laws/State.lean ====
section
/-! SUPPORT. One lemma per field per update of the state, true by unfolding once, and the readers of a
state after each update. -/

namespace Sys2Proof.Machine

@[simp] theorem setReg_params (s : State) (i : RegIdx) (v : Word) : (s.setReg i v).params = s.params := rfl
@[simp] theorem setReg_regs (s : State) (i : RegIdx) (v : Word) : (s.setReg i v).regs = s.regs.set i.toNat v i.isLt := rfl
@[simp] theorem setReg_cpuState (s : State) (i : RegIdx) (v : Word) : (s.setReg i v).cpuState = s.cpuState := rfl
@[simp] theorem setReg_pending (s : State) (i : RegIdx) (v : Word) : (s.setReg i v).pending = s.pending := rfl
@[simp] theorem setReg_scratch (s : State) (i : RegIdx) (v : Word) : (s.setReg i v).scratch = s.scratch := rfl
@[simp] theorem setReg_dec (s : State) (i : RegIdx) (v : Word) : (s.setReg i v).dec = s.dec := rfl
@[simp] theorem setReg_cycle (s : State) (i : RegIdx) (v : Word) : (s.setReg i v).cycle = s.cycle := rfl
@[simp] theorem setReg_haltRecord (s : State) (i : RegIdx) (v : Word) : (s.setReg i v).haltRecord = s.haltRecord := rfl
@[simp] theorem setReg_cpuPins (s : State) (i : RegIdx) (v : Word) : (s.setReg i v).cpuPins = s.cpuPins := rfl
@[simp] theorem setReg_ramPins (s : State) (i : RegIdx) (v : Word) : (s.setReg i v).ramPins = s.ramPins := rfl
@[simp] theorem setReg_conPins (s : State) (i : RegIdx) (v : Word) : (s.setReg i v).conPins = s.conPins := rfl
@[simp] theorem setReg_ram (s : State) (i : RegIdx) (v : Word) : (s.setReg i v).ram = s.ram := rfl
@[simp] theorem setReg_conBuffer (s : State) (i : RegIdx) (v : Word) : (s.setReg i v).conBuffer = s.conBuffer := rfl
@[simp] theorem setReg_conLines (s : State) (i : RegIdx) (v : Word) : (s.setReg i v).conLines = s.conLines := rfl
@[simp] theorem setReg_readByte (s : State) (i : RegIdx) (v : Word) (a' : Nat) : (s.setReg i v).readByte a' = s.readByte a' := rfl
@[simp] theorem setReg_readWord (s : State) (i : RegIdx) (v : Word) (a' : Nat) : (s.setReg i v).readWord a' = s.readWord a' := rfl

@[simp] theorem writeByte_params (s : State) (a : Nat) (b : Byte) : (s.writeByte a b).params = s.params := rfl
@[simp] theorem writeByte_regs (s : State) (a : Nat) (b : Byte) : (s.writeByte a b).regs = s.regs := rfl
@[simp] theorem writeByte_cpuState (s : State) (a : Nat) (b : Byte) : (s.writeByte a b).cpuState = s.cpuState := rfl
@[simp] theorem writeByte_pending (s : State) (a : Nat) (b : Byte) : (s.writeByte a b).pending = s.pending := rfl
@[simp] theorem writeByte_scratch (s : State) (a : Nat) (b : Byte) : (s.writeByte a b).scratch = s.scratch := rfl
@[simp] theorem writeByte_dec (s : State) (a : Nat) (b : Byte) : (s.writeByte a b).dec = s.dec := rfl
@[simp] theorem writeByte_cycle (s : State) (a : Nat) (b : Byte) : (s.writeByte a b).cycle = s.cycle := rfl
@[simp] theorem writeByte_haltRecord (s : State) (a : Nat) (b : Byte) : (s.writeByte a b).haltRecord = s.haltRecord := rfl
@[simp] theorem writeByte_cpuPins (s : State) (a : Nat) (b : Byte) : (s.writeByte a b).cpuPins = s.cpuPins := rfl
@[simp] theorem writeByte_ramPins (s : State) (a : Nat) (b : Byte) : (s.writeByte a b).ramPins = s.ramPins := rfl
@[simp] theorem writeByte_conPins (s : State) (a : Nat) (b : Byte) : (s.writeByte a b).conPins = s.conPins := rfl
@[simp] theorem writeByte_ram (s : State) (a : Nat) (b : Byte) : (s.writeByte a b).ram = memWrite s.params.ramFill s.ram a b := rfl
@[simp] theorem writeByte_conBuffer (s : State) (a : Nat) (b : Byte) : (s.writeByte a b).conBuffer = s.conBuffer := rfl
@[simp] theorem writeByte_conLines (s : State) (a : Nat) (b : Byte) : (s.writeByte a b).conLines = s.conLines := rfl
@[simp] theorem writeByte_reg (s : State) (a : Nat) (b : Byte) (q : RegIdx) : (s.writeByte a b).reg q = s.reg q := rfl
@[simp] theorem writeByte_pc (s : State) (a : Nat) (b : Byte) : (s.writeByte a b).pc = s.pc := rfl
@[simp] theorem writeByte_ir (s : State) (a : Nat) (b : Byte) : (s.writeByte a b).ir = s.ir := rfl

@[simp] theorem writeWord_params (s : State) (a : Nat) (v : Word) : (s.writeWord a v).params = s.params := rfl
@[simp] theorem writeWord_regs (s : State) (a : Nat) (v : Word) : (s.writeWord a v).regs = s.regs := rfl
@[simp] theorem writeWord_cpuState (s : State) (a : Nat) (v : Word) : (s.writeWord a v).cpuState = s.cpuState := rfl
@[simp] theorem writeWord_pending (s : State) (a : Nat) (v : Word) : (s.writeWord a v).pending = s.pending := rfl
@[simp] theorem writeWord_scratch (s : State) (a : Nat) (v : Word) : (s.writeWord a v).scratch = s.scratch := rfl
@[simp] theorem writeWord_dec (s : State) (a : Nat) (v : Word) : (s.writeWord a v).dec = s.dec := rfl
@[simp] theorem writeWord_cycle (s : State) (a : Nat) (v : Word) : (s.writeWord a v).cycle = s.cycle := rfl
@[simp] theorem writeWord_haltRecord (s : State) (a : Nat) (v : Word) : (s.writeWord a v).haltRecord = s.haltRecord := rfl
@[simp] theorem writeWord_cpuPins (s : State) (a : Nat) (v : Word) : (s.writeWord a v).cpuPins = s.cpuPins := rfl
@[simp] theorem writeWord_ramPins (s : State) (a : Nat) (v : Word) : (s.writeWord a v).ramPins = s.ramPins := rfl
@[simp] theorem writeWord_conPins (s : State) (a : Nat) (v : Word) : (s.writeWord a v).conPins = s.conPins := rfl
@[simp] theorem writeWord_conBuffer (s : State) (a : Nat) (v : Word) : (s.writeWord a v).conBuffer = s.conBuffer := rfl
@[simp] theorem writeWord_conLines (s : State) (a : Nat) (v : Word) : (s.writeWord a v).conLines = s.conLines := rfl
@[simp] theorem writeWord_reg (s : State) (a : Nat) (v : Word) (q : RegIdx) : (s.writeWord a v).reg q = s.reg q := rfl
@[simp] theorem writeWord_pc (s : State) (a : Nat) (v : Word) : (s.writeWord a v).pc = s.pc := rfl
@[simp] theorem writeWord_ir (s : State) (a : Nat) (v : Word) : (s.writeWord a v).ir = s.ir := rfl

@[simp] theorem dropRequest_params (s : State) : (dropRequest s).params = s.params := rfl
@[simp] theorem dropRequest_regs (s : State) : (dropRequest s).regs = s.regs := rfl
@[simp] theorem dropRequest_cpuState (s : State) : (dropRequest s).cpuState = s.cpuState := rfl
@[simp] theorem dropRequest_pending (s : State) : (dropRequest s).pending = s.pending := rfl
@[simp] theorem dropRequest_scratch (s : State) : (dropRequest s).scratch = s.scratch := rfl
@[simp] theorem dropRequest_dec (s : State) : (dropRequest s).dec = s.dec := rfl
@[simp] theorem dropRequest_cycle (s : State) : (dropRequest s).cycle = s.cycle := rfl
@[simp] theorem dropRequest_haltRecord (s : State) : (dropRequest s).haltRecord = s.haltRecord := rfl
@[simp] theorem dropRequest_cpuPins (s : State) : (dropRequest s).cpuPins = { s.cpuPins with valid := false } := rfl
@[simp] theorem dropRequest_ramPins (s : State) : (dropRequest s).ramPins = s.ramPins := rfl
@[simp] theorem dropRequest_conPins (s : State) : (dropRequest s).conPins = s.conPins := rfl
@[simp] theorem dropRequest_ram (s : State) : (dropRequest s).ram = s.ram := rfl
@[simp] theorem dropRequest_conBuffer (s : State) : (dropRequest s).conBuffer = s.conBuffer := rfl
@[simp] theorem dropRequest_conLines (s : State) : (dropRequest s).conLines = s.conLines := rfl
@[simp] theorem dropRequest_reg (s : State) (q : RegIdx) : (dropRequest s).reg q = s.reg q := rfl
@[simp] theorem dropRequest_pc (s : State) : (dropRequest s).pc = s.pc := rfl
@[simp] theorem dropRequest_ir (s : State) : (dropRequest s).ir = s.ir := rfl
@[simp] theorem dropRequest_readByte (s : State) (a' : Nat) : (dropRequest s).readByte a' = s.readByte a' := rfl
@[simp] theorem dropRequest_readWord (s : State) (a' : Nat) : (dropRequest s).readWord a' = s.readWord a' := rfl

@[simp] theorem requestRead_params (a : Word) (s : State) : (requestRead a s).params = s.params := rfl
@[simp] theorem requestRead_regs (a : Word) (s : State) : (requestRead a s).regs = s.regs := rfl
@[simp] theorem requestRead_cpuState (a : Word) (s : State) : (requestRead a s).cpuState = s.cpuState := rfl
@[simp] theorem requestRead_pending (a : Word) (s : State) : (requestRead a s).pending = s.pending := rfl
@[simp] theorem requestRead_scratch (a : Word) (s : State) : (requestRead a s).scratch = s.scratch := rfl
@[simp] theorem requestRead_dec (a : Word) (s : State) : (requestRead a s).dec = s.dec := rfl
@[simp] theorem requestRead_cycle (a : Word) (s : State) : (requestRead a s).cycle = s.cycle := rfl
@[simp] theorem requestRead_haltRecord (a : Word) (s : State) : (requestRead a s).haltRecord = s.haltRecord := rfl
@[simp] theorem requestRead_cpuPins (a : Word) (s : State) : (requestRead a s).cpuPins = { s.cpuPins with address := a, readIntent := true, valid := true } := rfl
@[simp] theorem requestRead_ramPins (a : Word) (s : State) : (requestRead a s).ramPins = s.ramPins := rfl
@[simp] theorem requestRead_conPins (a : Word) (s : State) : (requestRead a s).conPins = s.conPins := rfl
@[simp] theorem requestRead_ram (a : Word) (s : State) : (requestRead a s).ram = s.ram := rfl
@[simp] theorem requestRead_conBuffer (a : Word) (s : State) : (requestRead a s).conBuffer = s.conBuffer := rfl
@[simp] theorem requestRead_conLines (a : Word) (s : State) : (requestRead a s).conLines = s.conLines := rfl
@[simp] theorem requestRead_reg (a : Word) (s : State) (q : RegIdx) : (requestRead a s).reg q = s.reg q := rfl
@[simp] theorem requestRead_pc (a : Word) (s : State) : (requestRead a s).pc = s.pc := rfl
@[simp] theorem requestRead_ir (a : Word) (s : State) : (requestRead a s).ir = s.ir := rfl
@[simp] theorem requestRead_readByte (a : Word) (s : State) (a' : Nat) : (requestRead a s).readByte a' = s.readByte a' := rfl
@[simp] theorem requestRead_readWord (a : Word) (s : State) (a' : Nat) : (requestRead a s).readWord a' = s.readWord a' := rfl

@[simp] theorem requestWrite_params (a v : Word) (s : State) : (requestWrite a v s).params = s.params := rfl
@[simp] theorem requestWrite_regs (a v : Word) (s : State) : (requestWrite a v s).regs = s.regs := rfl
@[simp] theorem requestWrite_cpuState (a v : Word) (s : State) : (requestWrite a v s).cpuState = s.cpuState := rfl
@[simp] theorem requestWrite_pending (a v : Word) (s : State) : (requestWrite a v s).pending = s.pending := rfl
@[simp] theorem requestWrite_scratch (a v : Word) (s : State) : (requestWrite a v s).scratch = s.scratch := rfl
@[simp] theorem requestWrite_dec (a v : Word) (s : State) : (requestWrite a v s).dec = s.dec := rfl
@[simp] theorem requestWrite_cycle (a v : Word) (s : State) : (requestWrite a v s).cycle = s.cycle := rfl
@[simp] theorem requestWrite_haltRecord (a v : Word) (s : State) : (requestWrite a v s).haltRecord = s.haltRecord := rfl
@[simp] theorem requestWrite_cpuPins (a v : Word) (s : State) : (requestWrite a v s).cpuPins = { address := a, data := v, readIntent := false, valid := true } := rfl
@[simp] theorem requestWrite_ramPins (a v : Word) (s : State) : (requestWrite a v s).ramPins = s.ramPins := rfl
@[simp] theorem requestWrite_conPins (a v : Word) (s : State) : (requestWrite a v s).conPins = s.conPins := rfl
@[simp] theorem requestWrite_ram (a v : Word) (s : State) : (requestWrite a v s).ram = s.ram := rfl
@[simp] theorem requestWrite_conBuffer (a v : Word) (s : State) : (requestWrite a v s).conBuffer = s.conBuffer := rfl
@[simp] theorem requestWrite_conLines (a v : Word) (s : State) : (requestWrite a v s).conLines = s.conLines := rfl
@[simp] theorem requestWrite_reg (a v : Word) (s : State) (q : RegIdx) : (requestWrite a v s).reg q = s.reg q := rfl
@[simp] theorem requestWrite_pc (a v : Word) (s : State) : (requestWrite a v s).pc = s.pc := rfl
@[simp] theorem requestWrite_ir (a v : Word) (s : State) : (requestWrite a v s).ir = s.ir := rfl
@[simp] theorem requestWrite_readByte (a v : Word) (s : State) (a' : Nat) : (requestWrite a v s).readByte a' = s.readByte a' := rfl
@[simp] theorem requestWrite_readWord (a v : Word) (s : State) (a' : Nat) : (requestWrite a v s).readWord a' = s.readWord a' := rfl

@[simp] theorem beginTick_params (s : State) : (beginTick s).params = s.params := rfl
@[simp] theorem beginTick_regs (s : State) : (beginTick s).regs = s.regs := rfl
@[simp] theorem beginTick_cpuState (s : State) : (beginTick s).cpuState = s.cpuState := rfl
@[simp] theorem beginTick_pending (s : State) : (beginTick s).pending = s.pending := rfl
@[simp] theorem beginTick_scratch (s : State) : (beginTick s).scratch = s.scratch := rfl
@[simp] theorem beginTick_dec (s : State) : (beginTick s).dec = s.dec := rfl
@[simp] theorem beginTick_cycle (s : State) : (beginTick s).cycle = s.cycle + 1 := rfl
@[simp] theorem beginTick_haltRecord (s : State) : (beginTick s).haltRecord = s.haltRecord := rfl
@[simp] theorem beginTick_cpuPins (s : State) : (beginTick s).cpuPins = { s.cpuPins with valid := false } := rfl
@[simp] theorem beginTick_ramPins (s : State) : (beginTick s).ramPins = s.ramPins := rfl
@[simp] theorem beginTick_conPins (s : State) : (beginTick s).conPins = s.conPins := rfl
@[simp] theorem beginTick_ram (s : State) : (beginTick s).ram = s.ram := rfl
@[simp] theorem beginTick_conBuffer (s : State) : (beginTick s).conBuffer = s.conBuffer := rfl
@[simp] theorem beginTick_conLines (s : State) : (beginTick s).conLines = s.conLines := rfl
@[simp] theorem beginTick_reg (s : State) (q : RegIdx) : (beginTick s).reg q = s.reg q := rfl
@[simp] theorem beginTick_pc (s : State) : (beginTick s).pc = s.pc := rfl
@[simp] theorem beginTick_ir (s : State) : (beginTick s).ir = s.ir := rfl
@[simp] theorem beginTick_readByte (s : State) (a' : Nat) : (beginTick s).readByte a' = s.readByte a' := rfl
@[simp] theorem beginTick_readWord (s : State) (a' : Nat) : (beginTick s).readWord a' = s.readWord a' := rfl

@[simp] theorem raiseHalt_params (c : HaltCause) (s : State) : (raiseHalt c s).params = s.params := rfl
@[simp] theorem raiseHalt_regs (c : HaltCause) (s : State) : (raiseHalt c s).regs = s.regs := rfl
@[simp] theorem raiseHalt_cpuState (c : HaltCause) (s : State) : (raiseHalt c s).cpuState = .halted := rfl
@[simp] theorem raiseHalt_pending (c : HaltCause) (s : State) : (raiseHalt c s).pending = false := rfl
@[simp] theorem raiseHalt_scratch (c : HaltCause) (s : State) : (raiseHalt c s).scratch = s.scratch := rfl
@[simp] theorem raiseHalt_dec (c : HaltCause) (s : State) : (raiseHalt c s).dec = s.dec := rfl
@[simp] theorem raiseHalt_cycle (c : HaltCause) (s : State) : (raiseHalt c s).cycle = s.cycle := rfl
@[simp] theorem raiseHalt_haltRecord (c : HaltCause) (s : State) : (raiseHalt c s).haltRecord = some { cause := c, op := s.dec.op, mode := s.dec.mode, cycle := s.cycle } := rfl
@[simp] theorem raiseHalt_cpuPins (c : HaltCause) (s : State) : (raiseHalt c s).cpuPins = s.cpuPins := rfl
@[simp] theorem raiseHalt_ramPins (c : HaltCause) (s : State) : (raiseHalt c s).ramPins = s.ramPins := rfl
@[simp] theorem raiseHalt_conPins (c : HaltCause) (s : State) : (raiseHalt c s).conPins = s.conPins := rfl
@[simp] theorem raiseHalt_ram (c : HaltCause) (s : State) : (raiseHalt c s).ram = s.ram := rfl
@[simp] theorem raiseHalt_conBuffer (c : HaltCause) (s : State) : (raiseHalt c s).conBuffer = s.conBuffer := rfl
@[simp] theorem raiseHalt_conLines (c : HaltCause) (s : State) : (raiseHalt c s).conLines = s.conLines := rfl
@[simp] theorem raiseHalt_reg (c : HaltCause) (s : State) (q : RegIdx) : (raiseHalt c s).reg q = s.reg q := rfl
@[simp] theorem raiseHalt_pc (c : HaltCause) (s : State) : (raiseHalt c s).pc = s.pc := rfl
@[simp] theorem raiseHalt_ir (c : HaltCause) (s : State) : (raiseHalt c s).ir = s.ir := rfl
@[simp] theorem raiseHalt_readByte (c : HaltCause) (s : State) (a' : Nat) : (raiseHalt c s).readByte a' = s.readByte a' := rfl
@[simp] theorem raiseHalt_readWord (c : HaltCause) (s : State) (a' : Nat) : (raiseHalt c s).readWord a' = s.readWord a' := rfl

@[simp] theorem toFetch_params (s : State) : (toFetch s).params = s.params := rfl
@[simp] theorem toFetch_regs (s : State) : (toFetch s).regs = s.regs := rfl
@[simp] theorem toFetch_cpuState (s : State) : (toFetch s).cpuState = .fetch := rfl
@[simp] theorem toFetch_pending (s : State) : (toFetch s).pending = s.pending := rfl
@[simp] theorem toFetch_scratch (s : State) : (toFetch s).scratch = s.scratch := rfl
@[simp] theorem toFetch_dec (s : State) : (toFetch s).dec = s.dec := rfl
@[simp] theorem toFetch_cycle (s : State) : (toFetch s).cycle = s.cycle := rfl
@[simp] theorem toFetch_haltRecord (s : State) : (toFetch s).haltRecord = s.haltRecord := rfl
@[simp] theorem toFetch_cpuPins (s : State) : (toFetch s).cpuPins = s.cpuPins := rfl
@[simp] theorem toFetch_ramPins (s : State) : (toFetch s).ramPins = s.ramPins := rfl
@[simp] theorem toFetch_conPins (s : State) : (toFetch s).conPins = s.conPins := rfl
@[simp] theorem toFetch_ram (s : State) : (toFetch s).ram = s.ram := rfl
@[simp] theorem toFetch_conBuffer (s : State) : (toFetch s).conBuffer = s.conBuffer := rfl
@[simp] theorem toFetch_conLines (s : State) : (toFetch s).conLines = s.conLines := rfl
@[simp] theorem toFetch_reg (s : State) (q : RegIdx) : (toFetch s).reg q = s.reg q := rfl
@[simp] theorem toFetch_pc (s : State) : (toFetch s).pc = s.pc := rfl
@[simp] theorem toFetch_ir (s : State) : (toFetch s).ir = s.ir := rfl
@[simp] theorem toFetch_readByte (s : State) (a' : Nat) : (toFetch s).readByte a' = s.readByte a' := rfl
@[simp] theorem toFetch_readWord (s : State) (a' : Nat) : (toFetch s).readWord a' = s.readWord a' := rfl

@[simp] theorem latchFields_params (s : State) : (latchFields s).params = s.params := rfl
@[simp] theorem latchFields_regs (s : State) : (latchFields s).regs = s.regs := rfl
@[simp] theorem latchFields_cpuState (s : State) : (latchFields s).cpuState = s.cpuState := rfl
@[simp] theorem latchFields_pending (s : State) : (latchFields s).pending = s.pending := rfl
@[simp] theorem latchFields_scratch (s : State) : (latchFields s).scratch = s.scratch := rfl
@[simp] theorem latchFields_dec (s : State) : (latchFields s).dec = Fields.ofWord s.ir := rfl
@[simp] theorem latchFields_cycle (s : State) : (latchFields s).cycle = s.cycle := rfl
@[simp] theorem latchFields_haltRecord (s : State) : (latchFields s).haltRecord = s.haltRecord := rfl
@[simp] theorem latchFields_cpuPins (s : State) : (latchFields s).cpuPins = s.cpuPins := rfl
@[simp] theorem latchFields_ramPins (s : State) : (latchFields s).ramPins = s.ramPins := rfl
@[simp] theorem latchFields_conPins (s : State) : (latchFields s).conPins = s.conPins := rfl
@[simp] theorem latchFields_ram (s : State) : (latchFields s).ram = s.ram := rfl
@[simp] theorem latchFields_conBuffer (s : State) : (latchFields s).conBuffer = s.conBuffer := rfl
@[simp] theorem latchFields_conLines (s : State) : (latchFields s).conLines = s.conLines := rfl
@[simp] theorem latchFields_reg (s : State) (q : RegIdx) : (latchFields s).reg q = s.reg q := rfl
@[simp] theorem latchFields_pc (s : State) : (latchFields s).pc = s.pc := rfl
@[simp] theorem latchFields_ir (s : State) : (latchFields s).ir = s.ir := rfl
@[simp] theorem latchFields_readByte (s : State) (a' : Nat) : (latchFields s).readByte a' = s.readByte a' := rfl
@[simp] theorem latchFields_readWord (s : State) (a' : Nat) : (latchFields s).readWord a' = s.readWord a' := rfl

@[simp] theorem consoleTake_params (c : Byte) (s : State) : (consoleTake c s).params = s.params := rfl
@[simp] theorem consoleTake_regs (c : Byte) (s : State) : (consoleTake c s).regs = s.regs := rfl
@[simp] theorem consoleTake_cpuState (c : Byte) (s : State) : (consoleTake c s).cpuState = s.cpuState := rfl
@[simp] theorem consoleTake_pending (c : Byte) (s : State) : (consoleTake c s).pending = s.pending := rfl
@[simp] theorem consoleTake_scratch (c : Byte) (s : State) : (consoleTake c s).scratch = s.scratch := rfl
@[simp] theorem consoleTake_dec (c : Byte) (s : State) : (consoleTake c s).dec = s.dec := rfl
@[simp] theorem consoleTake_cycle (c : Byte) (s : State) : (consoleTake c s).cycle = s.cycle := rfl
@[simp] theorem consoleTake_haltRecord (c : Byte) (s : State) : (consoleTake c s).haltRecord = s.haltRecord := rfl
@[simp] theorem consoleTake_cpuPins (c : Byte) (s : State) : (consoleTake c s).cpuPins = s.cpuPins := rfl
@[simp] theorem consoleTake_ramPins (c : Byte) (s : State) : (consoleTake c s).ramPins = s.ramPins := rfl
@[simp] theorem consoleTake_conPins (c : Byte) (s : State) : (consoleTake c s).conPins = s.conPins := rfl
@[simp] theorem consoleTake_ram (c : Byte) (s : State) : (consoleTake c s).ram = s.ram := rfl
@[simp] theorem consoleTake_conBuffer (c : Byte) (s : State) :
    (consoleTake c s).conBuffer = bufferAfter c s.conBuffer := rfl
@[simp] theorem consoleTake_conLines (c : Byte) (s : State) :
    (consoleTake c s).conLines = linesAfter c s.conBuffer s.conLines := rfl
@[simp] theorem consoleTake_reg (c : Byte) (s : State) (q : RegIdx) : (consoleTake c s).reg q = s.reg q := rfl
@[simp] theorem consoleTake_readByte (c : Byte) (s : State) (a : Nat) :
    (consoleTake c s).readByte a = s.readByte a := rfl
@[simp] theorem consoleTake_readWord (c : Byte) (s : State) (a : Nat) :
    (consoleTake c s).readWord a = s.readWord a := rfl

@[simp] theorem andThen_next (s : State) (f : State → Result) : andThen (.next s) f = f s := rfl
@[simp] theorem andThen_fault (e : Fault) (f : State → Result) : andThen (.fault e) f = .fault e := rfl
@[simp] theorem andThen_refused (e : Refusal) (f : State → Result) : andThen (.refused e) f = .refused e := rfl

/-- `andThen` answers a next state only through a next state of its first part. -/
theorem andThen_eq_next {r : Result} {f : State → Result} {t : State} (h : andThen r f = .next t) :
    ∃ u, r = .next u ∧ f u = .next t := by
  cases r with
  | next u => exact ⟨u, rfl, h⟩
  | fault e => cases h
  | refused e => cases h

/-- `andThen` is associative. -/
theorem andThen_assoc (r : Result) (f g : State → Result) :
    andThen (andThen r f) g = andThen r fun s => andThen (f s) g := by
  cases r <;> rfl

/-! ### The register file -/

/-- Reading the register just written. -/
@[simp] theorem reg_setReg_same (s : State) (i : RegIdx) (v : Word) : (s.setReg i v).reg i = v := by
  simp [State.reg, State.setReg]

/-- Writing one register leaves every other. -/
theorem reg_setReg_ne (s : State) (i q : RegIdx) (v : Word) (h : q ≠ i) :
    (s.setReg i v).reg q = s.reg q := by
  have hn : i.toNat ≠ q.toNat := fun e => h (BitVec.eq_of_toNat_eq e.symm)
  simp [State.reg, State.setReg, Vector.getElem_set_ne, hn]

/-- One register read after one register write. -/
theorem reg_setReg (s : State) (i q : RegIdx) (v : Word) :
    (s.setReg i v).reg q = if q = i then v else s.reg q := by
  by_cases h : q = i
  · subst h; simp
  · simp [h, reg_setReg_ne s i q v h]

/-- A register write is an update of that register alone. -/
theorem regsUpdated_setReg (s : State) (i : RegIdx) (v : Word) : RegsUpdated s (s.setReg i v) i v :=
  ⟨reg_setReg_same s i v, fun q h => reg_setReg_ne s i q v h⟩

/-- A state read only through its registers is the same when its register list is. -/
theorem reg_congr {s t : State} (h : t.regs = s.regs) (q : RegIdx) : t.reg q = s.reg q := by
  simp [State.reg, h]

/-- Bytes read the same where the RAM and the fill byte are the same. -/
theorem readByte_congr {s t : State} (hp : t.params = s.params) (h : t.ram = s.ram) (a : Nat) :
    t.readByte a = s.readByte a := by
  simp [State.readByte, h, hp]

end Sys2Proof.Machine
end

