-- ==== Sys2Proof/Laws/Memory.lean ====
section
/-! SUPPORT. The RAM: a read after a write, and the canonical form kept by every operation that writes
(20_memory.md R52, R59, R78). -/

namespace Sys2Proof.Machine

/-- Every address of a canonical list's tail lies above its head. -/
theorem wf_tail {fill : Byte} {c : Host.Cell} {m : List Host.Cell} (h : Memory.wf fill (c :: m)) :
    Memory.wf fill m ∧ ∀ d ∈ m, c.1 < d.1 := by
  obtain ⟨hp, hf, hb⟩ := h
  rw [List.pairwise_cons] at hp
  exact ⟨⟨hp.2, fun d hd => hf d (List.mem_cons_of_mem _ hd), fun d hd => hb d (List.mem_cons_of_mem _ hd)⟩,
    hp.1⟩

/-- An address below every listed one reads as the fill byte. -/
theorem memRead_of_lt (fill : Byte) (m : List Host.Cell) (a : Nat) (h : ∀ d ∈ m, a < d.1) :
    memRead fill m a = fill := by
  induction m with
  | nil => rfl
  | cons c m ih =>
    obtain ⟨k, b⟩ := c
    have hk : a < k := h (k, b) List.mem_cons_self
    simp only [memRead, if_neg (Nat.ne_of_gt hk)]
    exact ih fun d hd => h d (List.mem_cons_of_mem _ hd)

/-- A read after a write, on a list whose addresses rise. -/
theorem memRead_memWrite (fill : Byte) (m : List Host.Cell) (a x : Nat) (b : Byte)
    (h : m.Pairwise fun c d => c.1 < d.1) :
    memRead fill (memWrite fill m a b) x = if x = a then b else memRead fill m x := by
  induction m with
  | nil =>
    by_cases hb : b = fill <;> by_cases hx : x = a <;> simp_all [memWrite, memRead, eq_comm]
  | cons c m ih =>
    obtain ⟨k, v⟩ := c
    rw [List.pairwise_cons] at h
    have low : ∀ y, y ≤ k → memRead fill m y = fill := fun y hy =>
      memRead_of_lt fill m y fun d hd => Nat.lt_of_le_of_lt hy (h.1 d hd)
    unfold memWrite
    by_cases h1 : a < k
    · rw [if_pos h1]
      by_cases hb : b = fill
      · rw [if_pos hb]
        by_cases hx : x = a
        · subst hx; simp [memRead, Nat.ne_of_gt h1, low x (Nat.le_of_lt h1), hb]
        · simp [hx]
      · rw [if_neg hb]
        by_cases hx : x = a
        · simp [memRead, hx]
        · simp [memRead, hx, Ne.symm hx]
    · rw [if_neg h1]
      by_cases h2 : a = k
      · rw [if_pos h2]
        by_cases hb : b = fill
        · rw [if_pos hb]
          by_cases hx : x = a
          · simp [hx, hb, low a (Nat.le_of_eq h2)]
          · have : k ≠ x := fun e => hx (by omega)
            simp [hx, memRead, this]
        · rw [if_neg hb]
          by_cases hx : x = a
          · simp [memRead, hx]
          · have : k ≠ x := fun e => hx (by omega)
            simp [hx, memRead, Ne.symm hx, this]
      · rw [if_neg h2]
        by_cases hk : k = x
        · have : x ≠ a := fun e => h2 (by omega)
          simp [memRead, hk, this]
        · simp [memRead, hk, ih h.2]

/-- What a written list can list: the written cell, or a cell of the old list. -/
theorem mem_memWrite (fill : Byte) (m : List Host.Cell) (a : Nat) (b : Byte) (d : Host.Cell)
    (h : d ∈ memWrite fill m a b) : (d = (a, b) ∧ b ≠ fill) ∨ d ∈ m := by
  induction m with
  | nil =>
    unfold memWrite at h
    split at h
    · cases h
    · rename_i hb; exact .inl ⟨by simpa using h, hb⟩
  | cons c m ih =>
    obtain ⟨k, v⟩ := c
    unfold memWrite at h
    split at h
    · split at h
      · exact .inr h
      · rename_i hb
        rcases List.mem_cons.1 h with h | h
        · exact .inl ⟨h, hb⟩
        · exact .inr h
    · split at h
      · split at h
        · exact .inr (List.mem_cons_of_mem _ h)
        · rename_i hb
          rcases List.mem_cons.1 h with h | h
          · exact .inl ⟨h, hb⟩
          · exact .inr (List.mem_cons_of_mem _ h)
      · rcases List.mem_cons.1 h with h | h
        · exact .inr (h ▸ List.mem_cons_self)
        · exact (ih h).imp id (List.mem_cons_of_mem _)

/-- A write keeps the addresses rising. -/
theorem memWrite_pairwise (fill : Byte) (m : List Host.Cell) (a : Nat) (b : Byte)
    (h : m.Pairwise fun c d => c.1 < d.1) :
    (memWrite fill m a b).Pairwise fun c d => c.1 < d.1 := by
  induction m with
  | nil => unfold memWrite; split <;> simp
  | cons c m ih =>
    obtain ⟨k, v⟩ := c
    have h0 := h
    rw [List.pairwise_cons] at h
    unfold memWrite
    split
    · rename_i hlt
      split
      · exact h0
      · refine List.pairwise_cons.2 ⟨fun d hd => ?_, h0⟩
        rcases List.mem_cons.1 hd with rfl | hd
        · exact hlt
        · exact Nat.lt_trans hlt (h.1 d hd)
    · split
      · rename_i hk
        split
        · exact h.2
        · exact List.pairwise_cons.2 ⟨fun d hd => by have := h.1 d hd; simp only at this ⊢; omega, h.2⟩
      · rename_i hlt hne
        refine List.pairwise_cons.2 ⟨fun d hd => ?_, ih h.2⟩
        rcases mem_memWrite fill m a b d hd with ⟨rfl, _⟩ | hd
        · simp only; omega
        · exact h.1 d hd

/-- A write inside the store keeps the canonical form. -/
theorem memWrite_wf (fill : Byte) (m : List Host.Cell) (a : Nat) (b : Byte) (h : Memory.wf fill m)
    (ha : a < Config.ramSize) : Memory.wf fill (memWrite fill m a b) := by
  refine ⟨memWrite_pairwise fill m a b h.1, fun d hd => ?_, fun d hd => ?_⟩
  · rcases mem_memWrite fill m a b d hd with ⟨rfl, hb⟩ | hd
    · exact hb
    · exact h.2.1 d hd
  · rcases mem_memWrite fill m a b d hd with ⟨rfl, _⟩ | hd
    · exact ha
    · exact h.2.2 d hd

/-- Copying bytes inside the store keeps the canonical form. -/
theorem memWriteBytes_wf (fill : Byte) (bs : List Byte) (m : List Host.Cell) (a : Nat)
    (h : Memory.wf fill m) (ha : a + bs.length ≤ Config.ramSize) :
    Memory.wf fill (memWriteBytes fill m a bs) := by
  induction bs generalizing m a with
  | nil => exact h
  | cons b bs ih =>
    simp only [List.length_cons] at ha
    exact ih _ _ (memWrite_wf fill m a b h (by omega)) (by omega)

/-- Reset's memory has the canonical form, under any fill byte. -/
theorem reset_ram_wf : Memory.wf State.reset.params.ramFill State.reset.ram := by
  simp [State.reset, Memory.wf]

/-- Two canonical lists that read the same everywhere are the same list. -/
theorem memory_ext (fill : Byte) (m n : List Host.Cell) (hm : Memory.wf fill m) (hn : Memory.wf fill n)
    (h : ∀ a, memRead fill m a = memRead fill n a) : m = n := by
  induction m generalizing n with
  | nil =>
    cases n with
    | nil => rfl
    | cons d n =>
      obtain ⟨k, b⟩ := d
      have hk := h k
      simp only [memRead, if_true] at hk
      exact absurd hk.symm (hn.2.1 (k, b) List.mem_cons_self)
  | cons c m ih =>
    obtain ⟨k, b⟩ := c
    have hb : b ≠ fill := hm.2.1 (k, b) List.mem_cons_self
    obtain ⟨hm', hml⟩ := wf_tail hm
    cases n with
    | nil =>
      have hk := h k
      simp only [memRead, if_true] at hk
      exact absurd hk hb
    | cons d n =>
      obtain ⟨l, c⟩ := d
      have hc : c ≠ fill := hn.2.1 (l, c) List.mem_cons_self
      obtain ⟨hn', hnl⟩ := wf_tail hn
      have hlow : ∀ y, y ≤ k → memRead fill m y = fill := fun y hy =>
        memRead_of_lt fill m y fun d hd => Nat.lt_of_le_of_lt hy (hml d hd)
      have hlow' : ∀ y, y ≤ l → memRead fill n y = fill := fun y hy =>
        memRead_of_lt fill n y fun d hd => Nat.lt_of_le_of_lt hy (hnl d hd)
      have hkl : k = l := by
        rcases Nat.lt_trichotomy k l with hlt | heq | hgt
        · have := h k
          simp only [memRead, if_true, if_neg (Nat.ne_of_gt hlt), hlow' k (Nat.le_of_lt hlt)] at this
          exact absurd this hb
        · exact heq
        · have := h l
          simp only [memRead, if_true, if_neg (Nat.ne_of_gt hgt), hlow l (Nat.le_of_lt hgt)] at this
          exact absurd this.symm hc
      subst hkl
      have hbc : b = c := by simpa [memRead] using h k
      subst hbc
      rw [ih n hm' hn' fun a => ?_]
      by_cases ha : k = a
      · subst ha; rw [hlow k (Nat.le_refl _), hlow' k (Nat.le_refl _)]
      · simpa [memRead, ha] using h a

/-! ### Bytes and words of a state -/

/-- A byte read after a byte write. -/
theorem readByte_writeByte (s : State) (a x : Nat) (b : Byte)
    (h : s.ram.Pairwise fun c d => c.1 < d.1) :
    (s.writeByte a b).readByte x = if x = a then b else s.readByte x :=
  memRead_memWrite s.params.ramFill s.ram a x b h

/-- A byte read after a word write: the low byte lies at the lower address (R52). -/
theorem readByte_writeWord (s : State) (a x : Nat) (v : Word)
    (h : s.ram.Pairwise fun c d => c.1 < d.1) :
    (s.writeWord a v).readByte x =
      if x = a + 1 then highByte v else if x = a then lowByte v else s.readByte x := by
  have h' : (s.writeByte a (lowByte v)).ram.Pairwise fun c d => c.1 < d.1 :=
    memWrite_pairwise s.params.ramFill s.ram a (lowByte v) h
  rw [State.writeWord, readByte_writeByte _ _ _ _ h', readByte_writeByte s _ _ _ h]

/-- The two halves of a word joined again. -/
@[simp] theorem joinBytes_high_low (v : Word) : joinBytes (highByte v) (lowByte v) = v := by
  unfold joinBytes highByte lowByte
  ext i hi
  simp only [BitVec.getElem_append, BitVec.getElem_extractLsb']
  split <;> simp_all [BitVec.getLsbD_eq_getElem]

/-- The bits of joined bytes. -/
theorem getLsbD_joinBytes (h l : Byte) (i : Nat) :
    (joinBytes h l).getLsbD i = if i < 8 then l.getLsbD i else h.getLsbD (i - 8) :=
  BitVec.getLsbD_append

/-- The low byte of joined bytes. -/
@[simp] theorem lowByte_joinBytes (h l : Byte) : lowByte (joinBytes h l) = l := by
  ext i hi
  simp [lowByte, getLsbD_joinBytes, hi]

/-- The high byte of joined bytes. -/
@[simp] theorem highByte_joinBytes (h l : Byte) : highByte (joinBytes h l) = h := by
  ext i hi
  simp [highByte, getLsbD_joinBytes, hi]

/-- A word written is the word read back. -/
theorem readWord_writeWord_same (s : State) (a : Nat) (v : Word)
    (h : s.ram.Pairwise fun c d => c.1 < d.1) : (s.writeWord a v).readWord a = v := by
  simp [State.readWord, readByte_writeWord s a _ v h]

/-- A word write whose two bytes lie inside the store keeps the canonical form. -/
theorem writeWord_wf (s : State) (a : Nat) (v : Word) (h : Memory.wf s.params.ramFill s.ram)
    (ha : a + 1 < Config.ramSize) : Memory.wf s.params.ramFill (s.writeWord a v).ram :=
  memWrite_wf _ _ _ _ (memWrite_wf _ _ _ _ h (by omega)) ha

/-- The load operation's copy (R78): the sequence stands at `a` and up, every other byte is as before. -/
theorem memWriteBytes_read (fill : Byte) (bs : List Byte) :
    ∀ (m : List Host.Cell) (a : Nat), m.Pairwise (fun c d => c.1 < d.1) →
    (∀ k b, bs[k]? = some b → memRead fill (memWriteBytes fill m a bs) (a + k) = b) ∧
    (∀ x, x < a ∨ a + bs.length ≤ x →
      memRead fill (memWriteBytes fill m a bs) x = memRead fill m x) := by
  induction bs with
  | nil => intro m a h; exact ⟨by simp, fun _ _ => rfl⟩
  | cons c cs ih =>
    intro m a h
    have h' : (memWrite fill m a c).Pairwise (fun c d => c.1 < d.1) := memWrite_pairwise fill m a c h
    obtain ⟨i1, i2⟩ := ih _ (a+1) h'
    constructor
    · intro k b hk
      cases k with
      | zero =>
        simp at hk; subst hk
        rw [memWriteBytes, i2 (a + 0) (by omega), memRead_memWrite _ _ _ _ _ h]; simp
      | succ k =>
        rw [memWriteBytes, show a + (k+1) = a + 1 + k by omega]
        exact i1 k b (by simpa using hk)
    · intro x hx
      simp at hx
      rw [memWriteBytes, i2 x (by omega), memRead_memWrite _ _ _ _ _ h]
      rw [if_neg (by omega)]

end Sys2Proof.Machine
end

