-- ==== Sys2Proof/Laws/Bus.lean ====
section
/-! SUPPORT. What the bus does with each kind of request (20_memory.md R58 to R63, R67, R72, R73), once
for every instruction that makes one. -/

namespace Sys2Proof.Machine

/-- Deassert every pin set: what the bus makes of a tick without a request (R58, R60). -/
def quietPins (s : State) : State :=
  { s with
    cpuPins := { s.cpuPins with valid := false }
    ramPins := { s.ramPins with valid := false }
    conPins := { s.conPins with valid := false } }

/-- Two states that differ in nothing but their pins. -/
def SameButPins (s t : State) : Prop :=
  t = { s with cpuPins := t.cpuPins, ramPins := t.ramPins, conPins := t.conPins }

theorem sameButPins_quietPins (s : State) : SameButPins s (quietPins s) := rfl

/-- No request: nothing happens but that every pin set is deasserted. -/
theorem busCycle_quiet (s : State) (h : s.cpuPins.valid = false) : busCycle s = .next (quietPins s) := by
  simp [busCycle, busSetup, ramProcess, consoleProcess, busComplete, quietPins, h]

/-- A read that the RAM answers: the word at the address comes back on the CPU's data lines (R62). -/
theorem busCycle_read (s : State) (hv : s.cpuPins.valid = true) (hr : s.cpuPins.readIntent = true)
    (ha : RamWordAddress s.cpuPins.address) :
    busCycle s = .next { s with
      cpuPins := { s.cpuPins with data := s.readWord s.cpuPins.address.toNat, valid := true }
      ramPins := { s.cpuPins with data := s.readWord s.cpuPins.address.toNat, valid := true }
      conPins := { s.conPins with valid := false } } := by
  have h2 : ¬ s.cpuPins.address.toNat + 1 ≥ Config.ramSize := Nat.not_le.2 ha.2
  simp [busCycle, busSetup, ramProcess, consoleProcess, busComplete, hv, hr, ha.1, h2, State.readWord,
    State.readByte]

/-- A read of the console's address is never answered, and nothing else happens (R73). -/
theorem busCycle_read_console (s : State) (hv : s.cpuPins.valid = true)
    (hr : s.cpuPins.readIntent = true) (ha : s.cpuPins.address = Config.consoleAddr) :
    busCycle s = .next { s with
      cpuPins := { s.cpuPins with valid := false }
      ramPins := { s.ramPins with valid := false }
      conPins := { s.cpuPins with valid := true } } := by
  simp [busCycle, busSetup, ramProcess, consoleProcess, busComplete, hv, hr, ha]

/-- A write that the RAM takes: both bytes of the word, and no response (R63). -/
theorem busCycle_write (s : State) (hv : s.cpuPins.valid = true) (hr : s.cpuPins.readIntent = false)
    (ha : RamWordAddress s.cpuPins.address) :
    busCycle s = .next { s.writeWord s.cpuPins.address.toNat s.cpuPins.data with
      cpuPins := { s.cpuPins with valid := false }
      ramPins := { s.cpuPins with valid := true }
      conPins := { s.conPins with valid := false } } := by
  have h2 : ¬ s.cpuPins.address.toNat + 1 ≥ Config.ramSize := Nat.not_le.2 ha.2
  simp [busCycle, busSetup, ramProcess, consoleProcess, busComplete, hv, hr, ha.1, h2, State.writeWord,
    State.writeByte]

/-- A write to the console's address: the console takes bits 7..0, and no response comes (R63, R72). -/
theorem busCycle_write_console (s : State) (hv : s.cpuPins.valid = true)
    (hr : s.cpuPins.readIntent = false) (ha : s.cpuPins.address = Config.consoleAddr) :
    busCycle s = .next { consoleTake (lowByte s.cpuPins.data) s with
      cpuPins := { s.cpuPins with valid := false }
      ramPins := { s.ramPins with valid := false }
      conPins := { s.cpuPins with valid := true } } := by
  simp [busCycle, busSetup, ramProcess, consoleProcess, busComplete, consoleTake, hv, hr, ha]

/-- A request routed to the RAM whose second byte lies outside the store has no result (R67). -/
theorem busCycle_outOfRange (s : State) (hv : s.cpuPins.valid = true)
    (hc : s.cpuPins.address ≠ Config.consoleAddr)
    (ha : Config.ramSize ≤ s.cpuPins.address.toNat + 1) : busCycle s = .fault .busOutOfRange := by
  simp [busCycle, busSetup, ramProcess, hv, hc, ha]

/-- Everything a bus cycle can do when it answers a next state: nothing, a RAM read, an unanswered
console read, a RAM write, or a console write. -/
theorem busCycle_cases (s t : State) (h : busCycle s = .next t) :
    (s.cpuPins.valid = false ∧ t = quietPins s) ∨
    (s.cpuPins.valid = true ∧ s.cpuPins.readIntent = true ∧ RamWordAddress s.cpuPins.address ∧
      SameButPins s t ∧ t.cpuPins.valid = true ∧
      t.cpuPins.data = s.readWord s.cpuPins.address.toNat) ∨
    (s.cpuPins.valid = true ∧ s.cpuPins.readIntent = true ∧ s.cpuPins.address = Config.consoleAddr ∧
      SameButPins s t ∧ t.cpuPins.valid = false) ∨
    (s.cpuPins.valid = true ∧ s.cpuPins.readIntent = false ∧ RamWordAddress s.cpuPins.address ∧
      SameButPins (s.writeWord s.cpuPins.address.toNat s.cpuPins.data) t ∧ t.cpuPins.valid = false) ∨
    (s.cpuPins.valid = true ∧ s.cpuPins.readIntent = false ∧ s.cpuPins.address = Config.consoleAddr ∧
      SameButPins (consoleTake (lowByte s.cpuPins.data) s) t ∧ t.cpuPins.valid = false) := by
  cases hv : s.cpuPins.valid with
  | false =>
    rw [busCycle_quiet s hv] at h
    exact .inl ⟨rfl, (Host.Outcome.next.inj h).symm⟩
  | true =>
    cases hr : s.cpuPins.readIntent with
    | true =>
      by_cases hc : s.cpuPins.address = Config.consoleAddr
      · rw [busCycle_read_console s hv hr hc] at h
        cases h
        exact .inr (.inr (.inl ⟨rfl, rfl, hc, rfl, rfl⟩))
      · by_cases ha : s.cpuPins.address.toNat + 1 < Config.ramSize
        · rw [busCycle_read s hv hr ⟨hc, ha⟩] at h
          cases h
          exact .inr (.inl ⟨rfl, rfl, ⟨hc, ha⟩, rfl, rfl, rfl⟩)
        · rw [busCycle_outOfRange s hv hc (Nat.not_lt.1 ha)] at h
          cases h
    | false =>
      by_cases hc : s.cpuPins.address = Config.consoleAddr
      · rw [busCycle_write_console s hv hr hc] at h
        cases h
        exact .inr (.inr (.inr (.inr ⟨rfl, rfl, hc, rfl, rfl⟩)))
      · by_cases ha : s.cpuPins.address.toNat + 1 < Config.ramSize
        · rw [busCycle_write s hv hr ⟨hc, ha⟩] at h
          cases h
          exact .inr (.inr (.inr (.inl ⟨rfl, rfl, ⟨hc, ha⟩, rfl, rfl⟩)))
        · rw [busCycle_outOfRange s hv hc (Nat.not_lt.1 ha)] at h
          cases h

/-! ### One Execute tick -/

/-- A tick whose setup makes no request. -/
theorem runTick_quiet (setup complete : State → State) (s : State)
    (h : (setup s).cpuPins.valid = false) :
    runTick setup complete s = .next (complete (quietPins (setup s))) := by
  simp [runTick, busCycle_quiet _ h]

/-- An Execute tick that makes no request and does not halt. -/
theorem executeTick_quiet (setup complete : State → State) (s : State)
    (hq : (setup (beginTick s)).cpuPins.valid = false)
    (hx : (setup (beginTick s)).cpuState ≠ .halted) :
    executeTick setup complete s = .next (complete (quietPins (setup (beginTick s)))) := by
  rw [executeTick, runTick_quiet (fun t => setup (beginTick t)) _ s hq, unlessHalted, if_neg (by exact hx)]

/-- An Execute tick whose setup halts: step C3 does nothing (40_cycle.md R163). -/
theorem executeTick_halts (c : HaltCause) (complete : State → State) (s : State) :
    executeTick (raiseHalt c) complete s = .next (quietPins (raiseHalt c (beginTick s))) := by
  rw [executeTick, runTick_quiet (fun t => raiseHalt c (beginTick t)) _ s (by rfl), unlessHalted,
    if_pos (by rfl)]

/-- An Execute tick whose setup reads an address that the RAM answers. -/
theorem executeTick_read (addr : Word) (complete : State → State) (s : State)
    (hx : s.cpuState ≠ .halted) (ha : RamWordAddress addr) :
    executeTick (requestRead addr) complete s = .next (complete
      { requestRead addr (beginTick s) with
        cpuPins := { address := addr, data := s.readWord addr.toNat, readIntent := true, valid := true }
        ramPins := { address := addr, data := s.readWord addr.toNat, readIntent := true, valid := true }
        conPins := { s.conPins with valid := false } }) := by
  rw [executeTick, runTick, busCycle_read _ (by rfl) (by rfl) ha]
  simp only [andThen_next, unlessHalted]
  rw [if_neg (by exact hx)]
  rfl

/-- An Execute tick whose setup reads the console's address: no answer comes. -/
theorem executeTick_read_console (complete : State → State) (s : State) (hx : s.cpuState ≠ .halted) :
    executeTick (requestRead Config.consoleAddr) complete s = .next (complete
      { beginTick s with
        cpuPins := { s.cpuPins with address := Config.consoleAddr, readIntent := true, valid := false }
        ramPins := { s.ramPins with valid := false }
        conPins := { s.cpuPins with address := Config.consoleAddr, readIntent := true, valid := true } }) := by
  rw [executeTick, runTick, busCycle_read_console _ (by rfl) (by rfl) (by rfl)]
  simp only [andThen_next, unlessHalted]
  rw [if_neg (by exact hx)]
  rfl

end Sys2Proof.Machine
end

