-- ==== Sys2Proof/Laws/Encoding.lean ====
section
/-! SUPPORT. The field primitives (00_scope.md R7, R8) as bits, and the fields of a word built by each of
the four formats (30_encoding.md R107, R109). -/

namespace Sys2Proof

/-- The two arms of `extract` give the same number (R7). -/
theorem extract_eq_mod (w : Word) (o n : Nat) :
    extract w o n = w.toNat >>> o % 2 ^ n := by
  unfold extract
  split
  · rename_i he
    refine (Nat.mod_eq_of_lt ?_).symm
    rw [Nat.shiftRight_eq_div_pow]
    have hw : w.toNat < 2 ^ o * 2 ^ n := by rw [← Nat.pow_add, he]; exact w.isLt
    exact Nat.div_lt_of_lt_mul hw
  · rw [Nat.one_shiftLeft, Nat.and_two_pow_sub_one_eq_mod]

/-- A field is the bits `offset + width - 1 .. offset` (R6, R7). -/
theorem field_eq_extractLsb (w : Word) (o n : Nat) : field w o n = w.extractLsb' o n := by
  apply BitVec.eq_of_toNat_eq
  simp [field, extract_eq_mod w o n]

/-- One bit of a field. -/
theorem getLsbD_field (w : Word) (o n i : Nat) :
    (field w o n).getLsbD i = (decide (i < n) && w.getLsbD (o + i)) := by
  rw [field_eq_extractLsb w o n, BitVec.getLsbD_extractLsb']

/-- One bit of a packed value (R8): zero outside the field. -/
theorem getLsbD_pack (v o n i : Nat) :
    (pack v o n).getLsbD i =
      (decide (i < 16) && (decide (o ≤ i) && (decide (i - o < n) && v.testBit (i - o)))) := by
  simp [pack, BitVec.getLsbD_ofNat, Nat.testBit_shiftLeft, Nat.testBit_mod_two_pow]

/-- The field just packed (R8, R110). -/
theorem field_pack_same (v o n : Nat) (h : o + n ≤ 16) : field (pack v o n) o n = BitVec.ofNat n v := by
  apply BitVec.eq_of_getLsbD_eq
  intro i hi
  rw [getLsbD_field, getLsbD_pack, BitVec.getLsbD_ofNat]
  simp [hi, show o + i < 16 by omega]

/-- A packed value is zero in every field that lies apart from its own (R8). -/
theorem field_pack_apart (v o n o' n' : Nat) (ha : o' + n' ≤ o ∨ o + n ≤ o') :
    field (pack v o n) o' n' = 0 := by
  apply BitVec.eq_of_getLsbD_eq
  intro i hi
  rw [getLsbD_field, getLsbD_pack]
  rcases ha with ha | ha
  · simp [show ¬ o ≤ o' + i by omega]
  · simp [show ¬ o' + i - o < n by omega]

/-- The fields of a bitwise or. -/
theorem field_or (a b : Word) (o n : Nat) :
    field (a ||| b) o n = field a o n ||| field b o n := by
  apply BitVec.eq_of_getLsbD_eq
  intro i _
  rw [BitVec.getLsbD_or, getLsbD_field, getLsbD_field, getLsbD_field,
    BitVec.getLsbD_or, Bool.and_or_distrib_left]

/-- The low byte of a format RR word's register fields, read as an immediate (R109). -/
theorem field_imm_of_regs (rx ry : Nat) :
    field (pack rx 4 4) 0 8 ||| field (pack ry 0 4) 0 8 =
      (BitVec.ofNat 4 rx ++ BitVec.ofNat 4 ry : BitVec 8) := by
  apply BitVec.eq_of_getLsbD_eq
  intro i hi
  rw [BitVec.getLsbD_or, getLsbD_field, getLsbD_field, getLsbD_pack,
    getLsbD_pack, BitVec.getLsbD_append, BitVec.getLsbD_ofNat, BitVec.getLsbD_ofNat]
  by_cases h4 : i < 4
  · simp [hi, h4, show ¬ 4 ≤ i by omega, show i < 16 by omega]
  · simp [hi, h4, show 4 ≤ i by omega, show i < 16 by omega, show i - 4 < 4 by omega]

/-- The fields a format N word latches (R107, R109), for the fields its family has. -/
theorem op_encodeN (op : Nat) : (Fields.ofWord (encodeN op)).op = BitVec.ofNat 5 op :=
  field_pack_same op 11 5 (by omega)

/-- The opcode of a format RR word. -/
theorem op_encodeRR (op mode rx ry : Nat) :
    (Fields.ofWord (encodeRR op mode rx ry)).op = BitVec.ofNat 5 op := by
  simp [Fields.ofWord, encodeRR, field_or, field_pack_same, field_pack_apart]

/-- The mode of a format RR word. -/
theorem mode_encodeRR (op mode rx ry : Nat) :
    (Fields.ofWord (encodeRR op mode rx ry)).mode = BitVec.ofNat 3 mode := by
  simp [Fields.ofWord, encodeRR, field_or, field_pack_same, field_pack_apart]

/-- RX of a format RR word. -/
theorem rx_encodeRR (op mode rx ry : Nat) :
    (Fields.ofWord (encodeRR op mode rx ry)).rx = BitVec.ofNat 4 rx := by
  simp [Fields.ofWord, encodeRR, field_or, field_pack_same, field_pack_apart]

/-- RY of a format RR word. -/
theorem ry_encodeRR (op mode rx ry : Nat) :
    (Fields.ofWord (encodeRR op mode rx ry)).ry = BitVec.ofNat 4 ry := by
  simp [Fields.ofWord, encodeRR, field_or, field_pack_same, field_pack_apart]

/-- The opcode of a format RI word. -/
theorem op_encodeRI (op rl imm : Nat) : (Fields.ofWord (encodeRI op rl imm)).op = BitVec.ofNat 5 op := by
  simp [Fields.ofWord, encodeRI, field_or, field_pack_same, field_pack_apart]

/-- RL of a format RI word. -/
theorem rl_encodeRI (op rl imm : Nat) : (Fields.ofWord (encodeRI op rl imm)).rl = BitVec.ofNat 3 rl := by
  simp [Fields.ofWord, encodeRI, field_or, field_pack_same, field_pack_apart]

/-- The immediate of a format RI word. -/
theorem imm_encodeRI (op rl imm : Nat) : (Fields.ofWord (encodeRI op rl imm)).imm = BitVec.ofNat 8 imm := by
  simp [Fields.ofWord, encodeRI, field_or, field_pack_same, field_pack_apart]

/-- The opcode of a format R word. -/
theorem op_encodeR (op rx : Nat) : (Fields.ofWord (encodeR op rx)).op = BitVec.ofNat 5 op := by
  simp [Fields.ofWord, encodeR, field_or, field_pack_same, field_pack_apart]

/-- RX of a format R word. -/
theorem rx_encodeR (op rx : Nat) : (Fields.ofWord (encodeR op rx)).rx = BitVec.ofNat 4 rx := by
  simp [Fields.ofWord, encodeR, field_or, field_pack_same, field_pack_apart]

/-- A word is its two bytes laid out and read back (R52, R111). -/
theorem decode_wordBytesLE (w : Word) (rest : List Byte) :
    decode (wordBytesLE w ++ rest) = .ok (decodeWord w, rest) := by
  have hw : joinBytes (highByte w) (lowByte w) = w := by
    unfold joinBytes highByte lowByte
    ext i hi
    simp only [BitVec.getElem_append, BitVec.getElem_extractLsb']
    split <;> simp_all [BitVec.getLsbD_eq_getElem]
  simp [wordBytesLE, decode, hw]

end Sys2Proof
end

