-- ==== Sys2Proof/Laws/Step.lean ====
section
/-! SUPPORT. The Fetch tick and the common part of the Decode tick (40_cycle.md R164 to R167), and what a
step does from each CPU state. -/

namespace Sys2Proof.Machine

/-- A Fetch tick whose read the RAM answers (R164). -/
theorem fetchTick_answered (s : State) (ha : RamWordAddress s.pc) :
    fetchTick s = .next
      { ((s.setReg Config.idxIR (s.readWord s.pc.toNat)).setReg Config.idxPC (s.pc + 2)) with
        cpuState := .decode
        cycle := s.cycle + 1
        cpuPins := { address := s.pc, data := s.readWord s.pc.toNat, readIntent := true, valid := true }
        ramPins := { address := s.pc, data := s.readWord s.pc.toNat, readIntent := true, valid := true }
        conPins := { s.conPins with valid := false } } := by
  rw [fetchTick, runTick, busCycle_read _ (by rfl) (by rfl) ha]
  rfl

/-- A Fetch tick at the console's address is never answered (R165). -/
theorem fetchTick_unanswered (s : State) (ha : s.pc = Config.consoleAddr) :
    fetchTick s = .next
      { s with
        cycle := s.cycle + 1
        cpuPins := { s.cpuPins with address := s.pc, readIntent := true, valid := false }
        ramPins := { s.ramPins with valid := false }
        conPins := { s.cpuPins with address := s.pc, readIntent := true, valid := true } } := by
  rw [fetchTick, runTick, busCycle_read_console _ (by rfl) (by rfl) ha]
  rfl

/-- A Fetch tick at the top of the store has no result (R67). -/
theorem fetchTick_outOfRange (s : State) (hc : s.pc ≠ Config.consoleAddr)
    (ha : Config.ramSize ≤ s.pc.toNat + 1) : fetchTick s = .fault .busOutOfRange := by
  rw [fetchTick, runTick, busCycle_outOfRange _ (by rfl) hc ha]
  rfl

/-- The common part of a Decode tick: it always answers, with the fields of the IR latched, one tick
later, and Execute entered for a declared opcode (R166, R167). -/
theorem decodePhase_eq (s : State) :
    decodePhase s = .next
      { quietPins s with
        dec := Fields.ofWord s.ir
        cycle := s.cycle + 1
        cpuState := if (Fields.ofWord s.ir).declared then .execute else s.cpuState } := by
  rw [decodePhase, runTick_quiet _ _ _ (by rfl)]
  by_cases h : (Fields.ofWord s.ir).declared = true
  · have h' : (latchFields (quietPins (beginTick s))).dec.declared = true := h
    rw [if_pos h', if_pos h]; rfl
  · have h' : ¬ (latchFields (quietPins (beginTick s))).dec.declared = true := h
    rw [if_neg h', if_neg h]; rfl

/-- A step from Fetch at an address the RAM answers: the two first ticks, then the meaning of the word's
instruction, in one equation. -/
theorem step_fetch_answered (s : State) (hf : s.cpuState = .fetch) (ha : RamWordAddress s.pc) :
    ∃ u, fetchTick s = .next u ∧ u.cpuState = .decode ∧ step s = andThen (decodePhase u) runLatched := by
  refine ⟨_, fetchTick_answered s ha, rfl, ?_⟩
  simp [step, advance, hf, fetchAndRun, fetchTick_answered s ha, decodeAndRun]

/-- A step from Execute runs the latched instruction (R169, R170). -/
theorem step_execute (s : State) (h : s.cpuState = .execute) : step s = exec s.dec.instr s := by
  simp [step, advance, h, runLatched]

/-- A step from Decode latches and runs. -/
theorem step_decode (s : State) (h : s.cpuState = .decode) :
    step s = andThen (decodePhase s) runLatched := by
  simp [step, advance, h, decodeAndRun]

/-- A step of a halted CPU is one tick of it (R172). -/
theorem step_halted (s : State) (h : s.cpuState = .halted) : step s = tick s := by
  simp [step, advance, h]

end Sys2Proof.Machine
end

