-- ==== Sys2Proof/Laws/Exec.lean ====
section
/-! SUPPORT. What an Execute tick can do, for every instruction, and how a step is made of ticks
(40_cycle.md R168 to R175, 42_move.md R202 to R206): the lemmas to cite where a statement speaks of `exec`,
`tick` or `step` in general. -/

namespace Sys2Proof.Machine

/-- The bus and its slaves touch no state of the CPU but its pins (20_memory.md R56). -/
theorem busCycle_frame {s t : State} (h : busCycle s = .next t) :
    t.params = s.params ∧ t.regs = s.regs ∧ t.cpuState = s.cpuState ∧ t.pending = s.pending ∧
      t.scratch = s.scratch ∧ t.dec = s.dec ∧ t.cycle = s.cycle ∧ t.haltRecord = s.haltRecord := by
  rcases busCycle_cases _ _ h with ⟨_, h⟩|⟨_, _, _, h, _⟩|⟨_, _, _, h, _⟩|⟨_, _, _, h, _⟩|⟨_, _, _, h,
      _⟩ <;> rw [h] <;> exact ⟨rfl, rfl, rfl, rfl, rfl, rfl, rfl, rfl⟩

/-- Two ticks agree where their setups agree and their completions agree on what the bus answers. -/
theorem runTick_congr {f f' g g' : State → State} {s : State} (hf : f s = f' s)
    (hg : ∀ t, busCycle (f' s) = .next t → g t = g' t) : runTick f g s = runTick f' g' s := by
  unfold runTick
  rw [hf]
  cases hb : busCycle (f' s) with
  | next t => simp [hg t hb]
  | fault => rfl
  | refused => rfl

/-- Step S1 of Execute leaves the CPU in Execute or halts it. -/
theorem executeSetup_cpuState (i : Instr) (s : State) : (executeSetup i s).cpuState = s.cpuState ∨
    (executeSetup i s).cpuState = .halted := by
  cases i <;> simp only [executeSetup, haltSetup, nopSetup, movDDSetup, loadSetup, movIISetup,
      storeModeSetup, ldiSetup, lduSetup, ldoSetup, incSetup, decSetup, jzSetup, jnzSetup, condJumpSetup,
      reservedSetup, raiseHalt_cpuState, setReg_cpuState, requestRead_cpuState, or_true, true_or]
  · split <;> simp
  · split <;> simp
  · split <;> (try split) <;> simp
  · split <;> (try split) <;> simp

/-- Step S1 of Execute keeps the latch. -/
theorem executeSetup_dec (i : Instr) (s : State) : (executeSetup i s).dec = s.dec := by
  cases i <;> simp only [executeSetup, haltSetup, nopSetup, movDDSetup, loadSetup, movIISetup,
      storeModeSetup, ldiSetup, lduSetup, ldoSetup, incSetup, decSetup, jzSetup, jnzSetup, condJumpSetup,
      reservedSetup, raiseHalt_dec, setReg_dec, requestRead_dec]
  · split <;> simp
  · split <;> simp
  · split <;> (try split) <;> simp
  · split <;> (try split) <;> simp

/-- A tick in Execute is the Execute tick of the latched instruction (40_cycle.md R162, R163). -/
theorem tick_execute (s : State) (hx : s.cpuState = .execute) :
    tick s = executeTick (executeSetup s.dec.instr) (executeComplete s.dec.instr) s := by
  unfold tick executeTick
  apply runTick_congr
  · simp [cpuSetup, hx]
  · intro t ht
    obtain ⟨-, -, h1, -, -, h2, -⟩ := busCycle_frame ht
    rw [executeSetup_dec] at h2
    rcases executeSetup_cpuState s.dec.instr (beginTick s) with h | h
    · rw [h, beginTick_cpuState, hx] at h1
      rw [unlessHalted, if_neg (by simp [h1]), cpuComplete, h1]
      simp [h2]
    · rw [h] at h1
      rw [unlessHalted, if_pos h1, cpuComplete, h1]

/-- A tick in Fetch is a Fetch tick. -/
theorem tick_fetch (s : State) (hx : s.cpuState = .fetch) : tick s = fetchTick s := by
  unfold tick fetchTick
  apply runTick_congr
  · simp [cpuSetup, hx]
  · intro t ht
    obtain ⟨-, -, h1, -, -, h2, -⟩ := busCycle_frame ht
    simp only [fetchSetup, requestRead_cpuState, beginTick_cpuState, hx] at h1
    simp [cpuComplete, h1]

/-- A tick in Decode is a Decode tick. -/
theorem tick_decode (s : State) (hx : s.cpuState = .decode) : tick s = decodeTick s := by
  unfold tick decodeTick
  apply runTick_congr
  · simp [cpuSetup, hx]
  · intro t ht
    obtain ⟨-, -, h1, -, -, h2, -⟩ := busCycle_frame ht
    simp only [beginTick_cpuState, hx] at h1
    simp [cpuComplete, h1]

/-- MOV II, the one instruction of two Execute ticks. -/
def isII : Instr → Bool | .movII _ _ => true | _ => false

/-- Every other declared instruction is one Execute tick. -/
theorem exec_tick (i : Instr) (s : State) (hw : i.wellFormed = true) (hi : isII i = false) :
    exec i s = executeTick (executeSetup i) (executeComplete i) s := by
  cases i <;> first | (simp [isII] at hi; done) | (simp [Instr.wellFormed] at hw; done) | rfl

/-- The latched fields stand for a declared instruction exactly when the opcode number is declared. -/
theorem wellFormed_instr (f : Fields) : f.instr.wellFormed = f.declared := by
  rcases f with ⟨op, mode, rx, ry, rl, imm⟩
  rcases op with ⟨⟨n, hn⟩⟩
  rcases mode with ⟨⟨m, hm⟩⟩
  interval_cases n <;> first | rfl | (interval_cases m <;> rfl)

/-- An unassigned number halts (46_reserved.md R264). -/
theorem exec_unassigned (i : Instr) (s) (hw : i.wellFormed = false) : exec i s =
    .next (raiseHalt .unrecognizedOpcode s) := by
  cases i <;> first | (simp [Instr.wellFormed] at hw; done) | rfl

/-- A Decode tick is the common phase, and then the halt of an unassigned number (R166). -/
theorem decodeTick_eq (s : State) : decodeTick s =
    if (Fields.ofWord s.ir).declared then decodePhase s else andThen (decodePhase s)
    (fun t => .next (raiseHalt .unrecognizedOpcode t)) := by
  rw [decodePhase_eq, decodeTick, runTick_quiet _ _ _ rfl]
  by_cases h : (Fields.ofWord s.ir).declared = true
  · rw [if_pos h, decodeComplete, if_pos (by exact h)]; simp only [if_pos h]; rfl
  · rw [if_neg h, decodeComplete, if_neg (by exact h)]; simp only [if_neg h]; rfl

/-- What a Fetch tick can do: an answered read, or an unanswered one (R164, R165). -/
theorem fetchTick_cases {s t : State} (h : fetchTick s = .next t) : (RamWordAddress s.pc ∧
    SameButPins { ((s.setReg Config.idxIR (s.readWord s.pc.toNat)).setReg Config.idxPC (s.pc + 2)) with
        cpuState := .decode
        cycle := s.cycle + 1 } t) ∨ (s.pc = Config.consoleAddr ∧
            SameButPins { s with cycle := s.cycle + 1} t) := by
  by_cases h0 : s.pc = Config.consoleAddr
  · rw [fetchTick_unanswered s h0] at h; cases h; exact .inr ⟨h0, rfl⟩
  · by_cases h1 : s.pc.toNat + 1 < Config.ramSize
    · rw [fetchTick_answered s ⟨h0, h1⟩] at h; cases h; exact .inl ⟨⟨h0, h1⟩, rfl⟩
    · rw [fetchTick_outOfRange s h0 (by omega)] at h; cases h

/-- One tick, counted. -/
theorem ticks_one (s) : ticks 1 s = tick s := by
  show andThen (tick s) (ticks 0) = _
  cases tick s <;> rfl

/-- Ticks in two portions. -/
theorem ticks_add (m n : Nat) (s : State) : ticks (m + n) s = andThen (ticks m s) (ticks n) := by
  induction m generalizing s with
  | zero => simp [ticks]
  | succ m ih =>
    rw [Nat.add_right_comm]
    show andThen (tick s) (ticks (m+n)) = andThen (andThen (tick s) (ticks m)) (ticks n)
    cases tick s with
    | next t => simp [ih]
    | fault => rfl
    | refused => rfl

/-- A step from Execute is one tick, or two for MOV II. -/
theorem step_execute_tick (s : State) (hx : s.cpuState = .execute) (hd : s.dec.declared = true) :
    (step s = tick s) ∨ (step s = ticks 2 s) := by
  rw [step_execute s hx, tick_execute s hx]
  by_cases hi : isII s.dec.instr = true
  · cases hii : s.dec.instr <;> simp [hii, isII] at hi
    rename_i rx ry
    show execMovII rx ry s = _ ∨ execMovII rx ry s = _
    by_cases hp : s.pending = true
    · left; exact if_pos hp
    rw [execMovII, if_neg hp]
    have e : ∀ s : State, s.cpuState = .execute → s.dec.instr = .movII rx ry → tick s =
        movIITick rx ry s := by
      intro s h1 h2; rw [tick_execute s h1, h2]; rfl
    cases ht : movIITick rx ry s with
    | fault e => left; show _ = movIITick rx ry s; rw [ht]; rfl
    | refused e => left; show _ = movIITick rx ry s; rw [ht]; rfl
    | next t =>
      simp only [andThen_next]
      by_cases hpt : t.pending = true
      · right
        have h2 : t.cpuState = .execute ∧ t.dec = s.dec := by
          unfold movIITick executeTick runTick at ht
          obtain ⟨u, hu, ht⟩ := andThen_eq_next ht
          obtain ⟨-, -, h1, h3, -, h2, -⟩ := busCycle_frame hu
          have h4 := executeSetup_dec (.movII rx ry) (beginTick s)
          have h5 : (movIISetup rx ry (beginTick s)).cpuState = .execute := by simp [movIISetup, hp, hx]
          have h6 : (movIISetup rx ry (beginTick s)).pending = false := by simp [movIISetup, hp]
          rw [h5] at h1; rw [h6] at h3
          cases ht
          simp only [unlessHalted, h1, movIIComplete, h3]
          split
          · simp_all
          · split
            · simp_all
            · split
              · refine ⟨rfl, ?_⟩; exact h2.trans h4
              · refine ⟨h1, ?_⟩; rw [h2]; exact h4
        rw [if_pos hpt]
        show _ = andThen (tick s) (fun s => andThen (tick s) _)
        rw [e s hx hii, ht, andThen_next, e t h2.1 (by rw [h2.2]; exact hii)]
        cases movIITick rx ry t <;> rfl
      · left; rw [if_neg hpt]; exact ht.symm
  · left; exact exec_tick _ s (by rw [wellFormed_instr]; exact hd) (by simpa using hi)

/-- A tick whose setup halts. -/
theorem haltedInExecute_raiseHalt (c : HaltCause) (s : State) :
    HaltedInExecute s (quietPins (raiseHalt c (beginTick s))) c :=
  ⟨⟨rfl, rfl, rfl, rfl, fun _ => rfl, fun _ => rfl, ⟨rfl, rfl⟩, rfl, rfl, rfl⟩, rfl, rfl, rfl⟩

/-- An Execute tick that halts, whole. -/
theorem executeTick_raiseHalt (c) (s) : ∃ t, executeTick (raiseHalt c) toFetch s = .next t ∧
    HaltedInExecute s t c :=
  ⟨_, executeTick_halts c toFetch s, haltedInExecute_raiseHalt c s⟩

/-- An Execute tick whose setup halts on the state at hand. -/
theorem executeTick_halts_of (f : State → State) (c) (s : State)
    (hf : f (beginTick s) = raiseHalt c (beginTick s)) :
   ∃ t, executeTick f toFetch s = .next t ∧ HaltedInExecute s t c := by
  obtain ⟨t, h1, h2⟩ := executeTick_raiseHalt c s
  refine ⟨t, ?_, h2⟩
  rw [← h1]; simp [executeTick, runTick, hf]

/-- An Execute tick that writes one register and finishes. -/
theorem executeTick_setReg (f : State → State) (s : State) (r : RegIdx) (v : Word)
    (hf : f (beginTick s) = (beginTick s).setReg r v)
   (hx : s.cpuState = .execute) : ∃ t, executeTick f toFetch s = .next t ∧ RegsUpdated s t r v ∧
       QuietlyDone s t := by
  refine ⟨_, executeTick_quiet f toFetch s (by rw [hf]; rfl) (by rw [hf]; exact by simp [hx, beginTick]),
      ?_, ?_⟩
  · rw [hf]; exact regsUpdated_setReg (s := beginTick s) r v
  · rw [hf]; exact ⟨rfl, rfl, fun _ => rfl, ⟨rfl, rfl⟩, ⟨rfl, rfl, rfl, rfl, rfl⟩, rfl, rfl, rfl⟩

/-- An Execute tick that changes nothing and finishes. -/
theorem executeTick_same (f : State → State) (s : State) (hf : f (beginTick s) = (beginTick s))
   (hx : s.cpuState = .execute) : ∃ t, executeTick f toFetch s = .next t ∧ RegsSame s t ∧
       QuietlyDone s t := by
  refine ⟨_, executeTick_quiet f toFetch s (by rw [hf]; rfl) (by rw [hf]; exact by simp [hx, beginTick]),
      ?_, ?_⟩
  · rw [hf]; exact fun _ => rfl
  · rw [hf]; exact ⟨rfl, rfl, fun _ => rfl, ⟨rfl, rfl⟩, ⟨rfl, rfl, rfl, rfl, rfl⟩, rfl, rfl, rfl⟩

/-- A load that the RAM answers (42_move.md R202). -/
theorem executeTick_load (merge : Word → Word → Word) (rx ry : RegIdx) (s : State) (hx : s.cpuState = .execute)
    (ha : RamWordAddress (s.reg ry)) : ∃ t, executeTick (loadSetup ry) (loadComplete merge rx) s = .next t ∧
   t.cpuState = .fetch ∧ t.cycle = s.cycle + 1 ∧ RegsUpdated s t rx (merge (s.reg rx)
       (s.readWord (s.reg ry).toNat)) ∧
   RamSame s t ∧ ConsoleSame s t ∧ ControlSame s t := by
  have h := executeTick_read (s.reg ry) (loadComplete merge rx) s (by simp [hx]) ha
  refine ⟨_, h, rfl, rfl, ?_, fun _ => rfl, ⟨rfl, rfl⟩, ⟨rfl, rfl, rfl, rfl, rfl⟩⟩
  exact regsUpdated_setReg (s := { requestRead (s.reg ry) (beginTick s) with
        cpuPins := ⟨s.reg ry, s.readWord (s.reg ry).toNat, true, true⟩
        ramPins := ⟨s.reg ry, s.readWord (s.reg ry).toNat, true, true⟩
        conPins := { s.conPins with valid := false } }) rx _

/-- A load whose address is the console's (40_cycle.md R171). -/
theorem executeTick_load_console (c : State → State) (ry : RegIdx) (s : State) (hx : s.cpuState = .execute)
  (hc : ∀ t, t.cpuPins.valid = false → c t = t)
  (ha : s.reg ry = 0) : ∃ t, executeTick (loadSetup ry) c s = .next t ∧
   t.cpuState = .execute ∧ t.cycle = s.cycle + 1 ∧ RegsSame s t ∧
   RamSame s t ∧ ConsoleSame s t ∧ ControlSame s t := by
  have h := executeTick_read_console c s (by simp [hx])
  rw [hc _ rfl] at h
  have e : executeTick (loadSetup ry) c s = executeTick (requestRead Config.consoleAddr) c s := by
    simp only [executeTick, runTick, loadSetup, indirectAddress, beginTick_reg, ha]; rfl
  exact ⟨_, e.trans h, hx, rfl, fun _ => rfl, fun _ => rfl, ⟨rfl, rfl⟩, ⟨rfl, rfl, rfl, rfl, rfl⟩⟩

/-- The state after the answered read tick of MOV II (42_move.md R206). -/
def afterRead (ry : RegIdx) (s : State) : State :=
      { beginTick s with
        scratch := s.readWord (s.reg ry).toNat
        pending := true
        cpuPins := ⟨s.reg ry, s.readWord (s.reg ry).toNat, true, true⟩
        ramPins := ⟨s.reg ry, s.readWord (s.reg ry).toNat, true, true⟩
        conPins := { s.conPins with valid := false } }

/-- The read tick of MOV II. -/
theorem movIITick_read (rx ry : RegIdx) (s : State) (hx : s.cpuState = .execute) (hp : s.pending = false)
  (ha : RamWordAddress (s.reg ry)) : movIITick rx ry s = .next (afterRead ry s) := by
  have h := executeTick_read (s.reg ry) movIIComplete s (by simp [hx]) ha
  have e : movIITick rx ry s = executeTick (requestRead (s.reg ry)) movIIComplete s := by
    simp only [movIITick, executeTick, runTick, movIISetup, indirectAddress, beginTick_reg,
        beginTick_pending, hp]; rfl
  rw [e, h]; simp [movIIComplete, hp, afterRead]

/-- The read tick of MOV II at the console's address. -/
theorem movIITick_console (rx ry : RegIdx) (s : State) (hx : s.cpuState = .execute) (hp : s.pending = false)
  (ha : s.reg ry = 0) : ∃ t, movIITick rx ry s = .next t ∧
   t.cpuState = .execute ∧ t.cycle = s.cycle + 1 ∧ RegsSame s t ∧
   RamSame s t ∧ ConsoleSame s t ∧ ControlSame s t := by
  have h := executeTick_read_console movIIComplete s (by simp [hx])
  have e : movIITick rx ry s = executeTick (requestRead Config.consoleAddr) movIIComplete s := by
    simp only [movIITick, executeTick, runTick, movIISetup, indirectAddress, beginTick_reg,
        beginTick_pending, hp, ha]; rfl
  have hc : ∀ u : State, u.pending = false → u.cpuPins.valid = false → movIIComplete u = u := by
    intro u h1 h2
    simp [movIIComplete, h1, h2]
  rw [hc _ (by exact hp) rfl] at h
  exact ⟨_, e.trans h, hx, rfl, fun _ => rfl, fun _ => rfl, ⟨rfl, rfl⟩, ⟨rfl, rfl, rfl, rfl, rfl⟩⟩

/-- The write tick of MOV II to the RAM. -/
theorem movIITick_write (rx ry : RegIdx) (s : State) (hx : s.cpuState = .execute) (hp : s.pending = true)
  (ha : RamWordAddress (s.reg rx)) : movIITick rx ry s = .next
      { (beginTick s).writeWord (s.reg rx).toNat s.scratch with
        cpuState := .fetch
        pending := false
        cpuPins := ⟨s.reg rx, s.scratch, false, false⟩
        ramPins := ⟨s.reg rx, s.scratch, false, true⟩
        conPins := { s.conPins with valid := false } } := by
  have e : movIISetup rx ry (beginTick s) = requestWrite (s.reg rx) s.scratch (beginTick s) := by
      simp [movIISetup, hp, indirectAddress]
  rw [movIITick, executeTick, runTick, e, busCycle_write _ rfl rfl ha]
  simp only [andThen_next, unlessHalted]
  rw [if_neg (by simp [hx])]
  simp [movIIComplete, hp, toFetch]
  rfl

/-- The write tick of MOV II to the console. -/
theorem movIITick_write_console (rx ry : RegIdx) (s : State) (hx : s.cpuState = .execute)
    (hp : s.pending = true) (ha : s.reg rx = 0) : movIITick rx ry s = .next
      { consoleTake (lowByte s.scratch) (beginTick s) with
        cpuState := .fetch
        pending := false
        cpuPins := ⟨0, s.scratch, false, false⟩
        ramPins := { s.ramPins with valid := false }
        conPins := ⟨0, s.scratch, false, true⟩ } := by
  have e : movIISetup rx ry (beginTick s) = requestWrite 0 s.scratch (beginTick s) := by
      simp [movIISetup, hp, indirectAddress, ha]
  rw [movIITick, executeTick, runTick, e, busCycle_write_console _ rfl rfl rfl]
  simp only [andThen_next, unlessHalted]
  rw [if_neg (by simp [hx])]
  simp [movIIComplete, hp, toFetch]

/-- MOV II in the pending sub-state is its write tick. -/
theorem exec_movII_pending (rx ry : RegIdx) (s : State) (hp : s.pending = true) : exec (.movII rx ry) s =
    movIITick rx ry s := if_pos hp

/-- MOV II with an answered read is its write tick after the read. -/
theorem exec_movII_read (rx ry : RegIdx) (s : State) (hx : s.cpuState = .execute) (hp : s.pending = false)
  (ha : RamWordAddress (s.reg ry)) : exec (.movII rx ry) s = movIITick rx ry (afterRead ry s) := by
  show execMovII rx ry s = _
  rw [execMovII, if_neg (by simp [hp]), movIITick_read rx ry s hx hp ha, andThen_next, if_pos (by rfl)]

/-- A tick whose setup reads at 0xFFFF has no result (20_memory.md R67). -/
theorem executeTick_read_top (f c : State → State) (s : State) (a : Word) (ha : a = 0xFFFF)
    (hf : f (beginTick s) = requestRead a (beginTick s)) : executeTick f c s = .fault .busOutOfRange := by
  rw [executeTick, runTick, hf, busCycle_outOfRange _ rfl (by subst ha; simp [Config.consoleAddr])
      (by subst ha; simp [Config.ramSize])]
  rfl

/-- A tick whose setup writes at 0xFFFF has no result (R67). -/
theorem executeTick_write_top (f c : State → State) (s : State) (v) (a : Word) (ha : a = 0xFFFF)
    (hf : f (beginTick s) = requestWrite a v (beginTick s)) : executeTick f c s = .fault .busOutOfRange := by
  rw [executeTick, runTick, hf, busCycle_outOfRange _ rfl (by subst ha; simp [Config.consoleAddr])
      (by subst ha; simp [Config.ramSize])]
  rfl

/-- Everything one Execute tick of a CPU that is not halted can do: halt; finish with nothing changed; finish
with one register written; wait for a read of the console; the read tick of MOV II; its write tick, to the
RAM or to the console. -/
theorem execTick_cases (i : Instr) (s t : State) (hw : i.wellFormed = true) (hx : s.cpuState ≠ .halted)
    (h : executeTick (executeSetup i) (executeComplete i) s = .next t) :
    (∃ c, t = quietPins (raiseHalt c (beginTick s))) ∨
    ((∀ rx ry, i ≠ .movII rx ry) ∧ t = toFetch (quietPins (beginTick s))) ∨
    (∃ r v, destination i = some r ∧ SameButPins (toFetch ((beginTick s).setReg r v)) t) ∨
    (∃ rx ry, (i = .movDLI rx ry ∨ i = .movDUI rx ry ∨ i = .movDWI rx ry ∨ (i = .movII rx ry ∧
        s.pending = false)) ∧
      s.reg ry = Config.consoleAddr ∧ SameButPins (beginTick s) t) ∨
    (∃ rx ry, i = .movII rx ry ∧ s.pending = false ∧ RamWordAddress (s.reg ry) ∧
      SameButPins { beginTick s with scratch := s.readWord (s.reg ry).toNat, pending := true } t) ∨
    (∃ rx ry, i = .movII rx ry ∧ s.pending = true ∧ RamWordAddress (s.reg rx) ∧
      SameButPins { (beginTick s).writeWord (s.reg rx).toNat s.scratch with
        cpuState := .fetch
        pending := false } t) ∨
    (∃ rx ry, i = .movII rx ry ∧ s.pending = true ∧ s.reg rx = Config.consoleAddr ∧
      SameButPins { consoleTake (lowByte s.scratch) (beginTick s) with
        cpuState := .fetch
        pending := false } t) := by
  have H : ∀ c (f : State → State) (k : State → State), f (beginTick s) = raiseHalt c (beginTick s) →
      executeTick f k s = .next t →
      (∃ c, t = quietPins (raiseHalt c (beginTick s))) := by
    intro c f k hf h
    have := executeTick_halts c k s
    rw [show executeTick (raiseHalt c) k s = executeTick f k s by simp [executeTick, runTick, hf],
        h] at this
    cases this; exact ⟨c, rfl⟩
  have Q : ∀ f : State → State, f (beginTick s) = beginTick s → executeTick f toFetch s = .next t →
      t = toFetch (quietPins (beginTick s)) := by
    intro f hf h
    rw [executeTick_quiet f toFetch s (by rw [hf]; rfl) (by rw [hf]; exact hx), hf] at h
    cases h; rfl
  have U : ∀ (f : State → State) r v, f (beginTick s) = (beginTick s).setReg r v →
      executeTick f toFetch s = .next t →
      SameButPins (toFetch ((beginTick s).setReg r v)) t := by
    intro f r v hf h
    rw [executeTick_quiet f toFetch s (by rw [hf]; rfl) (by rw [hf]; exact hx), hf] at h
    cases h; rfl
  have L : ∀ (m : State → Word → Word → Word) rx ry, executeTick (loadSetup ry)
      (fun u => loadComplete (m u) rx u) s = .next t →
      (∃ v, SameButPins (toFetch ((beginTick s).setReg rx v)) t) ∨ (s.reg ry = Config.consoleAddr ∧
          SameButPins (beginTick s) t) := by
    intro m rx ry h
    unfold executeTick runTick at h
    obtain ⟨u, hu, h⟩ := andThen_eq_next h
    have hxu : u.cpuState ≠ .halted := by
      rw [(busCycle_frame hu).2.2.1]; exact hx
    have h := Host.Outcome.next.inj h
    rw [unlessHalted, if_neg hxu] at h
    rcases busCycle_cases _ _ hu with ⟨h1, _⟩|⟨_, _, ha, hs, hv, _⟩|⟨_, _, ha, hs, hv⟩|⟨_, h1, _⟩|⟨_, h1, _⟩
    · exact absurd h1 (by simp [loadSetup])
    · left
      refine ⟨m u (u.reg rx) u.cpuPins.data, ?_⟩
      subst h
      rw [loadComplete, if_pos hv]
      rw [hs]; rfl
    · right
      subst h
      rw [loadComplete, if_neg (by simp [hv])]
      exact ⟨ha, by rw [hs]; rfl⟩
    · exact absurd h1 (by simp [loadSetup])
    · exact absurd h1 (by simp [loadSetup])
  have B : ∀ b m rx ry, executeTick (condJumpSetup b m rx ry) toFetch s = .next t →
     (∃ c, t = quietPins (raiseHalt c (beginTick s))) ∨ (t = toFetch (quietPins (beginTick s))) ∨
     (∃ v, SameButPins (toFetch ((beginTick s).setReg Config.idxPC v)) t) := by
    intro b m rx ry h
    by_cases h1 : m ≠ Config.modeDD
    · exact .inl (H .unsupportedMode (condJumpSetup b m rx ry) _ (if_pos h1) h)
    by_cases h2 : b (directOperand rx (beginTick s)) = true
    · exact .inr (.inr ⟨_, U (condJumpSetup b m rx ry) _ _ ((if_neg h1).trans (if_pos h2)) h⟩)
    · exact .inr (.inl (Q (condJumpSetup b m rx ry) ((if_neg h1).trans (if_neg h2)) h))
  cases i with
  | halt => exact .inl (H _ _ _ rfl h)
  | nop =>
    cases hn : s.params.nopBehaviour with
    | noop => exact .inr (.inl ⟨nofun, Q _ (by simp [executeSetup, nopSetup, hn]) h⟩)
    | notImplemented => exact .inl (H .notImplemented _ _ (by simp [executeSetup, nopSetup, hn]) h)
  | movDD rx ry => exact .inr (.inr (.inl ⟨_, _, rfl, U _ _ _ rfl h⟩))
  | ldi rx ry => exact .inr (.inr (.inl ⟨_, _, rfl, U _ _ _ rfl h⟩))
  | ldu rx ry => exact .inr (.inr (.inl ⟨_, _, rfl, U _ _ _ rfl h⟩))
  | ldo rx ry => exact .inr (.inr (.inl ⟨_, _, rfl, U _ _ _ rfl h⟩))
  | inc rx => exact .inr (.inr (.inl ⟨_, _, rfl, U _ _ _ rfl h⟩))
  | dec rx => exact .inr (.inr (.inl ⟨_, _, rfl, U _ _ _ rfl h⟩))
  | jz m rx ry =>
    rcases B _ _ _ _ h with h | h | ⟨v, h⟩
    · exact .inl h
    · exact .inr (.inl ⟨nofun, h⟩)
    · exact .inr (.inr (.inl ⟨_, _, rfl, h⟩))
  | jnz m rx ry =>
    rcases B _ _ _ _ h with h | h | ⟨v, h⟩
    · exact .inl h
    · exact .inr (.inl ⟨nofun, h⟩)
    · exact .inr (.inr (.inl ⟨_, _, rfl, h⟩))
  | movDLI rx ry =>
    rcases L (fun _ => mergeDLI) rx ry h with ⟨v, h⟩ | h
    · exact .inr (.inr (.inl ⟨_, v, rfl, h⟩))
    · exact .inr (.inr (.inr (.inl ⟨rx, ry, .inl rfl, h⟩)))
  | movDUI rx ry =>
    rcases L (fun u => mergeDUI u.params.duiSource) rx ry h with ⟨v, h⟩ | h
    · exact .inr (.inr (.inl ⟨_, v, rfl, h⟩))
    · exact .inr (.inr (.inr (.inl ⟨rx, ry, .inr (.inl rfl), h⟩)))
  | movDWI rx ry =>
    rcases L (fun _ _ d => d) rx ry h with ⟨v, h⟩ | h
    · exact .inr (.inr (.inl ⟨_, v, rfl, h⟩))
    · exact .inr (.inr (.inr (.inl ⟨rx, ry, .inr (.inr (.inl rfl)), h⟩)))
  | movII rx ry =>
    have h : runTick (fun u => movIISetup rx ry (beginTick u)) (unlessHalted movIIComplete) s = .next t := h
    unfold runTick at h
    obtain ⟨u, hu, h⟩ := andThen_eq_next h
    have hu : busCycle (movIISetup rx ry (beginTick s)) = .next u := hu
    have h := Host.Outcome.next.inj h
    by_cases hp : s.pending = true
    · rw [show movIISetup rx ry (beginTick s) =
        requestWrite (s.reg rx) s.scratch (beginTick s) from if_pos hp] at hu
      have hxu : u.cpuState ≠ .halted := by rw [(busCycle_frame hu).2.2.1]; exact hx
      have hpu : u.pending = true := by rw [(busCycle_frame hu).2.2.2.1]; exact hp
      rw [unlessHalted, if_neg hxu, movIIComplete, if_pos hpu] at h
      subst h
      rcases busCycle_cases _ _ hu with ⟨h1, _⟩|⟨_, h1, _⟩|⟨_, h1, _⟩|⟨_, _, ha, hs, _⟩|⟨_, _, ha, hs, _⟩
      · cases h1
      · cases h1
      · cases h1
      · refine .inr (.inr (.inr (.inr (.inr (.inl ⟨rx, ry, rfl, hp, ha, ?_⟩)))))
        rw [hs]; rfl
      · refine .inr (.inr (.inr (.inr (.inr (.inr ⟨rx, ry, rfl, hp, ha, ?_⟩)))))
        rw [hs]; rfl
    · have hp' : s.pending = false := by simpa using hp
      rw [show movIISetup rx ry (beginTick s) = requestRead (s.reg ry) (beginTick s) from if_neg hp] at hu
      have hxu : u.cpuState ≠ .halted := by rw [(busCycle_frame hu).2.2.1]; exact hx
      have hpu : ¬ u.pending = true := by rw [(busCycle_frame hu).2.2.2.1]; exact hp
      rw [unlessHalted, if_neg hxu, movIIComplete, if_neg hpu] at h
      subst h
      rcases busCycle_cases _ _ hu with ⟨h1, _⟩|⟨_, _, ha, hs, hv, hd⟩|⟨_, _, ha, hs, hv⟩|⟨_, h1, _⟩|⟨_,
          h1, _⟩
      · cases h1
      · refine .inr (.inr (.inr (.inr (.inl ⟨rx, ry, rfl, hp', ha, ?_⟩))))
        rw [if_pos hv, hd, hs]; rfl
      · refine .inr (.inr (.inr (.inl ⟨rx, ry, .inr (.inr (.inr ⟨rfl, hp'⟩)), ha, ?_⟩)))
        rw [if_neg (by simp [hv]), hs]; rfl
      · cases h1
      · cases h1
  | unassigned17 => cases hw
  | unassigned18 => cases hw
  | unassigned19 => cases hw
  | unassigned1A => cases hw
  | unassigned1B => cases hw
  | unassigned1C => cases hw
  | unassigned1D => cases hw
  | unassigned1E => cases hw
  | unassigned1F => cases hw
  | _ => exact .inl (H _ _ _ rfl h)

/-- The fields that decode to MOV II (30_encoding.md R104). -/
theorem movOfMode_eq_movII {m : BitVec 3} {a b : RegIdx} {rx ry : RegIdx}
    (h : movOfMode m a b = .movII rx ry) : m = Config.modeII ∧ a = rx ∧ b = ry := by
  rcases m with ⟨⟨m, hm⟩⟩
  interval_cases m <;> first
    | exact absurd h Instr.noConfusion
    | (cases h; exact ⟨rfl, rfl, rfl⟩)

/-- The latched fields of MOV II. -/
theorem instr_eq_movII {f : Fields} {rx ry : RegIdx} (h : f.instr = .movII rx ry) : f.op = Config.opMOV ∧
    f.mode = Config.modeII ∧ f.rx = rx ∧ f.ry = ry := by
  rcases f with ⟨op, mode, a, b, rl, imm⟩
  rcases op with ⟨⟨n, hn⟩⟩
  interval_cases n <;> first
    | exact absurd h Instr.noConfusion
    | exact ⟨rfl, movOfMode_eq_movII h⟩

/-- The fields of MOV II decode to it. -/
theorem instr_of_movII {f : Fields} (h1 : f.op = Config.opMOV) (h2 : f.mode = Config.modeII) : f.instr =
    .movII f.rx f.ry := by
  rcases f with ⟨op, mode, a, b, rl, imm⟩
  cases h1; cases h2; rfl

end Sys2Proof.Machine
end

