-- ==== Sys2Proof/Laws/PerInstr.lean ====
section
/-! SUPPORT. One lemma per constructor of `Instr`: the family `EncoderAccepts`. -/

namespace Sys2Proof.Laws.EncoderAccepts

/-- The encoder's range checks (30_encoding.md R108) accept the instruction's own operands, whatever they
are, and pack the word `encode` gives. -/
def Statement (i : Instr) : Prop := i.raw.encode = .ok (encode i)

/-- Format RR in range. -/
theorem rr_ok (op : BitVec 5) (m : BitVec 3) (rx ry : RegIdx) :
    (RawInstr.rr op.toNat m.toNat rx.toNat ry.toNat).encode =
      .ok (encodeRR op.toNat m.toNat rx.toNat ry.toNat) := by
  simp [RawInstr.encode, RawInstr.check, checkField, op.isLt, m.isLt, rx.isLt, ry.isLt]

/-- Format RI in range. -/
theorem ri_ok (op : BitVec 5) (rl : BitVec 3) (imm : Byte) :
    (RawInstr.ri op.toNat rl.toNat imm.toNat).encode = .ok (encodeRI op.toNat rl.toNat imm.toNat) := by
  simp [RawInstr.encode, RawInstr.check, checkField, op.isLt, rl.isLt, imm.isLt]

/-- Format R in range. -/
theorem r_ok (op : BitVec 5) (rx : RegIdx) :
    (RawInstr.r op.toNat rx.toNat).encode = .ok (encodeR op.toNat rx.toNat) := by
  simp [RawInstr.encode, RawInstr.check, checkField, op.isLt, rx.isLt]

/-- Format N in range. -/
theorem n_ok (op : BitVec 5) : (RawInstr.n op.toNat).encode = .ok (encodeN op.toNat) := by
  simp [RawInstr.encode, RawInstr.check, checkField, op.isLt]

theorem halt : Statement (.halt) := n_ok Config.opHALT
theorem nop : Statement (.nop) := n_ok Config.opNOP
theorem movDD (rx ry : RegIdx) : Statement (.movDD rx ry) := rr_ok Config.opMOV Config.modeDD rx ry
theorem movDLI (rx ry : RegIdx) : Statement (.movDLI rx ry) := rr_ok Config.opMOV Config.modeDLI rx ry
theorem movDUI (rx ry : RegIdx) : Statement (.movDUI rx ry) := rr_ok Config.opMOV Config.modeDUI rx ry
theorem movDWI (rx ry : RegIdx) : Statement (.movDWI rx ry) := rr_ok Config.opMOV Config.modeDWI rx ry
theorem movII (rx ry : RegIdx) : Statement (.movII rx ry) := rr_ok Config.opMOV Config.modeII rx ry
theorem movIDL (rx ry : RegIdx) : Statement (.movIDL rx ry) := rr_ok Config.opMOV Config.modeIDL rx ry
theorem movIDU (rx ry : RegIdx) : Statement (.movIDU rx ry) := rr_ok Config.opMOV Config.modeIDU rx ry
theorem movIWD (rx ry : RegIdx) : Statement (.movIWD rx ry) := rr_ok Config.opMOV Config.modeIWD rx ry
theorem ldi (rl : BitVec 3) (imm : Byte) : Statement (.ldi rl imm) := ri_ok Config.opLDI rl imm
theorem ldu (rl : BitVec 3) (imm : Byte) : Statement (.ldu rl imm) := ri_ok Config.opLDU rl imm
theorem ldo (rl : BitVec 3) (imm : Byte) : Statement (.ldo rl imm) := ri_ok Config.opLDO rl imm
theorem inc (rx : RegIdx) : Statement (.inc rx) := r_ok Config.opINC rx
theorem dec (rx : RegIdx) : Statement (.dec rx) := r_ok Config.opDEC rx
theorem jz (mode : BitVec 3) (rx ry : RegIdx) : Statement (.jz mode rx ry) := rr_ok Config.opJZ mode rx ry
theorem jnz (mode : BitVec 3) (rx ry : RegIdx) : Statement (.jnz mode rx ry) := rr_ok Config.opJNZ mode rx ry
theorem jmp (rx : RegIdx) : Statement (.jmp rx) := r_ok Config.opJMP rx
theorem call (rx : RegIdx) : Statement (.call rx) := r_ok Config.opCALL rx
theorem ret : Statement (.ret) := n_ok Config.opRET
theorem push (rx : RegIdx) : Statement (.push rx) := r_ok Config.opPUSH rx
theorem pop (rx : RegIdx) : Statement (.pop rx) := r_ok Config.opPOP rx
theorem add (mode : BitVec 3) (rx ry : RegIdx) : Statement (.add mode rx ry) := rr_ok Config.opADD mode rx ry
theorem sub (mode : BitVec 3) (rx ry : RegIdx) : Statement (.sub mode rx ry) := rr_ok Config.opSUB mode rx ry
theorem and (mode : BitVec 3) (rx ry : RegIdx) : Statement (.and mode rx ry) := rr_ok Config.opAND mode rx ry
theorem or (mode : BitVec 3) (rx ry : RegIdx) : Statement (.or mode rx ry) := rr_ok Config.opOR mode rx ry
theorem xor (mode : BitVec 3) (rx ry : RegIdx) : Statement (.xor mode rx ry) := rr_ok Config.opXOR mode rx ry
theorem not (rx : RegIdx) : Statement (.not rx) := r_ok Config.opNOT rx
theorem shl (mode : BitVec 3) (rx ry : RegIdx) : Statement (.shl mode rx ry) := rr_ok Config.opSHL mode rx ry
theorem shr (mode : BitVec 3) (rx ry : RegIdx) : Statement (.shr mode rx ry) := rr_ok Config.opSHR mode rx ry
theorem unassigned17 : Statement (.unassigned17) := n_ok 0x17
theorem unassigned18 : Statement (.unassigned18) := n_ok 0x18
theorem unassigned19 : Statement (.unassigned19) := n_ok 0x19
theorem unassigned1A : Statement (.unassigned1A) := n_ok 0x1A
theorem unassigned1B : Statement (.unassigned1B) := n_ok 0x1B
theorem unassigned1C : Statement (.unassigned1C) := n_ok 0x1C
theorem unassigned1D : Statement (.unassigned1D) := n_ok 0x1D
theorem unassigned1E : Statement (.unassigned1E) := n_ok 0x1E
theorem unassigned1F : Statement (.unassigned1F) := n_ok 0x1F

end Sys2Proof.Laws.EncoderAccepts
end

