-- ==== Sys2Proof/Tests/Slice0.lean ====
section
/-! SUPPORT. The row's own tests: small closed facts, each by `decide`. Expected values come from the
encodings of 30_encoding.md and 41_noop.md to 46_reserved.md and from the vectors of 95_test_vectors.md,
named by their ids. After them, one witness for the hypotheses of every statement of
Certificates/Slice0/Obligations.lean, clause by clause. -/

namespace Sys2Proof.Tests

open Sys2Proof.Machine

/-! ### Helpers -/

/-- The next state a result answers, if any. -/
def nextOf : Result → Option State
  | .next s => some s
  | .fault _ => none
  | .refused _ => none

/-- The result is the fault of 20_memory.md R67. -/
def faults : Result → Bool
  | .next _ => false
  | .fault .busOutOfRange => true
  | .refused _ => false

/-- The result refuses an image. -/
def refusesImage : Result → Bool
  | .refused .imageTooLarge => true
  | _ => false

/-- `s` with registers and RAM bytes set. -/
def preset (s : State) (regs : List (RegIdx × Word)) (bytes : List (Nat × Byte)) : State :=
  bytes.foldl (fun s c => s.writeByte c.1 c.2) (regs.foldl (fun s r => s.setReg r.1 r.2) s)

/-- The setup of section 3 of 95_test_vectors.md: reset, presets, and the word at the PC. -/
def loaded (w : Nat) (regs : List (RegIdx × Word)) (bytes : List (Nat × Byte)) : State :=
  (preset State.reset regs bytes).withFetchWord 16 w

/-- One step of that setup. -/
def ran (w : Nat) (regs : List (RegIdx × Word)) (bytes : List (Nat × Byte)) : Option State :=
  nextOf (step (loaded w regs bytes))

/-- A CPU that has fetched the word `w` at 0x0100 and latched it: Execute, two ticks counted. -/
def latched (w : Word) (regs : List (RegIdx × Word)) (bytes : List (Nat × Byte)) : State :=
  { preset State.reset ((Config.idxIR, w) :: (Config.idxPC, 0x0102) :: regs) bytes with
    cpuState := .execute
    dec := Fields.ofWord w
    cycle := 2 }

/-- The same with a word of MOV II read and its write pending. -/
def pendingII (regs : List (RegIdx × Word)) : State :=
  { latched 0x1421 regs [] with pending := true, scratch := 0x4241 }

/-- A CPU that has halted on a HALT at 0x0100. -/
def stopped : State :=
  { State.reset.setReg Config.idxPC 0x0102 with
    cpuState := .halted
    cycle := 3
    haltRecord := some { cause := .haltInstruction, op := 0, mode := 0, cycle := 3 } }

/-- The parameters with the other reading of every open point. -/
def otherParams : Params :=
  { Params.canonical with
    ldiUpper := .clear
    duiSource := .high
    nopBehaviour := .notImplemented }

/-- The halt record and PC of a result. -/
def haltOf (s : Option State) : Option (Option HaltRecord × Word) := s.map fun t => (t.haltRecord, t.pc)

/-! ### WellFormed: each check refuses an ill-formed term -/

theorem test_check_op : RawInstr.check (.n 32) = .error .opRange := by decide
theorem test_check_mode : RawInstr.check (.rr 2 8 0 0) = .error .modeRange := by decide
theorem test_check_rx : RawInstr.check (.rr 2 0 16 0) = .error .rxRange := by decide
theorem test_check_ry : RawInstr.check (.rr 2 0 0 16) = .error .ryRange := by decide
theorem test_check_rl : RawInstr.check (.ri 3 8 0) = .error .rlRange := by decide
theorem test_check_imm : RawInstr.check (.ri 3 0 256) = .error .immRange := by decide
theorem test_check_r : RawInstr.check (.r 6 16) = .error .rxRange ∧
    RawInstr.check (.r 32 0) = .error .opRange := by decide
theorem test_wellFormed_unassigned : Instr.wellFormed .unassigned17 = false ∧
    Instr.wellFormed .unassigned1F = false := by decide
theorem test_assemblable_mode : Instr.assemblable (.jz 1 2 3) = false ∧
    Instr.assemblable (.add 7 1 2) = false ∧ Instr.assemblable (.jz 0 2 3) = true := by decide

/-! ### Decoding: words written out from the formats (R91 to R94, R100, R104) -/

theorem test_decode_noop : decodeWord 0b00000_00000000000 = .halt ∧
    decodeWord 0b00000_11111111111 = .halt ∧ decodeWord 0b00001_00000000000 = .nop ∧
    decodeWord 0b00001_11111111111 = .nop := by decide
theorem test_decode_mov_loads : decodeWord 0b00010_000_0111_0110 = .movDD 7 6 ∧
    decodeWord 0b00010_001_0101_0001 = .movDLI 5 1 ∧ decodeWord 0b00010_010_0101_0001 = .movDUI 5 1 ∧
    decodeWord 0b00010_011_0110_0001 = .movDWI 6 1 := by decide
theorem test_decode_mov_stores : decodeWord 0b00010_100_0010_0001 = .movII 2 1 ∧
    decodeWord 0b00010_101_0001_0010 = .movIDL 1 2 ∧ decodeWord 0b00010_110_0001_0010 = .movIDU 1 2 ∧
    decodeWord 0b00010_111_1111_1110 = .movIWD 15 14 := by decide
theorem test_decode_loadimm : decodeWord 0b00011_010_00001101 = .ldi 2 0x0D ∧
    decodeWord 0b00100_100_00010010 = .ldu 4 0x12 ∧ decodeWord 0b00101_111_11111111 = .ldo 7 0xFF := by
  decide
theorem test_decode_incdec : decodeWord 0b00110_000_0001_0000 = .inc 1 ∧
    decodeWord 0b00110_111_0001_1111 = .inc 1 ∧ decodeWord 0b00111_000_1111_0000 = .dec 15 := by decide
theorem test_decode_condjump : decodeWord 0b01000_000_0010_0011 = .jz 0 2 3 ∧
    decodeWord 0b01000_001_0010_0011 = .jz 1 2 3 ∧ decodeWord 0b01001_111_0010_0011 = .jnz 7 2 3 := by
  decide
theorem test_decode_reserved_control : decodeWord 0b01010_000_0011_0000 = .jmp 3 ∧
    decodeWord 0b01011_000_0011_0000 = .call 3 ∧ decodeWord 0b01100_11111111111 = .ret ∧
    decodeWord 0b01101_000_0001_0000 = .push 1 ∧ decodeWord 0b01110_101_0001_1111 = .pop 1 := by decide
theorem test_decode_reserved_alu : decodeWord 0b01111_000_0001_0010 = .add 0 1 2 ∧
    decodeWord 0b10000_001_0001_0010 = .sub 1 1 2 ∧ decodeWord 0b10001_010_0001_0010 = .and 2 1 2 ∧
    decodeWord 0b10010_011_0001_0010 = .or 3 1 2 ∧ decodeWord 0b10011_100_0001_0010 = .xor 4 1 2 ∧
    decodeWord 0b10100_101_0001_0010 = .not 1 ∧ decodeWord 0b10101_110_0001_0010 = .shl 6 1 2 ∧
    decodeWord 0b10110_111_0001_0010 = .shr 7 1 2 := by decide
theorem test_decode_unassigned : decodeWord 0b10111_00000000000 = .unassigned17 ∧
    decodeWord 0b11000_00000000000 = .unassigned18 ∧ decodeWord 0b11001_00000000000 = .unassigned19 ∧
    decodeWord 0b11010_00000000000 = .unassigned1A ∧ decodeWord 0b11011_00000000000 = .unassigned1B ∧
    decodeWord 0b11100_00000000000 = .unassigned1C ∧ decodeWord 0b11101_00000000000 = .unassigned1D ∧
    decodeWord 0b11110_00000000000 = .unassigned1E ∧ decodeWord 0b11111_11111111111 = .unassigned1F := by
  decide
/-- 95_test_vectors.md 5.1: the six latched fields, and the encoder's words and bytes. -/
theorem test_fields_and_encode : Fields.ofWord 0x17FF = ⟨0x02, 7, 15, 15, 7, 0xFF⟩ ∧
    Fields.ofWord 0x2412 = ⟨0x04, 4, 1, 2, 4, 0x12⟩ ∧ encodeBytes (.movII 0 1) = [0x01, 0x14] ∧
    encodeBytes (.dec 15) = [0xF0, 0x38] ∧ encodeBytes (.jnz 0 2 3) = [0x23, 0x48] := by decide
/-- 95_test_vectors.md 2.3, the word 0xA5C3. -/
theorem test_extract_pack : extract 0xA5C3 11 5 = 0x14 ∧ pack 0x14 11 5 = 0xA000 ∧
    extract 0xA5C3 8 3 = 5 ∧ extract 0xA5C3 4 4 = 0xC ∧ pack 0xC 4 4 = 0x00C0 ∧
    extract 0xA5C3 0 8 = 0xC3 := by decide
theorem test_decode_truncated : decode [] = .error .truncated ∧ decode [0x76] = .error .truncated ∧
    decode [0x76, 0x10, 0xAA] = .ok (.movDD 7 6, [0xAA]) := by decide
theorem test_decodeTableWord : decodeTableWord 16 0x1A0D = some (.ldi 2 0x0D) ∧
    decodeTableWord 16 0xFFFF = some .unassigned1F := by decide

/-! ### One step of each instruction (95_test_vectors.md section 3) -/

theorem test_halt_H2 : haltOf (ran 0x07FF [] []) =
    some (some ⟨.haltInstruction, 0x00, 7, 3⟩, 0x0102) := by decide
theorem test_nop_N2 : (ran 0x0FFF [] []).map (fun t => (t.cpuState, t.cycle, t.pc, t.regs[0])) =
    some (.fetch, 3, 0x0102, 0) := by decide
theorem test_nop_N3 : haltOf (nextOf (step ({ State.reset with params := otherParams }.withFetchWord 16
    0x0800))) = some (some ⟨.notImplemented, 0x01, 0, 3⟩, 0x0102) := by decide
theorem test_movDD_M1 : (ran 0x1076 [(6, 0x4241)] []).map (·.reg 7) = some 0x4241 := by decide
theorem test_movDD_M3_M4 : (ran 0x101D [] []).map (·.reg 1) = some 0x0102 ∧
    (ran 0x101C [] []).map (·.reg 1) = some 0x101C := by decide
theorem test_movDLI_M8 : (ran 0x1151 [(1, 0x0110), (5, 0x1234)] [(0x0110, 0x41), (0x0111, 0x42)]).map
    (·.reg 5) = some 0x1241 := by decide
theorem test_movDLI_M13 : (ran 0x1111 [(1, 0x0110)] [(0x0110, 0x41), (0x0111, 0x42)]).map
    (·.reg 1) = some 0x0141 := by decide
theorem test_movDUI_M9 : (ran 0x1251 [(1, 0x0110), (5, 0x1241)] [(0x0110, 0x41), (0x0111, 0x42)]).map
    (·.reg 5) = some 0x4141 := by decide
theorem test_movDUI_M9_high : (nextOf (step { loaded 0x1251 [(1, 0x0110), (5, 0x1241)]
    [(0x0110, 0x41), (0x0111, 0x42)] with params := otherParams })).map (·.reg 5) = some 0x4241 := by decide
theorem test_movDWI_M14 : (ran 0x1361 [(1, 0xFFFE)] [(0xFFFE, 0x34), (0xFFFF, 0x12)]).map
    (·.reg 6) = some 0x1234 := by decide
theorem test_movDWI_M16_M17 : faults (step (loaded 0x1361 [(1, 0xFFFF)] [])) = true ∧
    (ran 0x1361 [] []).map (fun t => (t.cpuState, t.cycle, t.pc)) = some (.execute, 3, 0x0102) := by decide
theorem test_movII_M21 : (ran 0x1421 [(1, 0x0110), (2, 0x0111)]
    [(0x0110, 0x41), (0x0111, 0x42), (0x0112, 0x43)]).map
    (fun t => (t.readByte 0x0110, t.readByte 0x0111, t.readByte 0x0112, t.cycle)) =
    some (0x41, 0x41, 0x42, 4) := by decide
theorem test_movII_M23 : (ran 0x1401 [(1, 0x0110)] [(0x0110, 0x48), (0x0111, 0x65)]).map
    (fun t => (t.conBuffer, t.conLines, t.readByte 0)) = some ([0x48], [], 0) := by decide
theorem test_movII_M24 : (ran 0x1401 [(1, 0x0110)] [(0x0110, 0x0A), (0x0111, 0x65)]).map
    (fun t => (t.conBuffer, t.conLines)) = some ([], [[]]) := by decide
theorem test_movII_M27 : faults (step (loaded 0x1421 [(1, 0x0110), (2, 0xFFFF)] [])) = true := by decide
theorem test_movIDL_M30 : haltOf (ran 0x1512 [(1, 0x0110)] []) =
    some (some ⟨.unsupportedMode, 0x02, 5, 3⟩, 0x0102) := by decide
theorem test_movIDU_M31 : haltOf (ran 0x1612 [(1, 0x0110)] []) =
    some (some ⟨.unsupportedMode, 0x02, 6, 3⟩, 0x0102) := by decide
theorem test_movIWD_M32 : haltOf (ran 0x1712 [(1, 0x0110)] []) =
    some (some ⟨.unsupportedMode, 0x02, 7, 3⟩, 0x0102) := by decide
theorem test_ldi_L2 : (ran 0x1A0D [(2, 0xAB00)] []).map (·.reg 2) = some 0xAB0D := by decide
theorem test_ldi_L2_clear : (nextOf (step { loaded 0x1A0D [(2, 0xAB00)] [] with
    params := otherParams })).map (·.reg 2) = some 0x000D := by decide
theorem test_ldu_L6 : (ran 0x2400 [(4, 0xABCD)] []).map (·.reg 4) = some 0x00CD := by decide
theorem test_ldo_L10 : (ran 0x29FF [] []).map (·.reg 1) = some 0x01FF := by decide
theorem test_ldo_L11 : (ran 0x2920 [(Config.idxPC, 0xFFF0)] []).map (·.reg 1) = some 0x0010 := by decide
theorem test_inc_I2 : (ran 0x3010 [(1, 0xFFFF)] []).map (fun t => (t.reg 1, t.flags)) =
    some (0x0000, 0) := by decide
theorem test_inc_I10 : (ran 0x30D0 [] []).map (·.pc) = some 0x0103 := by decide
theorem test_dec_I7 : (ran 0x3820 [] []).map (fun t => (t.reg 2, t.flags)) = some (0xFFFF, 0) := by decide
theorem test_jz_J1_J3 : (ran 0x4023 [(3, 0x0200)] []).map (·.pc) = some 0x0200 ∧
    (ran 0x4023 [(2, 0x8000), (3, 0x0200)] []).map (·.pc) = some 0x0102 := by decide
theorem test_jz_J10 : haltOf (ran 0x4123 [(3, 0x0200)] []) =
    some (some ⟨.unsupportedMode, 0x08, 1, 3⟩, 0x0102) := by decide
theorem test_jnz_J4_J5 : (ran 0x4823 [(2, 0x000C), (3, 0x0200)] []).map (·.pc) = some 0x0200 ∧
    (ran 0x4823 [(3, 0x0200)] []).map (·.pc) = some 0x0102 := by decide
theorem test_jnz_J11 : haltOf (ran 0x4F23 [(2, 0x0001), (3, 0x0200)] []) =
    some (some ⟨.unsupportedMode, 0x09, 7, 3⟩, 0x0102) := by decide
theorem test_reserved_X1_to_X5 :
    haltOf (ran 0x5030 [] []) = some (some ⟨.notImplemented, 0x0A, 0, 3⟩, 0x0102) ∧
    haltOf (ran 0x5830 [] []) = some (some ⟨.notImplemented, 0x0B, 0, 3⟩, 0x0102) ∧
    haltOf (ran 0x67FF [] []) = some (some ⟨.notImplemented, 0x0C, 7, 3⟩, 0x0102) ∧
    haltOf (ran 0x6810 [] []) = some (some ⟨.notImplemented, 0x0D, 0, 3⟩, 0x0102) ∧
    haltOf (ran 0x7010 [] []) = some (some ⟨.notImplemented, 0x0E, 0, 3⟩, 0x0102) := by decide
theorem test_reserved_X9_to_X14 :
    haltOf (ran 0x7F12 [(1, 5)] []) = some (some ⟨.notImplemented, 0x0F, 7, 3⟩, 0x0102) ∧
    haltOf (ran 0x8012 [] []) = some (some ⟨.notImplemented, 0x10, 0, 3⟩, 0x0102) ∧
    haltOf (ran 0x8812 [] []) = some (some ⟨.notImplemented, 0x11, 0, 3⟩, 0x0102) ∧
    haltOf (ran 0x9012 [] []) = some (some ⟨.notImplemented, 0x12, 0, 3⟩, 0x0102) ∧
    haltOf (ran 0x9812 [] []) = some (some ⟨.notImplemented, 0x13, 0, 3⟩, 0x0102) := by decide
theorem test_reserved_X11_to_X13 :
    haltOf (ran 0xA010 [] []) = some (some ⟨.notImplemented, 0x14, 0, 3⟩, 0x0102) ∧
    haltOf (ran 0xA812 [] []) = some (some ⟨.notImplemented, 0x15, 0, 3⟩, 0x0102) ∧
    haltOf (ran 0xB012 [] []) = some (some ⟨.notImplemented, 0x16, 0, 3⟩, 0x0102) := by decide
theorem test_unassigned_U1_to_U5 :
    haltOf (ran 0xBF00 [] []) = some (some ⟨.unrecognizedOpcode, 0x17, 7, 2⟩, 0x0102) ∧
    haltOf (ran 0xC000 [] []) = some (some ⟨.unrecognizedOpcode, 0x18, 0, 2⟩, 0x0102) ∧
    haltOf (ran 0xC800 [] []) = some (some ⟨.unrecognizedOpcode, 0x19, 0, 2⟩, 0x0102) ∧
    haltOf (ran 0xD000 [] []) = some (some ⟨.unrecognizedOpcode, 0x1A, 0, 2⟩, 0x0102) ∧
    haltOf (ran 0xD800 [] []) = some (some ⟨.unrecognizedOpcode, 0x1B, 0, 2⟩, 0x0102) := by decide
theorem test_unassigned_U6_to_U10 :
    haltOf (ran 0xE000 [] []) = some (some ⟨.unrecognizedOpcode, 0x1C, 0, 2⟩, 0x0102) ∧
    haltOf (ran 0xE800 [] []) = some (some ⟨.unrecognizedOpcode, 0x1D, 0, 2⟩, 0x0102) ∧
    haltOf (ran 0xF000 [] []) = some (some ⟨.unrecognizedOpcode, 0x1E, 0, 2⟩, 0x0102) ∧
    haltOf (ran 0xFFFF [] []) = some (some ⟨.unrecognizedOpcode, 0x1F, 7, 2⟩, 0x0102) := by decide

/-! ### Memory form and the host -/

theorem test_write_of_fill_removes : memWrite 0 (memWrite 0 [] 5 7) 5 0 = [] ∧
    memWrite 0 (memWrite 0 [] 9 1) 5 7 = [(5, 7), (9, 1)] := by decide
theorem test_loadImage : (nextOf (loadImage [0x01, 0x14] State.reset)).map (·.ram) =
    some [(0x0100, 0x01), (0x0101, 0x14)] := by decide

/-! ### The assembler (95_test_vectors.md sections 1.1 and 2.2, 31_assembler.md) -/

theorem test_lex_tokens : Asm.lex "loop: mov @r0,$r1 ; note".toList = .ok
    [⟨.labelDefinition, "loop".toList⟩, ⟨.opcode, "mov".toList⟩, ⟨.registerIndirect, "r0".toList⟩,
     ⟨.registerDirect, "r1".toList⟩] := by decide
theorem test_lex_run : Asm.lex "#'a; b\\n' =x".toList = .ok
    [⟨.immediateAsciiRun, ['a', ';', ' ', 'b', '\n']⟩, ⟨.labelImmediate, ['x']⟩] := by decide
theorem test_lex_escape_error : Asm.lex "#'a\\t'".toList = .error (.badEscape "\\t".toList) := by decide
theorem test_assemble_loop : Asm.assemble 0x0100
    "ldo $r3, =l\n l: mov @r0, @r1\n jnz $r2, $r3\n halt\n m: #'H\\n'".toList =
    .ok [0x02, 0x2B, 0x01, 0x14, 0x23, 0x48, 0x00, 0x00, 0x48, 0x0A] := by decide
theorem test_assemble_undefined : Asm.assemble 0x0100 "ldo $r1, =nowhere\n halt".toList =
    .error (.undefinedLabel "nowhere".toList) := by decide
theorem test_assemble_backward : Asm.assemble 0x0100 "a: halt\n ldo $r1, =a".toList =
    .error (.labelOutOfRange (-2)) := by decide
theorem test_assemble_ranges : Asm.assemble 0x0100 "ldi $r8, #d1".toList =
    .error (.notLowRegister "r8".toList) ∧
    Asm.assemble 0x0100 "ldi $r1, #d256".toList = .error (.immediateOutOfRange 256) := by decide

/-! ### Witnesses: the hypotheses of every statement can be met -/

theorem inv_latched : (latched 0x1076 [] []).Inv :=
  ⟨by decide, by decide, by decide, by decide, by decide, by decide, by decide⟩
theorem inv_latched_II : (latched 0x1421 [(1, 0x0110), (2, 0x0111)] [(0x0110, 0x41)]).Inv :=
  ⟨by decide, by decide, by decide, by decide, by decide, by decide, by decide⟩
theorem inv_pendingII : (pendingII [(2, 0xFFFE)]).Inv :=
  ⟨by decide, by decide, by decide, by decide, by decide, by decide, by decide⟩
theorem inv_pendingII_console : (pendingII []).Inv :=
  ⟨by decide, by decide, by decide, by decide, by decide, by decide, by decide⟩
theorem inv_stopped : stopped.Inv :=
  ⟨by decide, by decide, by decide, by decide, by decide, by decide, by decide⟩
theorem inv_loaded : (loaded 0x1401 [(1, 0x0110)] [(0x0110, 0x48)]).Inv :=
  ⟨by decide, by decide, by decide, by decide, by decide, by decide, by decide⟩

theorem witness_ExtractArmsGiveTheFieldBits : 11 + 5 ≤ 16 ∧ 11 + 5 = 16 ∧ 8 + 3 ≤ 16 ∧ 16 + 0 = 16 := by
  decide
theorem witness_FieldPrimitivesExtractAndPack : 11 + 5 ≤ 16 ∧ 0 + 8 ≤ 16 ∧ 0 + 16 ≤ 16 := by decide
theorem witness_EncoderRefusesExactlyOutOfRange :
    (RawInstr.rr 31 7 15 15).encode = .ok 0xFFFF ∧ (RawInstr.ri 31 7 255).encode = .ok 0xFFFF ∧
    (RawInstr.r 31 15).encode = .ok 0xF8F0 ∧ (RawInstr.n 31).encode = .ok 0xF800 ∧
    (RawInstr.rr 32 0 0 0).encode = .error .opRange := by decide
/-- A running, a pending and a halted state that meet the invariant all step to a next state. -/
theorem witness_StepKeepsTheInvariant :
    (latched 0x1076 [] []).Inv ∧ (nextOf (step (latched 0x1076 [] []))).isSome = true ∧
    (pendingII []).Inv ∧ (nextOf (step (pendingII []))).isSome = true ∧
    stopped.Inv ∧ (nextOf (step stopped)).isSome = true :=
  ⟨inv_latched, by decide, inv_pendingII_console, by decide, inv_stopped, by decide⟩
theorem witness_TickKeepsTheInvariant :
    (pendingII [(2, 0xFFFE)]).Inv ∧ (nextOf (tick (pendingII [(2, 0xFFFE)]))).isSome = true :=
  ⟨inv_pendingII, by decide⟩
theorem witness_StepIsOneToFourTicks : (loaded 0x1401 [(1, 0x0110)] [(0x0110, 0x48)]).Inv := inv_loaded
theorem witness_StepRunsTheDecodedInstruction :
    (loaded 0x1076 [(Config.idxPC, 0xFFFE)] []).cpuState = .fetch ∧
    RamWordAddress (loaded 0x1076 [(Config.idxPC, 0xFFFE)] []).pc ∧
    decode [(loaded 0x1076 [(Config.idxPC, 0xFFFE)] []).readByte 0xFFFE,
      (loaded 0x1076 [(Config.idxPC, 0xFFFE)] []).readByte 0xFFFF] = .ok (.movDD 7 6, []) ∧
    RamWordAddress (loaded 0xF800 [(Config.idxPC, 0x0001)] []).pc ∧
    decode [(loaded 0xF800 [(Config.idxPC, 0x0001)] []).readByte 1,
      (loaded 0xF800 [(Config.idxPC, 0x0001)] []).readByte 2] = .ok (.unassigned1F, []) := by
  unfold RamWordAddress; decide
theorem witness_FetchTickByAddress : State.reset.cpuState = .fetch ∧
    RamWordAddress (State.reset.setReg Config.idxPC 0x0001).pc ∧
    RamWordAddress (State.reset.setReg Config.idxPC 0xFFFE).pc ∧
    (State.reset.setReg Config.idxPC 0x0000).pc = 0x0000 ∧
    (State.reset.setReg Config.idxPC 0xFFFF).pc = 0xFFFF := by
  unfold RamWordAddress; decide
/-- One word of each halting class, and an executable word of the opcodes at the classes' edges. -/
theorem witness_EveryWordHaltsByItsClassOrNotAtAll :
    (loaded 0xB800 [] []).cpuState = .fetch ∧ RamWordAddress (loaded 0xB800 [] []).pc ∧
    (loaded 0xB800 [] []).readWord 0x0100 = 0xB800 ∧
    haltClass Params.canonical 0x17 0 = some .unrecognizedOpcode ∧
    haltClass Params.canonical 0x16 7 = some .notImplemented ∧
    haltClass Params.canonical 0x0A 0 = some .notImplemented ∧
    haltClass Params.canonical 0x00 7 = some .haltInstruction ∧
    haltClass Params.canonical 0x02 5 = some .unsupportedMode ∧
    haltClass Params.canonical 0x09 1 = some .unsupportedMode ∧
    haltClass otherParams 0x01 0 = some .notImplemented ∧
    haltClass Params.canonical 0x01 0 = none ∧ haltClass Params.canonical 0x02 4 = none ∧
    haltClass Params.canonical 0x07 7 = none ∧ haltClass Params.canonical 0x09 0 = none ∧
    (nextOf (step (loaded 0x3820 [] []))).isSome = true := by
  unfold RamWordAddress; decide
/-- MOV II that finishes, and a load of the console that is left in Execute. -/
theorem witness_TicksPerInstruction :
    (ran 0x1421 [(1, 0x0110), (2, 0x0111)] []).map (fun t => (t.cpuState, t.cycle)) = some (.fetch, 4) ∧
    (ran 0x1361 [] []).map (fun t => (t.cpuState, t.cycle)) = some (.execute, 3) ∧
    (loaded 0x1361 [] []).cpuState = .fetch ∧ (loaded 0x1361 [] []).pending = false ∧
    RamWordAddress (loaded 0x1361 [] []).pc := by
  unfold RamWordAddress; decide
theorem witness_HaltedIsTerminal : stopped.Inv ∧ stopped.cpuState = .halted := ⟨inv_stopped, rfl⟩
/-- A running state that halts in this step, and a halted one whose record stays. -/
theorem witness_HaltRecordIsWrittenOnce :
    State.reset.cpuState ≠ .halted ∧ (nextOf (step State.reset)).map (·.cpuState) = some .halted ∧
    (nextOf (step (latched 0x1076 [] []))).map (·.cpuState) = some .fetch ∧
    stopped.haltRecord = some ⟨.haltInstruction, 0, 0, 3⟩ ∧ (nextOf (step stopped)).isSome = true := by
  decide
theorem witness_StepCountsTicksAndKeepsParameters :
    (nextOf (step stopped)).isSome = true ∧ stopped.cpuState = .halted ∧
    (nextOf (step State.reset)).isSome = true ∧ State.reset.cpuState = .fetch ∧
    (nextOf (step { State.reset with cpuState := .decode })).isSome = true ∧
    (nextOf (step (latched 0x1076 [] []))).isSome = true ∧
    (latched 0x1076 [] []).dec.declared = true := by decide
theorem witness_FetchAtTheConsoleHangs : (State.reset.setReg Config.idxPC 0).cpuState = .fetch ∧
    (State.reset.setReg Config.idxPC 0).pc = 0x0000 := by decide
theorem witness_ExecuteOnTheConsoleHangs :
    (latched 0x1361 [] []).cpuState = .execute ∧ (latched 0x1361 [] []).pending = false ∧
    (latched 0x1161 [] []).dec.instr = .movDLI 6 1 ∧ (latched 0x1261 [] []).dec.instr = .movDUI 6 1 ∧
    (latched 0x1361 [] []).dec.instr = .movDWI 6 1 ∧ (latched 0x1421 [] []).dec.instr = .movII 2 1 ∧
    (latched 0x1361 [] []).reg 1 = 0x0000 := by decide
/-- Two different states that agree but for pins and tick counts. -/
theorem witness_PinsAndTickCountsDoNotInfluence :
    State.reset.untimed =
      { State.reset with cycle := 5, cpuPins := ⟨0x1234, 0x5678, true, true⟩ }.untimed ∧
    State.reset ≠ { State.reset with cycle := 5, cpuPins := ⟨0x1234, 0x5678, true, true⟩ } := by decide

/-- A state whose CPU makes the request. -/
def requesting (a d : Word) (read : Bool) : State := { State.reset with cpuPins := ⟨a, d, read, true⟩ }
/-- A state whose RAM process has the transaction. -/
def ramAsked (a d : Word) (read : Bool) : State := { State.reset with ramPins := ⟨a, d, read, true⟩ }
/-- A state whose console process is handed the data. -/
def conAsked (d : Word) : State := { State.reset with conPins := ⟨0, d, false, true⟩ }

theorem witness_BusSetupRoutesByAddress :
    (requesting 0 1 false).cpuPins.valid = true ∧
    (requesting 0 1 false).cpuPins.address = Config.consoleAddr ∧
    (requesting 1 1 true).cpuPins.valid = true ∧
    (requesting 1 1 true).cpuPins.address ≠ Config.consoleAddr ∧
    State.reset.cpuPins.valid = false := by decide
theorem witness_RamProcessReadsOrWritesAWord :
    Memory.wf (ramAsked 0xFFFE 1 true).params.ramFill (ramAsked 0xFFFE 1 true).ram ∧
    (ramAsked 0xFFFE 1 true).ramPins.valid = true ∧ 0xFFFE + 1 < Config.ramSize ∧
    (ramAsked 0xFFFE 1 true).ramPins.readIntent = true ∧
    (ramAsked 0 1 false).ramPins.readIntent = false ∧ State.reset.ramPins.valid = false := by decide
theorem witness_ConsoleKeepsItsContract :
    (conAsked 0x650A).conPins.valid = true ∧ (conAsked 0x650A).conPins.readIntent = false ∧
    lowByte (conAsked 0x650A).conPins.data = Config.newline ∧
    lowByte (conAsked 0x6548).conPins.data ≠ Config.newline ∧
    lowByte (conAsked 0x6548).conPins.data ≠ 0 ∧ lowByte (conAsked 0x6500).conPins.data = 0 ∧
    State.reset.conPins.valid = false := by decide
theorem witness_OnlyRamReadsAreAnswered :
    (nextOf (busCycle (requesting 0xFFFE 0 true))).map (·.cpuPins.valid) = some true ∧
    (nextOf (busCycle (requesting 0 0 true))).map (·.cpuPins.valid) = some false ∧
    (nextOf (busCycle (requesting 1 0 false))).map (·.cpuPins.valid) = some false := by decide
theorem witness_BusTransactionsOfMov :
    (latched 0x1421 [] []).cpuState = .execute ∧ (latched 0x1421 [] []).pending = false ∧
    (latched 0x1021 [] []).dec.instr = .movDD 2 1 ∧ (latched 0x1121 [] []).dec.instr = .movDLI 2 1 ∧
    (latched 0x1221 [] []).dec.instr = .movDUI 2 1 ∧ (latched 0x1321 [] []).dec.instr = .movDWI 2 1 ∧
    (latched 0x1421 [] []).dec.instr = .movII 2 1 ∧ (latched 0x1521 [] []).dec.instr = .movIDL 2 1 ∧
    (latched 0x1621 [] []).dec.instr = .movIDU 2 1 ∧ (latched 0x1721 [] []).dec.instr = .movIWD 2 1 ∧
    RamWordAddress ((latched 0x1421 [(1, 0xFFFE)] []).reg 1) ∧
    RamWordAddress ((latched 0x1421 [(1, 0x0001)] []).reg 1) ∧
    (latched 0x1421 [(1, 0x0001), (2, 0xFFFE)] []).reg 2 ≠ 0xFFFF := by
  unfold RamWordAddress; decide
/-- 42_move.md R210, 20_memory.md R67: at source 0xFFFF the read is requested and then faults. -/
theorem test_load_at_top_requests_then_faults :
    (nextRequest (latched 0x1321 [(1, 0xFFFF)] [])).map (fun p => (p.address, p.readIntent))
      = some (0xFFFF, true) ∧
    nextOf (tick (latched 0x1321 [(1, 0xFFFF)] [])) = none := by decide
theorem witness_AccessAtTheTopOfTheStoreFaults :
    (latched 0x1421 [(1, 0xFFFF)] []).cpuState = .execute ∧
    (latched 0x1421 [(1, 0xFFFF)] []).reg 1 = 0xFFFF ∧ (latched 0x1421 [] []).pending = false ∧
    (pendingII [(2, 0xFFFF)]).reg 2 = 0xFFFF ∧ (pendingII [(2, 0xFFFF)]).pending = true ∧
    RamWordAddress ((latched 0x1421 [(1, 0x0001), (2, 0xFFFF)] []).reg 1) := by
  unfold RamWordAddress; decide

theorem witness_NopDoesNothingOrHalts :
    (latched 0x0800 [] []).cpuState = .execute ∧ (latched 0x0800 [] []).params.nopBehaviour = .noop ∧
    { latched 0x0800 [] [] with params := otherParams }.params.nopBehaviour = .notImplemented := by decide
/-- The one hypothesis of the statements on MOV DD, LDI, LDU, INC and DEC. -/
theorem witness_MovDDCopiesARegister : (latched 0x1076 [(6, 0x4241)] []).cpuState = .execute := by decide
theorem witness_LdiSetsTheLowByte : (latched 0x1A0D [(2, 0xAB00)] []).cpuState = .execute := by decide
theorem witness_LduSetsTheHighByte : (latched 0x2412 [(4, 0x0034)] []).cpuState = .execute := by decide
theorem witness_IncDecWrapModulo : (latched 0x3010 [(1, 0xFFFF)] []).cpuState = .execute := by decide
/-- The last and the first word address of the RAM. -/
theorem witness_ByteLoadsMergeOneByte : (latched 0x1151 [(1, 0xFFFE)] []).cpuState = .execute ∧
    RamWordAddress ((latched 0x1151 [(1, 0xFFFE)] []).reg 1) ∧
    RamWordAddress ((latched 0x1151 [(1, 0x0001)] []).reg 1) := by
  unfold RamWordAddress; decide
theorem witness_WordLoadReadsTheWord : (latched 0x1361 [(1, 0xFFFE)] []).cpuState = .execute ∧
    RamWordAddress ((latched 0x1361 [(1, 0xFFFE)] []).reg 1) ∧
    RamWordAddress ((latched 0x1361 [(1, 0x0001)] []).reg 1) := by
  unfold RamWordAddress; decide
theorem witness_ReadOfTheConsoleWaits : (latched 0x1420 [] []).cpuState = .execute ∧
    (latched 0x1420 [] []).reg 0 = 0x0000 ∧ (latched 0x1420 [] []).pending = false := by decide
theorem witness_MovIICopiesAWordInRam :
    (latched 0x1421 [(1, 0x0110), (2, 0x0111)] [(0x0110, 0x41)]).Inv ∧
    (latched 0x1421 [(1, 0x0110), (2, 0x0111)] [(0x0110, 0x41)]).cpuState = .execute ∧
    (latched 0x1421 [(1, 0x0110), (2, 0x0111)] [(0x0110, 0x41)]).pending = false ∧
    RamWordAddress ((latched 0x1421 [(1, 0x0110), (2, 0x0111)] [(0x0110, 0x41)]).reg 1) ∧
    RamWordAddress ((latched 0x1421 [(1, 0x0110), (2, 0x0111)] [(0x0110, 0x41)]).reg 2) :=
  ⟨inv_latched_II, by decide, by decide, by unfold RamWordAddress; decide,
    by unfold RamWordAddress; decide⟩
/-- A newline, a zero byte and a character at the source address. -/
theorem witness_MovIIToTheConsole : (latched 0x1401 [(1, 0x0110)] [(0x0110, 0x0A)]).cpuState = .execute ∧
    (latched 0x1401 [(1, 0x0110)] [(0x0110, 0x0A)]).pending = false ∧
    RamWordAddress ((latched 0x1401 [(1, 0x0110)] [(0x0110, 0x0A)]).reg 1) ∧
    (latched 0x1401 [(1, 0x0110)] [(0x0110, 0x0A)]).reg 0 = 0x0000 ∧
    (latched 0x1401 [(1, 0x0110)] [(0x0110, 0x0A)]).readByte 0x0110 = 0x0A ∧
    (latched 0x1401 [(1, 0x0110)] []).readByte 0x0110 = 0x00 ∧
    (latched 0x1401 [(1, 0x0110)] [(0x0110, 0x48)]).readByte 0x0110 = 0x48 := by
  unfold RamWordAddress; decide
theorem witness_PendingMovIIWritesTheScratch :
    (pendingII [(2, 0xFFFE)]).Inv ∧ (pendingII [(2, 0xFFFE)]).cpuState = .execute ∧
    (pendingII [(2, 0xFFFE)]).pending = true ∧ (pendingII [(2, 0xFFFE)]).reg 2 ≠ 0xFFFF ∧
    (pendingII [(2, 0xFFFE)]).reg 2 ≠ 0x0000 ∧ (pendingII []).Inv ∧ (pendingII []).reg 2 = 0x0000 :=
  ⟨inv_pendingII, by decide, by decide, by decide, by decide, inv_pendingII_console, by decide⟩
/-- An LDO at 0x0100, and one at 0xFFFE, whose PC has wrapped to 0. -/
theorem witness_LdoFormsAnAddressFromItsOwn : (latched 0x2910 [] []).cpuState = .execute ∧
    (latched 0x2910 [] []).pc = 0x0100 + 2 ∧
    ((latched 0x2910 [] []).setReg Config.idxPC 0x0000).pc = (0xFFFE : Word) + 2 := by decide
theorem witness_ConditionalJumpsTestARegister : (latched 0x4023 [] []).cpuState = .execute ∧
    (latched 0x4023 [] []).reg 2 = 0 ∧ (latched 0x4023 [(2, 0x8000)] []).reg 2 ≠ 0 := by decide
theorem witness_ConditionalJumpsOfOtherModesHalt : (1 : BitVec 3) ≠ 0 ∧ (7 : BitVec 3) ≠ 0 := by decide
theorem witness_OnlyTheDestinationRegisterChanges :
    (nextOf (exec (.inc 1) (latched 0x3010 [] []))).isSome = true ∧
    destination (.inc 1) ≠ some (0 : RegIdx) ∧
    (nextOf (exec (.jz 0 2 3) (latched 0x4023 [] []))).isSome = true ∧
    destination (.jz 0 2 3) ≠ some (14 : RegIdx) := by decide
theorem witness_OnlyMovIIWritesMemory :
    (nextOf (exec (.movDWI 6 1) (latched 0x1361 [(1, 0x0110)] []))).isSome = true ∧
    ∀ rx ry, Instr.movDWI 6 1 ≠ .movII rx ry := ⟨by decide, nofun⟩
theorem witness_RamByteZeroNeverChanges : (pendingII [(2, 0xFFFE)]).Inv ∧
    (nextOf (step (pendingII [(2, 0xFFFE)]))).isSome = true := ⟨inv_pendingII, by decide⟩

/-- The canonical parameters with the image at the last byte of the RAM. -/
def topParams : Params := { Params.canonical with programBase := 0xFFFF }

theorem witness_LoadPlacesTheImageOrRefuses :
    Memory.wf (powerOn topParams).params.ramFill (powerOn topParams).ram ∧
    topParams.programBase.toNat + [(0x01 : Byte)].length ≤ 65536 ∧
    65536 < topParams.programBase.toNat + [(0x01 : Byte), 0x14].length ∧
    refusesImage (loadImage [0x01, 0x14] (powerOn topParams)) = true := by decide
theorem witness_ResetOfTheCpuAndStartOfARun :
    topParams.programBase.toNat + [(0x01 : Byte)].length ≤ 65536 := by decide

/-- A `halt`, and a data item of one run. -/
def someTokens : List Asm.Token :=
  [⟨.opcode, "halt".toList⟩, ⟨.labelDefinition, ['m']⟩, ⟨.immediateAsciiRun, ['H', 'i']⟩]

/-- The first pass in data-section mode. -/
def inData : Asm.Pass :=
  { Asm.Pass.start 0x0100 with data := some { label := ['m'], rawBytes := [], address := 0x0100 } }

theorem witness_FirstPassCountsBytes :
    (Asm.firstPass someTokens (Asm.Pass.start 0x0100)).toOption.map
      (fun p => (p.counter, p.instrs.length, p.dataBytes)) = some (4, 1, [0x48, 0x69]) := by decide
theorem witness_DataSectionRunsToTheEnd :
    inData.data = some { label := ['m'], rawBytes := [], address := 0x0100 } ∧
    someTokens = [] ++ ⟨.opcode, "halt".toList⟩ :: someTokens.drop 1 ∧
    (Asm.Token.mk .opcode "halt".toList).kind ≠ .immediateAsciiRun ∧
    (∀ t ∈ someTokens.drop 2, t.kind = .immediateAsciiRun) := by decide
/-- `ldo $r1, =x` with no label `x`. -/
theorem witness_UndefinedLabelFailsAssembly :
    (Asm.SrcInstr.mk 0x0100 "ldo".toList [⟨.registerDirect, "r1".toList⟩, ⟨.labelImmediate, ['x']⟩]).operands
      = [⟨.registerDirect, "r1".toList⟩] ++ ⟨.labelImmediate, ['x']⟩ :: [] ∧
    Asm.lookupLabel [] ['x'] = none ∧
    Asm.resolveOperand [] ⟨.registerDirect, "r1".toList⟩ = .ok (.direct "r1".toList) := by decide
theorem witness_AssemblerProducesAssemblableInstructions :
    Asm.assembleParts 0x0100 "jz $r2, $r3\n halt".toList = .ok ([.jz 0 2 3, .halt], []) := by decide
theorem witness_ImageHoldsInstructionsThenData : [Instr.halt, .inc 1][1]? = some (.inc 1) := by decide
/-- A label at the instruction itself, one 255 bytes ahead, and an LDO in Execute at 0x0100. -/
theorem witness_LabelOffsetExecutesToTheLabel :
    Asm.labelOffset 0x0100 0x0100 = .ok 0 ∧ Asm.labelOffset 0x0100 0x01FF = .ok 0xFF ∧
    (latched 0x29FF [] []).cpuState = .execute ∧
    (latched 0x29FF [] []).pc = BitVec.ofNat 16 (0x0100 + 2) := by decide

end Sys2Proof.Tests
end

section
/-! The field primitives of 00_scope.md section 4: the two arms of `extract` (R7). -/

namespace Sys2Proof

/-- The arm of R7 for a field that ends at the top of the word. -/
theorem extract_eq_shiftRight {o n : Nat} (w : Word) (top : o + n = 16) :
    extract w o n = w.toNat >>> o := by
  rw [extract, if_pos top]

/-- The masking arm of R7 gives the value of `extract` for every field: in the arm of the plain shift
nothing is left above the field for the mask to clear. -/
theorem extract_eq_shiftRight_and_mask (w : Word) (o n : Nat) :
    extract w o n = (w.toNat >>> o) &&& ((1 <<< n) - 1) := by
  rw [extract_eq_mod, Nat.one_shiftLeft, Nat.and_two_pow_sub_one_eq_mod]

/-- The bits of an extracted field as a number: the word's bits from `o` on, and zero from the width on. -/
theorem testBit_extract (w : Word) (o n k : Nat) :
    (extract w o n).testBit k = (decide (k < n) && w.getLsbD (o + k)) := by
  rw [extract_eq_mod, Nat.testBit_mod_two_pow, Nat.testBit_shiftRight, BitVec.testBit_toNat]

/-- Settles O57: the top arm by its guard, the mask and the bits by the one value of both arms. -/
theorem extractArmsGiveTheFieldBits : Obligations.ExtractArmsGiveTheFieldBits := by
  intro w o n _
  exact ⟨extract_eq_shiftRight w, extract_eq_shiftRight_and_mask w o n, testBit_extract w o n⟩

end Sys2Proof
end

section
/-! The RAM process of 20_memory.md (R59): one equation per transaction, and what each does to
the store. -/

namespace Sys2Proof.Machine

/-- Without a valid transaction the RAM process does nothing. -/
theorem ramProcess_of_not_valid (s : State) (hv : s.ramPins.valid = false) : ramProcess s = .next s := by
  rw [ramProcess, if_neg (by rw [hv]; decide)]

/-- A read inside the store changes the RAM's data lines alone. -/
theorem ramProcess_read (s : State) (hv : s.ramPins.valid = true) (hr : s.ramPins.readIntent = true)
    (ha : s.ramPins.address.toNat + 1 < Config.ramSize) :
    ramProcess s = .next { s with
      ramPins := { s.ramPins with data := s.readWord s.ramPins.address.toNat } } := by
  rw [ramProcess, if_pos hv, if_neg (Nat.not_le.2 ha), if_pos hr]

/-- A write inside the store is a word write of the data lines. -/
theorem ramProcess_write (s : State) (hv : s.ramPins.valid = true) (hr : s.ramPins.readIntent = false)
    (ha : s.ramPins.address.toNat + 1 < Config.ramSize) :
    ramProcess s = .next (s.writeWord s.ramPins.address.toNat s.ramPins.data) := by
  rw [ramProcess, if_pos hv, if_neg (Nat.not_le.2 ha), if_neg (by rw [hr]; decide)]

/-- A word write reads back its low byte at the address (R52). -/
theorem readByte_writeWord_low (s : State) (a : Nat) (v : Word)
    (h : s.ram.Pairwise fun c d => c.1 < d.1) : (s.writeWord a v).readByte a = lowByte v := by
  rw [readByte_writeWord s a a v h, if_neg (Nat.ne_of_lt (Nat.lt_succ_self a)), if_pos rfl]

/-- A word write reads back its high byte at the next address (R52). -/
theorem readByte_writeWord_high (s : State) (a : Nat) (v : Word)
    (h : s.ram.Pairwise fun c d => c.1 < d.1) : (s.writeWord a v).readByte (a + 1) = highByte v := by
  rw [readByte_writeWord s a (a + 1) v h, if_pos rfl]

/-- A word write changes no byte but its two. -/
theorem ramSameOutsideWord_writeWord (s : State) (a : Nat) (v : Word)
    (h : s.ram.Pairwise fun c d => c.1 < d.1) : RamSameOutsideWord s (s.writeWord a v) a := by
  intro b hlow hhigh
  rw [readByte_writeWord s a b v h, if_neg hhigh, if_neg hlow]

/-- Settles O22: the transaction is absent, a read or a write, each by its equation of the RAM process;
the bytes after a write are those of a word write to a canonical list. -/
theorem ramProcessReadsOrWritesAWord : Obligations.RamProcessReadsOrWritesAWord := by
  intro s
  refine ⟨ramProcess_of_not_valid s, fun hwf hv ha => ?_⟩
  have ⟨hrising, _, _⟩ := hwf
  cases hr : s.ramPins.readIntent with
  | true =>
    exact ⟨_, ramProcess_read s hv hr ha, hwf, rfl, fun _ => ⟨rfl, fun _ => rfl⟩, nofun⟩
  | false =>
    exact ⟨_, ramProcess_write s hv hr ha, writeWord_wf s _ _ hwf ha, rfl, nofun, fun _ =>
      ⟨rfl, readByte_writeWord_low s _ _ hrising, readByte_writeWord_high s _ _ hrising,
        ramSameOutsideWord_writeWord s _ _ hrising⟩⟩

end Sys2Proof.Machine
end

section
/-! The data section of 31_assembler.md section 2 (R133): the first pass once the item is open, over a
run of ascii tokens and at any other token. -/

namespace Sys2Proof.Asm

/-- The item after the ascii runs `ts`. -/
def DataItem.addRuns (d : DataItem) (ts : List Token) : DataItem :=
  { d with rawBytes := d.rawBytes ++ ts.flatMap fun t => t.value.map charByte }

/-- The pass with open item `d` after the ascii runs `ts`: the item is longer and the counter has advanced. -/
def Pass.addRuns (p : Pass) (d : DataItem) (ts : List Token) : Pass :=
  { p with data := some (d.addRuns ts), counter := p.counter + (ts.map fun t => t.value.length).sum }

@[simp] theorem Pass.addRuns_data (p : Pass) (d : DataItem) (ts : List Token) :
    (p.addRuns d ts).data = some (d.addRuns ts) := rfl

theorem Pass.addRuns_nil {p : Pass} {d : DataItem} (hd : p.data = some d) : p.addRuns d [] = p := by
  simp [Pass.addRuns, DataItem.addRuns, ← hd]

/-- Runs read one after the other are the runs read together. -/
theorem Pass.addRuns_cons (p : Pass) (d : DataItem) (t : Token) (ts : List Token) :
    (p.addRuns d [t]).addRuns (d.addRuns [t]) ts = p.addRuns d (t :: ts) := by
  simp [Pass.addRuns, DataItem.addRuns, Nat.add_assoc]

/-- An ascii run in the data section appends to the item, whatever token is next. -/
theorem passToken_run (next : Option Token) {t : Token} {p : Pass} {d : DataItem}
    (hd : p.data = some d) (ht : t.kind = .immediateAsciiRun) :
    passToken next t p = .ok (p.addRuns d [t]) := by
  rw [passToken_data next t p d hd, passData, if_pos ht]
  simp [Pass.addRuns, DataItem.addRuns]

/-- Any other token in the data section is the error of that token: no token ends the section. -/
theorem passToken_not_run (next : Option Token) {t : Token} {p : Pass} {d : DataItem}
    (hd : p.data = some d) (ht : t.kind ≠ .immediateAsciiRun) :
    passToken next t p = .error (.unexpectedInDataSection t) := by
  rw [passToken_data next t p d hd, passData, if_neg ht]

theorem firstPass_cons_run {t : Token} {p : Pass} {d : DataItem} (ts : List Token)
    (hd : p.data = some d) (ht : t.kind = .immediateAsciiRun) :
    firstPass (t :: ts) p = firstPass ts (p.addRuns d [t]) := by
  rw [firstPass, passToken_run ts.head? hd ht]

theorem firstPass_cons_not_run {t : Token} {p : Pass} {d : DataItem} (ts : List Token)
    (hd : p.data = some d) (ht : t.kind ≠ .immediateAsciiRun) :
    firstPass (t :: ts) p = .error (.unexpectedInDataSection t) := by
  rw [firstPass, passToken_not_run ts.head? hd ht]

/-- The scan goes through ascii runs to the tokens after them, and is still in the data section there. -/
theorem firstPass_runs_append {runs : List Token} (rest : List Token) {p : Pass} {d : DataItem}
    (hd : p.data = some d) (hruns : ∀ t ∈ runs, t.kind = .immediateAsciiRun) :
    firstPass (runs ++ rest) p = firstPass rest (p.addRuns d runs) := by
  induction runs generalizing p d with
  | nil => rw [Pass.addRuns_nil hd, List.nil_append]
  | cons t ts ih =>
    obtain ⟨ht, hts⟩ := List.forall_mem_cons.1 hruns
    calc firstPass (t :: ts ++ rest) p
        = firstPass (ts ++ rest) (p.addRuns d [t]) := firstPass_cons_run _ hd ht
      _ = firstPass rest ((p.addRuns d [t]).addRuns (d.addRuns [t]) ts) := ih (Pass.addRuns_data ..) hts
      _ = firstPass rest (p.addRuns d (t :: ts)) := by rw [Pass.addRuns_cons]

/-- Ascii runs to the end of the input leave the pass with all of them in the item. -/
theorem firstPass_runs {runs : List Token} {p : Pass} {d : DataItem} (hd : p.data = some d)
    (hruns : ∀ t ∈ runs, t.kind = .immediateAsciiRun) : firstPass runs p = .ok (p.addRuns d runs) := by
  simpa [firstPass] using firstPass_runs_append [] hd hruns

/-- The first token that is no ascii run is the error of the pass. -/
theorem firstPass_runs_then_not_run {runs : List Token} (rest : List Token) {t : Token} {p : Pass}
    {d : DataItem} (hd : p.data = some d) (hruns : ∀ u ∈ runs, u.kind = .immediateAsciiRun)
    (ht : t.kind ≠ .immediateAsciiRun) :
    firstPass (runs ++ t :: rest) p = .error (.unexpectedInDataSection t) := by
  rw [firstPass_runs_append _ hd hruns, firstPass_cons_not_run rest (Pass.addRuns_data ..) ht]

/-- A pass that succeeds from the data section has read ascii runs alone. -/
theorem kind_eq_run_of_firstPass_ok {toks : List Token} {p q : Pass} {d : DataItem}
    (hd : p.data = some d) (hq : firstPass toks p = .ok q) :
    ∀ t ∈ toks, t.kind = .immediateAsciiRun := by
  induction toks generalizing p d with
  | nil => nofun
  | cons t ts ih =>
    by_cases ht : t.kind = .immediateAsciiRun
    · rw [firstPass_cons_run ts hd ht] at hq
      exact List.forall_mem_cons.2 ⟨ht, ih (Pass.addRuns_data ..) hq⟩
    · rw [firstPass_cons_not_run ts hd ht] at hq
      cases hq

/-- Settles O51: a pass that succeeds has read runs alone, runs alone give the one pass `addRuns` names,
and the scan reaches the first other token with the section still open. -/
theorem dataSectionRunsToTheEnd : Obligations.DataSectionRunsToTheEnd := by
  intro toks p d hd
  refine ⟨fun q => ⟨fun hq => ?succeeds, ?runsAlone⟩, ?otherToken⟩
  case succeeds =>
    have hruns := kind_eq_run_of_firstPass_ok hd hq
    have hpass := firstPass_runs hd hruns
    exact ⟨hruns, Except.ok.inj (hq.symm.trans hpass)⟩
  case runsAlone =>
    rintro ⟨hruns, rfl⟩
    exact firstPass_runs hd hruns
  case otherToken =>
    rintro pre post t rfl hpre ht
    exact firstPass_runs_then_not_run post hd hpre ht

end Sys2Proof.Asm
end

section
/-! The field primitives and the range-checked encoder (00_scope.md section 4, 30_encoding.md section 4). -/

namespace Sys2Proof

/-- `extract` as arithmetic (R7). -/
theorem extract_eq_div_mod (w : Word) (o n : Nat) : extract w o n = w.toNat / 2 ^ o % 2 ^ n := by
  rw [extract_eq_mod, Nat.shiftRight_eq_div_pow]

/-- `pack` as arithmetic, for a field inside the word (R8). -/
theorem toNat_pack (v : Nat) {o n : Nat} (inside : o + n ≤ 16) :
    (pack v o n).toNat = v % 2 ^ n * 2 ^ o := by
  have fits : v % 2 ^ n * 2 ^ o < 2 ^ 16 := calc
    v % 2 ^ n * 2 ^ o < 2 ^ n * 2 ^ o :=
      Nat.mul_lt_mul_of_pos_right (Nat.mod_lt _ (by positivity)) (by positivity)
    _ = 2 ^ (o + n) := by rw [← Nat.pow_add, Nat.add_comm]
    _ ≤ 2 ^ 16 := Nat.pow_le_pow_right (by decide) inside
  rw [pack, Nat.shiftLeft_eq, BitVec.toNat_ofNat, Nat.mod_eq_of_lt fits]

/-- A packed value is extracted again, modulo the width (R110). -/
theorem extract_pack (v : Nat) {o n : Nat} (inside : o + n ≤ 16) :
    extract (pack v o n) o n = v % 2 ^ n := by
  rw [extract_eq_div_mod, toNat_pack v inside, Nat.mul_div_cancel _ (by positivity), Nat.mod_mod]

/-- An extracted field packed again is the word with every other bit cleared. -/
theorem pack_extract (w : Word) (o n : Nat) :
    pack (extract w o n) o n = w &&& pack (2 ^ n - 1) o n := by
  apply BitVec.eq_of_getLsbD_eq
  intro i hi
  rw [BitVec.getLsbD_and, getLsbD_pack, getLsbD_pack, testBit_extract, Nat.testBit_two_pow_sub_one]
  by_cases ho : o ≤ i
  · by_cases hn : i - o < n <;> simp [hi, ho, hn, Nat.add_sub_cancel' ho]
  · simp [ho]

/-- Settles O4: the two primitives as arithmetic, and the two round trips. -/
theorem fieldPrimitivesExtractAndPack : Obligations.FieldPrimitivesExtractAndPack := fun w v o n inside =>
  ⟨extract_eq_div_mod w o n, toNat_pack v inside, extract_pack v inside, pack_extract w o n⟩

/-! The range checks of R108. -/

/-- The word packed from the encoder's arguments (R107), whether or not they are in range. -/
def RawInstr.word : RawInstr → Word
  | .n op => encodeN op
  | .rr op mode rx ry => encodeRR op mode rx ry
  | .ri op rl imm => encodeRI op rl imm
  | .r op rx => encodeR op rx

/-- An instruction's word is the one packed from its operands. -/
theorem encode_eq_word (i : Instr) : encode i = i.raw.word := by
  unfold encode RawInstr.word
  cases i.raw <;> rfl

/-- The encoder answers the packed word, and only where the checks pass. -/
theorem RawInstr.encode_eq_ok {r : RawInstr} {w : Word} :
    r.encode = .ok w ↔ r.check = .ok () ∧ w = r.word := by
  unfold RawInstr.encode
  cases hc : r.check with
  | error e => simp
  | ok u => cases r <;> simp [RawInstr.word, eq_comm]

/-- One range check: the value fits the field, or the field's own error. -/
theorem checkField_eq (v width : Nat) (e : EncodeError) :
    checkField v width e = if v < 2 ^ width then .ok () else .error e := rfl

/-- The checks of format N. -/
theorem check_n_eq_ok {op : Nat} : (RawInstr.n op).check = .ok () ↔ op < 32 := by
  by_cases hop : op < 32 <;> simp [RawInstr.check, checkField_eq, hop]

/-- The checks of format R. -/
theorem check_r_eq_ok {op rx : Nat} : (RawInstr.r op rx).check = .ok () ↔ op < 32 ∧ rx < 16 := by
  by_cases hop : op < 32
  · by_cases hrx : rx < 16 <;> simp [RawInstr.check, checkField_eq, hop, hrx]
  · simp [RawInstr.check, checkField_eq, hop]

/-- The checks of format RI. -/
theorem check_ri_eq_ok {op rl imm : Nat} :
    (RawInstr.ri op rl imm).check = .ok () ↔ op < 32 ∧ rl < 8 ∧ imm < 256 := by
  by_cases hop : op < 32
  · by_cases hrl : rl < 8
    · by_cases himm : imm < 256 <;> simp [RawInstr.check, checkField_eq, hop, hrl, himm]
    · simp [RawInstr.check, checkField_eq, hop, hrl]
  · simp [RawInstr.check, checkField_eq, hop]

/-- The checks of format RR. -/
theorem check_rr_eq_ok {op mode rx ry : Nat} :
    (RawInstr.rr op mode rx ry).check = .ok () ↔ op < 32 ∧ mode < 8 ∧ rx < 16 ∧ ry < 16 := by
  by_cases hop : op < 32
  · by_cases hmode : mode < 8
    · by_cases hrx : rx < 16
      · by_cases hry : ry < 16 <;> simp [RawInstr.check, checkField_eq, hop, hmode, hrx, hry]
      · simp [RawInstr.check, checkField_eq, hop, hmode, hrx]
    · simp [RawInstr.check, checkField_eq, hop, hmode]
  · simp [RawInstr.check, checkField_eq, hop]

/-- The encoder answers some word exactly where the checks pass. -/
theorem RawInstr.exists_encode_eq_ok {r : RawInstr} : (∃ w, r.encode = .ok w) ↔ r.check = .ok () := by
  simp [RawInstr.encode_eq_ok]

/-- A field that holds a value in range reads as that value. -/
theorem toNat_eq_of_eq_ofNat {n v : Nat} {f : BitVec n} (hf : f = BitVec.ofNat n v) (hv : v < 2 ^ n) :
    f.toNat = v := by
  rw [hf, BitVec.toNat_ofNat, Nat.mod_eq_of_lt hv]

/-- Settles O5: the encoder answers where its checks pass, and each field of the packed word then reads
back as the value that passed. -/
theorem encoderRefusesExactlyOutOfRange : Obligations.EncoderRefusesExactlyOutOfRange := by
  refine ⟨fun op mode rx ry => ⟨RawInstr.exists_encode_eq_ok.trans check_rr_eq_ok, fun w hw => ?rr⟩,
    fun op rl imm => ⟨RawInstr.exists_encode_eq_ok.trans check_ri_eq_ok, fun w hw => ?ri⟩,
    fun op rx => ⟨RawInstr.exists_encode_eq_ok.trans check_r_eq_ok, fun w hw => ?r⟩,
    fun op => ⟨RawInstr.exists_encode_eq_ok.trans check_n_eq_ok, fun w hw => ?n⟩⟩ <;>
    obtain ⟨hcheck, rfl⟩ := RawInstr.encode_eq_ok.1 hw
  case rr =>
    obtain ⟨hop, hmode, hrx, hry⟩ := check_rr_eq_ok.1 hcheck
    exact ⟨rfl, toNat_eq_of_eq_ofNat (op_encodeRR op mode rx ry) hop,
      toNat_eq_of_eq_ofNat (mode_encodeRR op mode rx ry) hmode,
      toNat_eq_of_eq_ofNat (rx_encodeRR op mode rx ry) hrx,
      toNat_eq_of_eq_ofNat (ry_encodeRR op mode rx ry) hry⟩
  case ri =>
    obtain ⟨hop, hrl, himm⟩ := check_ri_eq_ok.1 hcheck
    exact ⟨rfl, toNat_eq_of_eq_ofNat (op_encodeRI op rl imm) hop,
      toNat_eq_of_eq_ofNat (rl_encodeRI op rl imm) hrl,
      toNat_eq_of_eq_ofNat (imm_encodeRI op rl imm) himm⟩
  case r =>
    obtain ⟨hop, hrx⟩ := check_r_eq_ok.1 hcheck
    exact ⟨rfl, toNat_eq_of_eq_ofNat (op_encodeR op rx) hop,
      toNat_eq_of_eq_ofNat (rx_encodeR op rx) hrx⟩
  case n => exact ⟨rfl, toNat_eq_of_eq_ofNat (op_encodeN op) (check_n_eq_ok.1 hcheck)⟩

end Sys2Proof
end

section
/-! The decoder and the encoder of typed instructions invert each other (30_encoding.md sections 1 and 4). -/

namespace Sys2Proof

/-- The fields `f` hold the operands of `r`: the fields of its format (R91 to R94), and no others. -/
def RawInstr.HeldBy (f : Fields) : RawInstr → Prop
  | .n op => f.op = BitVec.ofNat 5 op
  | .rr op mode rx ry => f.op = BitVec.ofNat 5 op ∧ f.mode = BitVec.ofNat 3 mode ∧
      f.rx = BitVec.ofNat 4 rx ∧ f.ry = BitVec.ofNat 4 ry
  | .ri op rl imm => f.op = BitVec.ofNat 5 op ∧ f.rl = BitVec.ofNat 3 rl ∧ f.imm = BitVec.ofNat 8 imm
  | .r op rx => f.op = BitVec.ofNat 5 op ∧ f.rx = BitVec.ofNat 4 rx

/-- The packed word holds the operands it was packed from, in every format. -/
theorem heldBy_ofWord_word (r : RawInstr) : r.HeldBy (Fields.ofWord r.word) := by
  cases r with
  | n op => exact op_encodeN op
  | rr op mode rx ry =>
    exact ⟨op_encodeRR op mode rx ry, mode_encodeRR op mode rx ry, rx_encodeRR op mode rx ry,
      ry_encodeRR op mode rx ry⟩
  | ri op rl imm => exact ⟨op_encodeRI op rl imm, rl_encodeRI op rl imm, imm_encodeRI op rl imm⟩
  | r op rx => exact ⟨op_encodeR op rx, rx_encodeR op rx⟩

/-- Fields that hold an instruction's operands decode to it, whatever stands in the other fields. -/
theorem instr_of_heldBy {i : Instr} {f : Fields} (h : i.raw.HeldBy f) : f.instr = i := by
  rcases f with ⟨op, mode, rx, ry, rl, imm⟩
  cases i <;> simp only [Instr.raw, RawInstr.HeldBy, BitVec.ofNat_toNat, BitVec.setWidth_eq] at h
  all_goals
    obtain ⟨rfl, rfl, rfl, rfl⟩ := h
    rfl

/-- The word of an instruction decodes to it. -/
theorem decodeWord_encode (i : Instr) : decodeWord (encode i) = i := by
  rw [encode_eq_word]
  exact instr_of_heldBy (heldBy_ofWord_word i.raw)

/-- The bytes of an instruction decode to it, in front of any others. -/
theorem decode_encodeBytes_append (i : Instr) (rest : List Byte) :
    decode (encodeBytes i ++ rest) = .ok (i, rest) := by
  rw [encodeBytes, decode_wordBytesLE, decodeWord_encode]

/-- Settles O2: the encoded word holds the instruction's own operands, and these fields decode to it. -/
theorem decodeOfEncodeIsTheInstruction : Obligations.DecodeOfEncodeIsTheInstruction := fun i =>
  ⟨decodeWord_encode i, decode_encodeBytes_append i⟩

/-- Every mode of MOV is encoded with its own number (30_encoding.md R104). -/
theorem raw_movOfMode (mode : BitVec 3) (rx ry : RegIdx) :
    (movOfMode mode rx ry).raw = .rr Config.opMOV.toNat mode.toNat rx.toNat ry.toNat := by
  rcases mode with ⟨⟨mode, hmode⟩⟩
  interval_cases mode <;> rfl

/-- The encoder's arguments of a decoded word are its own fields, in the format of its opcode. -/
theorem raw_instr (f : Fields) :
    f.instr.raw = .n f.op.toNat ∨ f.instr.raw = .rr f.op.toNat f.mode.toNat f.rx.toNat f.ry.toNat ∨
    f.instr.raw = .ri f.op.toNat f.rl.toNat f.imm.toNat ∨ f.instr.raw = .r f.op.toNat f.rx.toNat := by
  rcases f with ⟨⟨⟨op, hop⟩⟩, mode, rx, ry, rl, imm⟩
  interval_cases op
  all_goals
    first
      | exact .inl rfl
      | exact .inr (.inl rfl)
      | exact .inr (.inr (.inl rfl))
      | exact .inr (.inr (.inr rfl))
      | exact .inr (.inl (raw_movOfMode mode rx ry))

/-- A field of the word, packed again, is the word's own bits there. -/
theorem pack_field (w : Word) (o n : Nat) :
    pack (field w o n).toNat o n = w &&& pack (2 ^ n - 1) o n := by
  rw [← pack_extract, field, BitVec.toNat_ofNat, extract_eq_mod, Nat.mod_mod]

/-! A word's own fields packed again in each format: the masks are the formats' used bits (R92 to R94). -/

theorem encodeN_fields (w : Word) : encodeN (field w 11 5).toNat = w &&& 0xF800 := by
  rw [encodeN, pack_field]
  rfl

theorem encodeRR_fields (w : Word) :
    encodeRR (field w 11 5).toNat (field w 8 3).toNat (field w 4 4).toNat (field w 0 4).toNat =
      w &&& 0xFFFF := by
  simp only [encodeRR, pack_field, ← BitVec.and_or_distrib_left]
  rfl

theorem encodeRI_fields (w : Word) :
    encodeRI (field w 11 5).toNat (field w 8 3).toNat (field w 0 8).toNat = w &&& 0xFFFF := by
  simp only [encodeRI, pack_field, ← BitVec.and_or_distrib_left]
  rfl

theorem encodeR_fields (w : Word) :
    encodeR (field w 11 5).toNat (field w 4 4).toNat = w &&& 0xF8F0 := by
  simp only [encodeR, pack_field, ← BitVec.and_or_distrib_left]
  rfl

/-- Encoding a decoded word clears exactly the bits its format does not use (decision D26). -/
theorem encode_decodeWord (w : Word) : encode (decodeWord w) = w &&& usedMask (decodeWord w) := by
  rw [encode_eq_word, usedMask]
  rcases raw_instr (Fields.ofWord w) with h | h | h | h <;> rw [decodeWord, h]
  · exact encodeN_fields w
  · exact encodeRR_fields w
  · exact encodeRI_fields w
  · exact encodeR_fields w

/-- Settles O3: a decoded word packs its own fields again, and what is packed decodes as the word did. -/
theorem encodeOfDecodeClearsUnusedBitsOnly : Obligations.EncodeOfDecodeClearsUnusedBitsOnly := by
  intro w
  have hclear := encode_decodeWord w
  exact ⟨hclear, by rw [← hclear, decodeWord_encode]⟩

/-- Settles O1: nine closed words. -/
theorem wordsOfTheSpecDecode : Obligations.WordsOfTheSpecDecode := by
  unfold Obligations.WordsOfTheSpecDecode
  decide

end Sys2Proof
end

section
/-! The image of the assembler (31_assembler.md section 6). -/

namespace Sys2Proof.Asm

/-- An instruction takes two bytes of the image (R146). -/
theorem length_flatMap_encodeBytes (is : List Instr) : (is.flatMap encodeBytes).length = 2 * is.length := by
  induction is with
  | nil => rfl
  | cons i is ih =>
    rw [List.flatMap_cons, List.length_append, ih, List.length_cons]
    simp only [encodeBytes, wordBytesLE, List.length_cons, List.length_nil]
    omega

/-- The image from the `k`-th slot on is that of the instructions from the `k`-th on. -/
theorem drop_imageOf (is : List Instr) (bytes : List Byte) {k : Nat} (hk : k ≤ is.length) :
    (imageOf is bytes).drop (2 * k) = imageOf (is.drop k) bytes := by
  have hfront := length_flatMap_encodeBytes (is.take k)
  rw [List.length_take_of_le hk] at hfront
  conv_lhs => rw [imageOf, ← List.take_append_drop k is, List.flatMap_append, List.append_assoc, ← hfront]
  rw [List.drop_left, imageOf]

/-- The image of an instruction in front of others. -/
theorem imageOf_cons (i : Instr) (is : List Instr) (bytes : List Byte) :
    imageOf (i :: is) bytes = encodeBytes i ++ imageOf is bytes := by
  rw [imageOf, imageOf, List.flatMap_cons, List.append_assoc]

/-- Settles O55: the image from slot `k` on begins with the `k`-th instruction's bytes, which decode. -/
theorem imageHoldsInstructionsThenData : Obligations.ImageHoldsInstructionsThenData := by
  refine fun is bytes => ⟨?length, ?data, fun k i hk => ?instruction⟩
  case length => rw [imageOf, List.length_append, length_flatMap_encodeBytes]
  case data => rw [drop_imageOf is bytes (Nat.le_refl _), List.drop_length, imageOf, List.flatMap_nil,
    List.nil_append]
  case instruction =>
    obtain ⟨hlt, rfl⟩ := List.getElem?_eq_some_iff.1 hk
    have hnext : (imageOf is bytes).drop (2 * k + 2) = imageOf (is.drop (k + 1)) bytes :=
      drop_imageOf is bytes (k := k + 1) hlt
    rw [drop_imageOf is bytes (Nat.le_of_lt hlt), List.drop_eq_getElem_cons hlt, imageOf_cons, hnext,
      decode_encodeBytes_append]

end Sys2Proof.Asm
end

section
/-! One clock tick (40_cycle.md R160 to R172): everything it can do, named case by case, and the number of
ticks in a step. -/

namespace Sys2Proof.Machine

/-- `s` with the three pin sets `p`, `q`, `r`. -/
def State.withPins (s : State) (p q r : Pins) : State :=
  { s with cpuPins := p, ramPins := q, conPins := r }

/-- States that differ in their pins alone. -/
theorem exists_withPins_of_sameButPins {s t : State} (h : SameButPins s t) :
    ∃ p q r, t = s.withPins p q r := ⟨t.cpuPins, t.ramPins, t.conPins, h⟩

/-- What an answered fetch makes of a state, but for the pins (R164). -/
def afterFetch (s : State) : State :=
  { ((s.setReg Config.idxIR (s.readWord s.pc.toNat)).setReg Config.idxPC (s.pc + 2)) with
    cpuState := .decode
    cycle := s.cycle + 1 }

/-- What the common part of a Decode tick makes of a state that stays in Decode (R166). -/
def afterLatch (s : State) : State :=
  { quietPins s with dec := Fields.ofWord s.ir, cycle := s.cycle + 1 }

/-- What one tick can lead to: one constructor for each way the four CPU states can go. -/
inductive TickTo (s : State) : State → Prop
  /-- Halted: nothing but the pins' `valid` can change (R172). -/
  | stopped (hx : s.cpuState = .halted) : TickTo s (quietPins s)
  /-- Fetch, answered by the RAM (R164). -/
  | fetched (p q r : Pins) (hx : s.cpuState = .fetch) (ha : RamWordAddress s.pc) :
      TickTo s ((afterFetch s).withPins p q r)
  /-- Fetch at the console's address, never answered (R165). -/
  | unfetched (p q r : Pins) (hx : s.cpuState = .fetch) (ha : s.pc = Config.consoleAddr) :
      TickTo s ({ s with cycle := s.cycle + 1 }.withPins p q r)
  /-- Decode of a declared opcode number (R166). -/
  | latched (hx : s.cpuState = .decode) (hd : (Fields.ofWord s.ir).declared = true) :
      TickTo s { afterLatch s with cpuState := .execute }
  /-- Decode of an unassigned number (46_reserved.md R264). -/
  | unrecognized (hx : s.cpuState = .decode) :
      TickTo s (raiseHalt .unrecognizedOpcode (afterLatch s))
  /-- Execute of an instruction that halts. -/
  | halts (c : HaltCause) (hx : s.cpuState = .execute) :
      TickTo s (quietPins (raiseHalt c (beginTick s)))
  /-- Execute of an instruction that has nothing left to change. -/
  | finishes (hx : s.cpuState = .execute) (hi : ∀ rx ry, s.dec.instr ≠ .movII rx ry) :
      TickTo s (toFetch (quietPins (beginTick s)))
  /-- Execute of an instruction that writes its destination register. -/
  | writesReg (d : RegIdx) (v : Word) (p q r : Pins) (hx : s.cpuState = .execute)
      (hd : destination s.dec.instr = some d) :
      TickTo s ((toFetch ((beginTick s).setReg d v)).withPins p q r)
  /-- Execute of a read of the console's address (R171). -/
  | waits (rx ry : RegIdx) (p q r : Pins) (hx : s.cpuState = .execute)
      (hi : s.dec.instr = .movDLI rx ry ∨ s.dec.instr = .movDUI rx ry ∨ s.dec.instr = .movDWI rx ry ∨
        (s.dec.instr = .movII rx ry ∧ s.pending = false))
      (ha : s.reg ry = Config.consoleAddr) : TickTo s ((beginTick s).withPins p q r)
  /-- The answered read of MOV II (42_move.md R206). -/
  | readsScratch (rx ry : RegIdx) (p q r : Pins) (hx : s.cpuState = .execute)
      (hi : s.dec.instr = .movII rx ry) (ha : RamWordAddress (s.reg ry)) :
      TickTo s ({ beginTick s with
        scratch := s.readWord (s.reg ry).toNat, pending := true }.withPins p q r)
  /-- The write of MOV II to the RAM (R206). -/
  | writesRam (rx ry : RegIdx) (p q r : Pins) (hx : s.cpuState = .execute)
      (hi : s.dec.instr = .movII rx ry) (ha : RamWordAddress (s.reg rx)) :
      TickTo s ({ (beginTick s).writeWord (s.reg rx).toNat s.scratch with
        cpuState := .fetch, pending := false }.withPins p q r)
  /-- The write of MOV II to the console (R206, 20_memory.md R72). -/
  | writesConsole (rx ry : RegIdx) (p q r : Pins) (hx : s.cpuState = .execute)
      (hi : s.dec.instr = .movII rx ry) (ha : s.reg rx = Config.consoleAddr) :
      TickTo s ({ consoleTake (lowByte s.scratch) (beginTick s) with
        cpuState := .fetch, pending := false }.withPins p q r)

/-- Execute is entered with a declared opcode only: what a tick's cases need of a state. -/
def DeclaredInExecute (s : State) : Prop := s.cpuState = .execute → s.dec.declared = true

/-- A tick of a halted CPU (R172). -/
theorem tick_halted (s : State) (hx : s.cpuState = .halted) : tick s = .next (quietPins s) := by
  have hsetup : cpuSetup s = dropRequest s := by rw [cpuSetup, hx]
  have hquiet : cpuComplete (quietPins (dropRequest s)) = quietPins (dropRequest s) := by
    rw [cpuComplete, show (quietPins (dropRequest s)).cpuState = .halted from hx]
  rw [tick, runTick_quiet _ _ _ (by rw [hsetup]; rfl), hsetup, hquiet]
  rfl

/-- A tick in Fetch. -/
theorem tickTo_of_fetch {s t : State} (hx : s.cpuState = .fetch) (h : tick s = .next t) : TickTo s t := by
  rw [tick_fetch s hx] at h
  rcases fetchTick_cases h with ⟨ha, hsame⟩ | ⟨ha, hsame⟩ <;>
    obtain ⟨p, q, r, rfl⟩ := exists_withPins_of_sameButPins hsame
  · exact .fetched p q r hx ha
  · exact .unfetched p q r hx ha

/-- A tick in Decode. -/
theorem tickTo_of_decode {s t : State} (hx : s.cpuState = .decode) (h : tick s = .next t) :
    TickTo s t := by
  rw [tick_decode s hx, decodeTick_eq, decodePhase_eq] at h
  by_cases hd : (Fields.ofWord s.ir).declared = true
  · rw [if_pos hd, if_pos hd] at h
    cases h
    exact .latched hx hd
  · rw [if_neg hd, if_neg hd] at h
    cases h
    exact .unrecognized hx

/-- A tick in Execute, by the latched instruction. -/
theorem tickTo_of_execute {s t : State} (hx : s.cpuState = .execute) (hd : s.dec.declared = true)
    (h : tick s = .next t) : TickTo s t := by
  rw [tick_execute s hx] at h
  have hw : s.dec.instr.wellFormed = true := by rw [wellFormed_instr, hd]
  rcases execTick_cases _ s t hw (by rw [hx]; decide) h with
    ⟨c, rfl⟩ | ⟨hi, rfl⟩ | ⟨d, v, hdest, hsame⟩ | ⟨rx, ry, hi, ha, hsame⟩ | ⟨rx, ry, hi, -, ha, hsame⟩ |
    ⟨rx, ry, hi, -, ha, hsame⟩ | ⟨rx, ry, hi, -, ha, hsame⟩
  case inl => exact .halts c hx
  case inr.inl => exact .finishes hx hi
  all_goals obtain ⟨p, q, r, rfl⟩ := exists_withPins_of_sameButPins hsame
  · exact .writesReg d v p q r hx hdest
  · exact .waits rx ry p q r hx hi ha
  · exact .readsScratch rx ry p q r hx hi ha
  · exact .writesRam rx ry p q r hx hi ha
  · exact .writesConsole rx ry p q r hx hi ha

/-- Every tick that answers a next state is one of the named cases. -/
theorem tickTo_of_tick {s t : State} (hd : DeclaredInExecute s) (h : tick s = .next t) :
    TickTo s t := by
  cases hx : s.cpuState with
  | halted =>
    rw [tick_halted s hx] at h
    cases h
    exact .stopped hx
  | fetch => exact tickTo_of_fetch hx h
  | decode => exact tickTo_of_decode hx h
  | execute => exact tickTo_of_execute hx (hd hx) h

/-- A tick keeps Execute to declared opcodes. -/
theorem declaredInExecute_tick {s t : State} (hd : DeclaredInExecute s) (h : tick s = .next t) :
    DeclaredInExecute t := by
  cases tickTo_of_tick hd h with
  | latched _ hdecl => exact fun _ => hdecl
  | waits _ _ _ _ _ hx => exact fun _ => hd hx
  | readsScratch _ _ _ _ _ hx => exact fun _ => hd hx
  | stopped hx | unfetched _ _ _ hx => exact fun hex => nomatch hx.symm.trans hex
  | _ => exact nofun

/-- No tick changes the parameters. -/
theorem params_tick {s t : State} (hd : DeclaredInExecute s) (h : tick s = .next t) :
    t.params = s.params := by
  cases tickTo_of_tick hd h <;> rfl

/-- A tick of a running CPU is counted, a tick of a halted one is not (10_state.md R33, R172). -/
theorem cycle_tick {s t : State} (hd : DeclaredInExecute s) (h : tick s = .next t) :
    t.cycle = if s.cpuState = .halted then s.cycle else s.cycle + 1 := by
  cases tickTo_of_tick hd h <;> simp only [*, reduceIte, reduceCtorEq] <;> rfl

/-! ### Several ticks, and the ticks of a step -/

/-- What every tick keeps, any number of ticks keeps. -/
theorem ticks_induction {P : State → Prop} (keeps : ∀ u v, P u → tick u = .next v → P v) {n : Nat}
    {s t : State} (hs : P s) (h : ticks n s = .next t) : P t := by
  induction n generalizing s with
  | zero => cases h; exact hs
  | succ n ih =>
    obtain ⟨u, hu, h⟩ := andThen_eq_next h
    exact ih (keeps s u hs hu) h

/-- `n + 1` ticks are a tick and the rest. -/
theorem ticks_succ (n : Nat) (s : State) : ticks (n + 1) s = andThen (tick s) (ticks n) := rfl

/-- `n` ticks change no parameter and count at most `n`. -/
theorem params_cycle_ticks {n : Nat} {s t : State} (hd : DeclaredInExecute s)
    (h : ticks n s = .next t) : t.params = s.params ∧ s.cycle ≤ t.cycle ∧ t.cycle ≤ s.cycle + n := by
  induction n generalizing s with
  | zero => cases h; exact ⟨rfl, Nat.le_refl _, Nat.le_refl _⟩
  | succ n ih =>
    obtain ⟨u, hu, h⟩ := andThen_eq_next h
    obtain ⟨hparams, hge, hle⟩ := ih (declaredInExecute_tick hd hu) h
    have hcycle := cycle_tick hd hu
    refine ⟨hparams.trans (params_tick hd hu), ?_, ?_⟩ <;> split at hcycle <;> omega

/-- From a running CPU the first of the ticks is counted. -/
theorem cycle_lt_ticks {n : Nat} {s t : State} (hd : DeclaredInExecute s) (hx : s.cpuState ≠ .halted)
    (hn : 1 ≤ n) (h : ticks n s = .next t) : s.cycle < t.cycle := by
  obtain ⟨n, rfl⟩ := Nat.exists_eq_add_of_le' hn
  obtain ⟨u, hu, h⟩ := andThen_eq_next h
  have hcycle := cycle_tick hd hu
  rw [if_neg hx] at hcycle
  have hge := (params_cycle_ticks (declaredInExecute_tick hd hu) h).2.1
  omega

/-- A step from Decode is the Decode tick, and the ticks of Execute after it. -/
theorem step_decode_ticks (s : State) (hx : s.cpuState = .decode) :
    ∃ n, 1 ≤ n ∧ n ≤ 3 ∧ step s = ticks n s := by
  by_cases hd : (Fields.ofWord s.ir).declared = true
  · have htick : tick s = .next { afterLatch s with cpuState := .execute } := by
      rw [tick_decode s hx, decodeTick_eq, if_pos hd, decodePhase_eq, if_pos hd]
      rfl
    have hstep : step s = step { afterLatch s with cpuState := .execute } := by
      rw [step_decode s hx, decodePhase_eq, if_pos hd, step_execute _ rfl]
      rfl
    rcases step_execute_tick { afterLatch s with cpuState := .execute } rfl hd with h | h
    · exact ⟨2, by decide, by decide, by rw [hstep, h, ticks_succ, htick, andThen_next, ticks_one]⟩
    · exact ⟨3, by decide, by decide, by rw [hstep, h, ticks_succ 2, htick, andThen_next]⟩
  · refine ⟨1, by decide, by decide, ?_⟩
    have hw : (Fields.ofWord s.ir).instr.wellFormed = false := by
      rw [wellFormed_instr]; simpa using hd
    rw [ticks_one, tick_decode s hx, step_decode s hx, decodeTick_eq, if_neg hd, decodePhase_eq]
    exact exec_unassigned _ _ hw

/-- A step from Fetch is the Fetch tick, and, where it was answered, the step from Decode after it. -/
theorem step_fetch_ticks (s : State) (hx : s.cpuState = .fetch) :
    ∃ n, 1 ≤ n ∧ n ≤ 4 ∧ step s = ticks n s := by
  have hstep : step s = andThen (tick s) fun t => if t.cpuState = .decode then step t else .next t := by
    rw [tick_fetch s hx, step, advance, hx]
    refine congrArg (andThen (fetchTick s)) (funext fun t => ?_)
    by_cases hdec : t.cpuState = .decode
    · rw [if_pos hdec, if_pos hdec, step, advance, hdec]
    · rw [if_neg hdec, if_neg hdec]
  cases ht : tick s with
  | next t =>
    rw [ht, andThen_next] at hstep
    by_cases hdec : t.cpuState = .decode
    · obtain ⟨n, h1, h3, hn⟩ := step_decode_ticks t hdec
      exact ⟨n + 1, by omega, by omega, by rw [hstep, if_pos hdec, hn, ticks_succ, ht, andThen_next]⟩
    · exact ⟨1, by decide, by decide, by rw [hstep, if_neg hdec, ticks_one, ht]⟩
  | fault e => exact ⟨1, by decide, by decide, by rw [hstep, ticks_one, ht, andThen_fault]⟩
  | refused e => exact ⟨1, by decide, by decide, by rw [hstep, ticks_one, ht, andThen_refused]⟩

/-- A step is one to four ticks, wherever Execute holds a declared opcode only. -/
theorem exists_step_eq_ticks {s : State} (hd : DeclaredInExecute s) :
    ∃ n, 1 ≤ n ∧ n ≤ 4 ∧ (s.cpuState = .execute → n ≤ 2) ∧ step s = ticks n s := by
  cases hx : s.cpuState with
  | fetch =>
    obtain ⟨n, h1, h4, hn⟩ := step_fetch_ticks s hx
    exact ⟨n, h1, h4, nofun, hn⟩
  | decode =>
    obtain ⟨n, h1, h3, hn⟩ := step_decode_ticks s hx
    exact ⟨n, h1, by omega, nofun, hn⟩
  | execute =>
    rcases step_execute_tick s hx (hd hx) with h | h
    · exact ⟨1, by decide, by decide, fun _ => by decide, by rw [h, ticks_one]⟩
    · exact ⟨2, by decide, by decide, fun _ => by decide, h⟩
  | halted => exact ⟨1, by decide, by decide, nofun, by rw [step_halted s hx, ticks_one]⟩

/-- The invariant's clause on Execute. -/
theorem State.Inv.declaredInExecute {s : State} (hs : s.Inv) : DeclaredInExecute s := hs.executeDeclared

/-- Settles O10: from each CPU state the step is the ticks that the state machine makes. -/
theorem stepIsOneToFourTicks : Obligations.StepIsOneToFourTicks := by
  intro s hs
  obtain ⟨n, h1, h4, -, hn⟩ := exists_step_eq_ticks hs.declaredInExecute
  exact ⟨n, h1, h4, hn⟩

/-- A step in Execute with an unassigned number in the latch, which no run reaches (log entry 16). -/
theorem step_execute_undeclared {s : State} (hx : s.cpuState = .execute)
    (hd : s.dec.declared ≠ true) : step s = .next (raiseHalt .unrecognizedOpcode s) := by
  rw [step_execute s hx]
  exact exec_unassigned _ s (by rw [wellFormed_instr]; exact Bool.eq_false_iff.2 hd)

/-- Settles O17: the ticks of the step count, and where a latch outside the invariant makes no tick at all
the parameters are kept by the halt. -/
theorem stepCountsTicksAndKeepsParameters : Obligations.StepCountsTicksAndKeepsParameters := by
  intro s t h
  by_cases hd : DeclaredInExecute s
  · obtain ⟨n, h1, h4, hex, hn⟩ := exists_step_eq_ticks hd
    obtain ⟨hparams, -, hle⟩ := params_cycle_ticks hd (hn ▸ h)
    have hlt : s.cpuState ≠ .halted → s.cycle < t.cycle := fun hx => cycle_lt_ticks hd hx h1 (hn ▸ h)
    refine ⟨hparams, fun hx => ?halted, fun hx => ⟨hlt ?_, by omega⟩, fun hx _ => ⟨hlt ?_, ?_⟩⟩
    case halted =>
      rw [step_halted s hx] at h
      rw [cycle_tick hd h, if_pos hx]
    · rcases hx with hx | hx <;> rw [hx] <;> decide
    · rw [hx]; decide
    · have := hex hx; omega
  · obtain ⟨hx, hdecl⟩ : s.cpuState = .execute ∧ s.dec.declared ≠ true := by
      simpa [DeclaredInExecute] using hd
    rw [step_execute_undeclared hx hdecl] at h
    cases h
    refine ⟨rfl, fun hstop => ?_, fun hearly => ?_, fun _ hdecl' => absurd hdecl' hdecl⟩
    · exact nomatch hx.symm.trans hstop
    · rcases hearly with hearly | hearly <;> exact nomatch hx.symm.trans hearly

end Sys2Proof.Machine
end

section
/-! The invariant of the machine, clause by clause over the cases of a tick, and its consequences. -/

namespace Sys2Proof.Machine

/-- A pending write is one of a latched MOV II. -/
theorem pending_isII {s : State} (hs : s.Inv) (hp : s.pending = true) :
    s.dec.instr = .movII s.dec.rx s.dec.ry := by
  obtain ⟨-, hop, hmode⟩ := hs.pendingOnly hp
  exact instr_of_movII hop hmode

/-- While another instruction is latched no write is pending. -/
theorem pending_eq_false {s : State} (hs : s.Inv) (hi : ∀ rx ry, s.dec.instr ≠ .movII rx ry) :
    s.pending = false :=
  Bool.eq_false_iff.2 fun hp => hi _ _ (pending_isII hs hp)

/-- Outside Execute no write is pending. -/
theorem pending_eq_false_of_ne {s : State} (hs : s.Inv) (hx : s.cpuState ≠ .execute) :
    s.pending = false :=
  Bool.eq_false_iff.2 fun hp => hx (hs.pendingOnly hp).1

/-- A running CPU has no halt record. -/
theorem haltRecord_eq_none {s : State} (hs : s.Inv) (hx : s.cpuState ≠ .halted) :
    s.haltRecord = none := by
  rw [← Option.not_isSome_iff_eq_none, hs.recordIff]
  exact hx

/-- The RAM answers at no address 0: that is the console's (20_memory.md R71). -/
theorem RamWordAddress.toNat_ne_zero {a : Word} (ha : RamWordAddress a) : a.toNat ≠ 0 :=
  fun h => ha.1 (BitVec.eq_of_toNat_eq h)

/-- The console's buffer after a byte holds no zero byte and no newline, if it held none before. -/
theorem bufferAfter_clean {c : Byte} {buffer : List Byte}
    (h : ∀ b ∈ buffer, b ≠ 0 ∧ b ≠ Config.newline) :
    ∀ b ∈ bufferAfter c buffer, b ≠ 0 ∧ b ≠ Config.newline := by
  unfold bufferAfter
  split
  · nofun
  · rename_i hnewline
    split
    · exact h
    · rename_i hzero
      intro b hb
      rcases List.mem_append.1 hb with hb | hb
      · exact h b hb
      · rw [List.mem_singleton.1 hb]
        exact ⟨hzero, hnewline⟩

section Tick
variable {s t : State} (hs : s.Inv) (h : TickTo s t)
include hs h

theorem ramWf_tick : Memory.wf t.params.ramFill t.ram := by
  cases h with
  | writesRam rx _ _ _ _ _ _ ha => exact writeWord_wf _ _ _ hs.ramWf ha.2
  | _ => exact hs.ramWf

theorem bufferClean_tick : ∀ c ∈ t.conBuffer, c ≠ 0 ∧ c ≠ Config.newline := by
  cases h with
  | writesConsole => exact bufferAfter_clean hs.bufferClean
  | _ => exact hs.bufferClean

theorem pendingOnly_tick : t.pending = true →
    t.cpuState = .execute ∧ t.dec.op = Config.opMOV ∧ t.dec.mode = Config.modeII := by
  cases h with
  | stopped hx | unfetched _ _ _ hx => exact hs.pendingOnly
  | fetched _ _ _ hx | latched hx =>
    have hidle := pending_eq_false_of_ne hs (by rw [hx]; decide)
    exact fun hp => nomatch hidle.symm.trans hp
  | finishes hx hi =>
    have hidle := pending_eq_false hs hi
    exact fun hp => nomatch hidle.symm.trans hp
  | writesReg d v _ _ _ hx hd =>
    have hidle := pending_eq_false hs fun rx ry hi => by rw [hi] at hd; cases hd
    exact fun hp => nomatch hidle.symm.trans hp
  | waits => exact hs.pendingOnly
  | readsScratch rx ry _ _ _ hx hi =>
    obtain ⟨hop, hmode, -⟩ := instr_eq_movII hi
    exact fun _ => ⟨hx, hop, hmode⟩
  | _ => nofun

theorem recordIff_tick : t.haltRecord.isSome = true ↔ t.cpuState = .halted := by
  cases h with
  | stopped | unfetched | waits | readsScratch => exact hs.recordIff
  | unrecognized | halts => exact iff_of_true rfl rfl
  | fetched _ _ _ hx | latched hx | finishes hx | writesReg _ _ _ _ _ hx
  | writesRam _ _ _ _ _ hx | writesConsole _ _ _ _ _ hx =>
    have hnone := haltRecord_eq_none hs (by rw [hx]; decide)
    exact iff_of_false (fun hr => Bool.eq_false_iff.1 (congrArg Option.isSome hnone) hr) nofun

theorem executeLatched_tick : t.cpuState = .execute → t.dec = Fields.ofWord t.ir := by
  cases h with
  | stopped hx | unfetched _ _ _ hx => exact fun hex => nomatch hx.symm.trans hex
  | latched => exact fun _ => rfl
  | waits _ _ _ _ _ hx | readsScratch _ _ _ _ _ hx => exact fun _ => hs.executeLatched hx
  | _ => nofun

omit hs in
theorem haltedQuiet_tick : t.cpuState = .halted →
    t.cpuPins.valid = false ∧ t.ramPins.valid = false ∧ t.conPins.valid = false := by
  cases h with
  | stopped | unrecognized | halts => exact fun _ => ⟨rfl, rfl, rfl⟩
  | unfetched _ _ _ hx | waits _ _ _ _ _ hx | readsScratch _ _ _ _ _ hx =>
    exact fun hex => nomatch hx.symm.trans hex
  | _ => nofun
end Tick

/-- Settles O9: each clause of the invariant over the cases of the tick. -/
theorem tickKeepsTheInvariant : Obligations.TickKeepsTheInvariant := by
  intro s t hs h
  have hcase := tickTo_of_tick hs.declaredInExecute h
  exact {
    ramWf := ramWf_tick hs hcase
    pendingOnly := pendingOnly_tick hs hcase
    recordIff := recordIff_tick hs hcase
    executeDeclared := declaredInExecute_tick hs.declaredInExecute h
    executeLatched := executeLatched_tick hs hcase
    haltedQuiet := haltedQuiet_tick hcase
    bufferClean := bufferClean_tick hs hcase }

/-- What every tick keeps under the invariant, a step keeps. -/
theorem step_induction {P : State → Prop} (keeps : ∀ u v, u.Inv → P u → TickTo u v → P v)
    {s t : State} (hs : s.Inv) (hP : P s) (h : step s = .next t) : t.Inv ∧ P t := by
  obtain ⟨n, -, -, -, hn⟩ := exists_step_eq_ticks hs.declaredInExecute
  refine ticks_induction (P := fun u => u.Inv ∧ P u) (fun u v hu huv => ?_) ⟨hs, hP⟩ (hn ▸ h)
  exact ⟨tickKeepsTheInvariant u v hu.1 huv,
    keeps u v hu.1 hu.2 (tickTo_of_tick hu.1.declaredInExecute huv)⟩

/-- Settles O8: every tick of the step keeps the invariant. -/
theorem stepKeepsTheInvariant : Obligations.StepKeepsTheInvariant := fun _ _ hs h =>
  (step_induction (P := fun _ => True) (fun _ _ _ _ _ => trivial) hs trivial h).1

/-- No tick writes byte 0: the RAM is asked to write at other addresses only. -/
theorem readByte_zero_tick {s t : State} (hs : s.Inv) (h : TickTo s t) :
    t.readByte 0 = s.readByte 0 := by
  cases h with
  | writesRam rx _ _ _ _ _ _ ha =>
    obtain ⟨hrising, -, -⟩ := hs.ramWf
    exact ramSameOutsideWord_writeWord (beginTick s) _ _ hrising 0 ha.toNat_ne_zero.symm nofun
  | _ => rfl

/-- Settles O47: no tick of the step writes byte 0. -/
theorem ramByteZeroNeverChanges : Obligations.RamByteZeroNeverChanges := by
  intro s t hs h
  exact (step_induction (P := fun u => u.readByte 0 = s.readByte 0)
    (fun u v hu hP huv => (readByte_zero_tick hu huv).trans hP) hs rfl h).2

/-! ### The halt record -/

/-- A halted CPU's pins are deasserted already. -/
theorem quietPins_eq_self {s : State} (hquiet : NoPinAsserted s) : quietPins s = s := by
  rcases s with ⟨_, _, _, _, _, _, _, _, ⟨_, _, _, _⟩, ⟨_, _, _, _⟩, ⟨_, _, _, _⟩, _, _, _⟩
  obtain ⟨rfl, rfl, rfl⟩ := hquiet
  rfl

/-- The record of a halt holds the latched opcode and mode bits and the tick's number (R34, R272). -/
def RecordOfLatch (s : State) : Prop :=
  ∀ r, s.haltRecord = some r → r.op = s.dec.op ∧ r.mode = s.dec.mode ∧ r.cycle = s.cycle

/-- Without a record there is nothing to say. -/
theorem recordOfLatch_of_none {s : State} (hnone : s.haltRecord = none) : RecordOfLatch s := by
  intro r hr
  rw [hnone] at hr
  cases hr

/-- A raised halt records its latch and its tick. -/
theorem recordOfLatch_raiseHalt (c : HaltCause) (s : State) : RecordOfLatch (raiseHalt c s) := by
  intro r hr
  cases hr
  exact ⟨rfl, rfl, rfl⟩

theorem recordOfLatch_tick {s t : State} (hs : s.Inv) (hr : RecordOfLatch s) (h : TickTo s t) :
    RecordOfLatch t := by
  cases h with
  | stopped => exact hr
  | unrecognized | halts => exact recordOfLatch_raiseHalt _ _
  | fetched _ _ _ hx | unfetched _ _ _ hx | latched hx | finishes hx | writesReg _ _ _ _ _ hx
  | waits _ _ _ _ _ hx | readsScratch _ _ _ _ _ hx | writesRam _ _ _ _ _ hx
  | writesConsole _ _ _ _ _ hx => 
    have hnone := haltRecord_eq_none hs (by rw [hx]; decide)
    exact recordOfLatch_of_none hnone

/-- A tick keeps a record that is present. -/
theorem haltRecord_tick {s t : State} {r : HaltRecord} (hs : s.Inv) (hr : s.haltRecord = some r)
    (h : TickTo s t) : t.haltRecord = some r := by
  have hx : s.cpuState = .halted := hs.recordIff.1 (by rw [hr]; rfl)
  cases h with
  | stopped => exact hr
  | fetched _ _ _ hx' | unfetched _ _ _ hx' | latched hx' | unrecognized hx' | halts _ hx'
  | finishes hx' | writesReg _ _ _ _ _ hx' | waits _ _ _ _ _ hx' | readsScratch _ _ _ _ _ hx'
  | writesRam _ _ _ _ _ hx' | writesConsole _ _ _ _ _ hx' => exact nomatch hx.symm.trans hx'

/-- Settles O16: the invariant says when a record is present, the ticks of the step say what it holds. -/
theorem haltRecordIsWrittenOnce : Obligations.HaltRecordIsWrittenOnce := by
  intro s t hs h
  have ht := stepKeepsTheInvariant s t hs h
  refine ⟨haltRecord_eq_none hs, haltRecord_eq_none ht, fun hrunning hhalted => ?written,
    fun r hr => (step_induction (fun u v hu hP huv => haltRecord_tick hu hP huv) hs hr h).2, rfl⟩
  case written =>
    obtain ⟨r, hr⟩ := Option.isSome_iff_exists.1 (ht.recordIff.2 hhalted)
    have hlatch := (step_induction (fun u v hu hP huv => recordOfLatch_tick hu hP huv) hs
      (recordOfLatch_of_none (haltRecord_eq_none hs hrunning)) h).2
    exact ⟨r, hr, hlatch r hr⟩

/-- Settles O15: a halted CPU's tick can change its pins' `valid` alone, and these are false already. -/
theorem haltedIsTerminal : Obligations.HaltedIsTerminal := by
  intro s hs hx
  have htick : tick s = .next s := by rw [tick_halted s hx, quietPins_eq_self (hs.haltedQuiet hx)]
  have hrequest : nextRequest s = none := by
    rw [nextRequest, cpuSetup, hx]
    rfl
  exact ⟨htick, (step_halted s hx).trans htick, hrequest, rfl⟩

/-! ### Reset -/

/-- The register file after reset (R39). -/
theorem getElem_resetRegs (p : Params) (q : RegIdx) :
    (resetRegs p)[q.toNat]'q.isLt =
      if q = Config.idxPC then p.programBase else if q = Config.idxSP then p.stackTop else 0 := by
  rcases q with ⟨⟨q, hq⟩⟩
  interval_cases q <;> rfl

/-- The registers of a state that has the register file of reset. -/
theorem reg_of_resetRegs {s : State} (hregs : s.regs = resetRegs s.params) :
    s.pc = s.params.programBase ∧ s.sp = s.params.stackTop ∧
      ∀ q, q ≠ Config.idxPC → q ≠ Config.idxSP → s.reg q = 0 := by
  have hreg : ∀ q, s.reg q = if q = Config.idxPC then s.params.programBase
      else if q = Config.idxSP then s.params.stackTop else 0 := fun q => by
    simp only [State.reg, hregs, getElem_resetRegs]
  refine ⟨hreg Config.idxPC, hreg Config.idxSP, fun q hpc hsp => ?_⟩
  rw [hreg q, if_neg hpc, if_neg hsp]

/-- Settles O6: the reset state is written out; its registers are those of the reset file. -/
theorem resetLeavesTheStatesOfTheTable : Obligations.ResetLeavesTheStatesOfTheTable := by
  obtain ⟨hpc, hsp, hother⟩ := reg_of_resetRegs (s := State.reset) rfl
  exact ⟨rfl, hpc, hsp, hother, rfl, rfl, rfl, rfl, rfl, rfl, rfl, rfl, fun _ => rfl, rfl, rfl⟩

/-- Settles O7: nothing is pending, latched or recorded after reset, and the store is empty. -/
theorem resetMeetsTheInvariant : Obligations.ResetMeetsTheInvariant where
  ramWf := reset_ram_wf
  pendingOnly := nofun
  recordIff := iff_of_false nofun nofun
  executeDeclared := nofun
  executeLatched := nofun
  haltedQuiet := nofun
  bufferClean := nofun

end Sys2Proof.Machine
end

section
/-! Instructions in general (40_cycle.md R168 to R170): which halt, and what every other one leaves unchanged. -/

namespace Sys2Proof.Machine

/-! ### The instructions that halt -/

/-- The halt an instruction brings about under the parameters `p`, if any (30_encoding.md R112). -/
def haltCauseOf (p : Params) : Instr → Option HaltCause
  | .halt => some .haltInstruction
  | .nop => if p.nopBehaviour = .notImplemented then some .notImplemented else none
  | .movIDL _ _ | .movIDU _ _ | .movIWD _ _ => some .unsupportedMode
  | .jz m _ _ | .jnz m _ _ => if m = Config.modeDD then none else some .unsupportedMode
  | .jmp _ | .call _ | .ret | .push _ | .pop _ | .not _ => some .notImplemented
  | .add _ _ _ | .sub _ _ _ | .and _ _ _ | .or _ _ _ | .xor _ _ _ | .shl _ _ _ | .shr _ _ _ =>
    some .notImplemented
  | .unassigned17 | .unassigned18 | .unassigned19 | .unassigned1A | .unassigned1B
  | .unassigned1C | .unassigned1D | .unassigned1E | .unassigned1F => some .unrecognizedOpcode
  | .movDD _ _ | .movDLI _ _ | .movDUI _ _ | .movDWI _ _ | .movII _ _ => none
  | .ldi _ _ | .ldu _ _ | .ldo _ _ | .inc _ | .dec _ => none

/-- The class of NOP, by its parameter (decision D12). -/
theorem haltClass_nop (p : Params) (mode : BitVec 3) :
    haltClass p Config.opNOP mode = haltCauseOf p .nop := by
  cases hp : p.nopBehaviour <;> simp [haltClass, haltCauseOf, Config.opNOP, hp]

/-- The class of MOV, by its mode (decision D8). -/
theorem haltClass_mov (p : Params) (mode : BitVec 3) (rx ry : RegIdx) :
    haltClass p Config.opMOV mode = haltCauseOf p (movOfMode mode rx ry) := by
  rcases mode with ⟨⟨mode, hmode⟩⟩
  interval_cases mode <;> rfl

/-- The class of JZ, by its mode (decision D7). -/
theorem haltClass_jz (p : Params) (mode : BitVec 3) (rx ry : RegIdx) :
    haltClass p Config.opJZ mode = haltCauseOf p (.jz mode rx ry) := by
  rcases mode with ⟨⟨mode, hmode⟩⟩
  interval_cases mode <;> rfl

/-- The class of JNZ, by its mode (decision D7). -/
theorem haltClass_jnz (p : Params) (mode : BitVec 3) (rx ry : RegIdx) :
    haltClass p Config.opJNZ mode = haltCauseOf p (.jnz mode rx ry) := by
  rcases mode with ⟨⟨mode, hmode⟩⟩
  interval_cases mode <;> rfl

/-- The halting class of a word is that of the instruction it decodes to: the opcode number alone decides,
but for NOP, MOV and the two jumps. -/
theorem haltClass_eq (p : Params) (f : Fields) :
    haltClass p f.op f.mode = haltCauseOf p f.instr := by
  rcases f with ⟨⟨⟨op, hop⟩⟩, mode, rx, ry, rl, imm⟩
  interval_cases op <;> try rfl
  · exact haltClass_nop p mode
  · exact haltClass_mov p mode rx ry
  · exact haltClass_jz p mode rx ry
  · exact haltClass_jnz p mode rx ry

/-- The setup of a halting instruction raises its halt (60_exceptions.md R271). -/
theorem executeSetup_of_halts {i : Instr} {c : HaltCause} {s : State}
    (hc : haltCauseOf s.params i = some c) : executeSetup i s = raiseHalt c s := by
  cases i with
  | nop =>
    simp only [haltCauseOf] at hc
    split at hc
    · rename_i hn
      cases hc
      simp [executeSetup, nopSetup, hn]
    · cases hc
  | jz m rx ry | jnz m rx ry =>
    simp only [haltCauseOf] at hc
    split at hc
    · cases hc
    · rename_i hm
      cases hc
      exact if_pos hm
  | movDD | movDLI | movDUI | movDWI | movII | ldi | ldu | ldo | inc | dec => cases hc
  | _ => cases hc; rfl

/-- Setup of a conditional jump of mode 0 (45_condjump.md R241, R242). -/
theorem condJumpSetup_modeDD (taken : Word → Bool) (rx ry : RegIdx) (s : State) :
    condJumpSetup taken Config.modeDD rx ry s =
      if taken (s.reg rx) then s.setReg Config.idxPC (s.reg ry) else s :=
  if_neg (not_not.2 rfl)

/-- The setup of any other instruction leaves the CPU running and writes no record. -/
theorem executeSetup_of_runs {i : Instr} {s : State} (hc : haltCauseOf s.params i = none) :
    (executeSetup i s).cpuState = s.cpuState ∧ (executeSetup i s).haltRecord = s.haltRecord := by
  cases i with
  | nop =>
    simp only [haltCauseOf] at hc
    split at hc
    · cases hc
    · rename_i hn
      cases hn' : s.params.nopBehaviour with
      | noop => simp [executeSetup, nopSetup, hn']
      | notImplemented => exact absurd hn' hn
  | jz m rx ry | jnz m rx ry =>
    simp only [haltCauseOf] at hc
    split at hc
    · rename_i hm
      subst hm
      simp only [executeSetup, jzSetup, jnzSetup, condJumpSetup_modeDD]
      split <;> exact ⟨rfl, rfl⟩
    · cases hc
  | movII rx ry =>
    simp only [executeSetup, movIISetup]
    split <;> exact ⟨rfl, rfl⟩
  | movDD | movDLI | movDUI | movDWI | ldi | ldu | ldo | inc | dec => exact ⟨rfl, rfl⟩
  | _ => cases hc

/-! ### One Execute tick of an instruction -/

/-- One Execute tick of the instruction `i`. -/
def execTick (i : Instr) (s : State) : Result := executeTick (executeSetup i) (executeComplete i) s

/-- An instruction that halts does so in its first tick, with no request. -/
theorem execTick_of_halts {i : Instr} {c : HaltCause} {s : State}
    (hc : haltCauseOf s.params i = some c) :
    execTick i s = .next (quietPins (raiseHalt c (beginTick s))) := by
  have hsetup : executeSetup i (beginTick s) = raiseHalt c (beginTick s) := executeSetup_of_halts hc
  rw [← executeTick_halts c (executeComplete i) s]
  simp only [execTick, executeTick, runTick, hsetup]

/-- MOV II as an instruction. -/
theorem isII_iff {i : Instr} : isII i = true ↔ ∃ rx ry, i = .movII rx ry := by
  cases i <;> simp [isII]

/-- A declared instruction is its Execute tick, but for MOV II, which can go on with another one. -/
theorem exec_cases {i : Instr} {s t : State} (hw : i.wellFormed = true) (h : exec i s = .next t) :
    execTick i s = .next t ∨
      ∃ u, isII i = true ∧ execTick i s = .next u ∧ execTick i u = .next t := by
  by_cases hi : isII i = true
  · obtain ⟨rx, ry, rfl⟩ := isII_iff.1 hi
    change execMovII rx ry s = .next t at h
    by_cases hp : s.pending = true
    · exact .inl (by rw [← h, execMovII, if_pos hp]; rfl)
    · rw [execMovII, if_neg hp] at h
      obtain ⟨u, hu, h⟩ := andThen_eq_next h
      split at h
      · exact .inr ⟨u, rfl, hu, h⟩
      · cases h
        exact .inl hu
  · exact .inl (by rw [← h, exec_tick i s hw (Bool.eq_false_iff.2 hi)]; rfl)

/-- A declared instruction that halts, whole. -/
theorem exec_of_halts {i : Instr} {c : HaltCause} {s : State} (hw : i.wellFormed = true)
    (hc : haltCauseOf s.params i = some c) :
    exec i s = .next (quietPins (raiseHalt c (beginTick s))) := by
  have hi : isII i = false := by
    cases i with
    | movII => cases hc
    | _ => rfl
  rw [exec_tick i s hw hi]
  exact execTick_of_halts hc

/-- A declared instruction that halts changes what a halt in Execute changes, and nothing else. -/
theorem exec_haltedInExecute {i : Instr} {c : HaltCause} {s : State} (hw : i.wellFormed = true)
    (hc : haltCauseOf s.params i = some c) :
    ∃ t, exec i s = .next t ∧ HaltedInExecute s t c :=
  ⟨_, exec_of_halts hw hc, haltedInExecute_raiseHalt c s⟩

/-- Settles O27: HALT is a halting class of its own. -/
theorem haltEntersHalted : Obligations.HaltEntersHalted := fun _ => exec_haltedInExecute rfl rfl

/-- Settles O36: the three are in the halting class of decision D8. -/
theorem storeModesHalt : Obligations.StoreModesHalt := by
  rintro s rx ry i (rfl | rfl | rfl) <;> exact exec_haltedInExecute rfl rfl

/-- Settles O42: the mode is tested before the condition (decision D7). -/
theorem conditionalJumpsOfOtherModesHalt : Obligations.ConditionalJumpsOfOtherModesHalt := by
  rintro s m rx ry i hm (rfl | rfl) <;> exact exec_haltedInExecute rfl (if_neg hm)

/-- Settles O43: all thirteen are in the one halting class, whatever their fields. -/
theorem reservedOpcodesHalt : Obligations.ReservedOpcodesHalt := by
  intro s i m rx ry hi
  have hclass : i.wellFormed = true ∧ haltCauseOf s.params i = some .notImplemented := by
    simp only [List.mem_cons, List.not_mem_nil, or_false] at hi
    rcases hi with rfl | rfl | rfl | rfl | rfl | rfl | rfl | rfl | rfl | rfl | rfl | rfl | rfl <;>
      exact ⟨rfl, rfl⟩
  exact exec_haltedInExecute hclass.1 hclass.2

/-- Settles O44: `exec` of an unassigned number is the halt alone. -/
theorem unassignedOpcodesHalt : Obligations.UnassignedOpcodesHalt := by
  intro s i hi
  have hw : i.wellFormed = false := by
    simp only [List.mem_cons, List.not_mem_nil, or_false] at hi
    rcases hi with rfl | rfl | rfl | rfl | rfl | rfl | rfl | rfl | rfl <;> rfl
  exact ⟨_, exec_unassigned i s hw, ⟨rfl, rfl, rfl, rfl, fun _ => rfl, fun _ => rfl, ⟨rfl, rfl⟩, rfl, rfl,
    rfl⟩, rfl, rfl, rfl⟩

/-- Settles O28: nothing, or the halt of the other value of the parameter. -/
theorem nopDoesNothingOrHalts : Obligations.NopDoesNothingOrHalts := by
  intro s hx
  refine ⟨fun hn => ?noop, fun hn => exec_haltedInExecute rfl (if_pos hn)⟩
  case noop =>
    obtain ⟨t, ht, hregs, hdone⟩ :=
      executeTick_same nopSetup s (by simp only [nopSetup, beginTick_params, hn]) hx
    exact ⟨t, ht, hdone, hregs⟩

/-! ### What an Execute tick leaves unchanged -/

/-- What an Execute tick that answers a next state is made of. -/
theorem execTick_eq_next {i : Instr} {s t : State} (h : execTick i s = .next t) :
    ∃ u, busCycle (executeSetup i (beginTick s)) = .next u ∧
      (t = u ∨ t = executeComplete i u) := by
  obtain ⟨u, hu, h⟩ := andThen_eq_next h
  refine ⟨u, hu, ?_⟩
  rw [← Host.Outcome.next.inj h, unlessHalted]
  split
  · exact .inl rfl
  · exact .inr rfl

/-- Setup writes no register but the destination. -/
theorem reg_executeSetup {i : Instr} {s : State} {q : RegIdx} (hq : destination i ≠ some q) :
    (executeSetup i s).reg q = s.reg q := by
  cases i with
  | movDD | ldi | ldu | ldo | inc | dec =>
    exact reg_setReg_ne _ _ _ _ fun e => hq (congrArg some e.symm)
  | jz m rx ry | jnz m rx ry =>
    simp only [executeSetup, jzSetup, jnzSetup, condJumpSetup]
    split
    · rfl
    · split
      · exact reg_setReg_ne _ _ _ _ fun e => hq (congrArg some e.symm)
      · rfl
  | nop =>
    simp only [executeSetup, nopSetup]
    split <;> rfl
  | movII =>
    simp only [executeSetup, movIISetup]
    split <;> rfl
  | _ => rfl

/-- A load's completion writes no register but its destination. -/
theorem reg_loadComplete {merge : Word → Word → Word} {rx q : RegIdx} {s : State} (hq : q ≠ rx) :
    (loadComplete merge rx s).reg q = s.reg q := by
  unfold loadComplete
  split
  · exact reg_setReg_ne _ _ _ _ hq
  · rfl

/-- Completion writes no register but the destination. -/
theorem reg_executeComplete {i : Instr} {s : State} {q : RegIdx} (hq : destination i ≠ some q) :
    (executeComplete i s).reg q = s.reg q := by
  cases i with
  | movDLI | movDUI | movDWI => exact reg_loadComplete fun e => hq (congrArg some e.symm)
  | movII =>
    simp only [executeComplete, movIIComplete]
    split <;> (try split) <;> rfl
  | _ => rfl

/-- An Execute tick writes no register but the destination. -/
theorem reg_execTick {i : Instr} {s t : State} {q : RegIdx} (hq : destination i ≠ some q)
    (h : execTick i s = .next t) : t.reg q = s.reg q := by
  obtain ⟨u, hu, ht⟩ := execTick_eq_next h
  have hbus : u.reg q = s.reg q :=
    (reg_congr (busCycle_frame hu).2.1 q).trans (reg_executeSetup hq)
  rcases ht with rfl | rfl
  · exact hbus
  · exact (reg_executeComplete hq).trans hbus

/-- Settles O45: each tick of the instruction keeps the register. -/
theorem onlyTheDestinationRegisterChanges : Obligations.OnlyTheDestinationRegisterChanges := by
  intro i s t h q hq
  cases hw : i.wellFormed with
  | false =>
    rw [exec_unassigned i s hw] at h
    cases h
    rfl
  | true =>
    rcases exec_cases hw h with h | ⟨u, -, hu, h⟩
    · exact reg_execTick hq h
    · exact (reg_execTick hq h).trans (reg_execTick hq hu)

/-- RAM and console of `t` are those of `s`, with the fill byte the RAM is read under. -/
def StoreSame (s t : State) : Prop :=
  t.params = s.params ∧ t.ram = s.ram ∧ t.conBuffer = s.conBuffer ∧ t.conLines = s.conLines

theorem StoreSame.refl (s : State) : StoreSame s s := ⟨rfl, rfl, rfl, rfl⟩

theorem StoreSame.trans {s u t : State} (h : StoreSame s u) (h' : StoreSame u t) : StoreSame s t := by
  obtain ⟨hp, hr, hb, hl⟩ := h
  obtain ⟨hp', hr', hb', hl'⟩ := h'
  exact ⟨hp'.trans hp, hr'.trans hr, hb'.trans hb, hl'.trans hl⟩

/-- Setup makes requests; it does not touch the store. -/
theorem storeSame_executeSetup (i : Instr) (s : State) : StoreSame s (executeSetup i s) := by
  cases i with
  | jz m rx ry | jnz m rx ry =>
    simp only [executeSetup, jzSetup, jnzSetup, condJumpSetup]
    split <;> (try split) <;> exact StoreSame.refl s
  | nop =>
    simp only [executeSetup, nopSetup]
    split <;> exact StoreSame.refl s
  | movII =>
    simp only [executeSetup, movIISetup]
    split <;> exact StoreSame.refl s
  | _ => exact StoreSame.refl s

/-- Completion does not touch the store. -/
theorem storeSame_executeComplete (i : Instr) (s : State) : StoreSame s (executeComplete i s) := by
  cases i with
  | movDLI | movDUI | movDWI =>
    simp only [executeComplete, movDLIComplete, movDUIComplete, movDWIComplete, loadComplete]
    split <;> exact StoreSame.refl s
  | movII =>
    simp only [executeComplete, movIIComplete]
    split <;> (try split) <;> exact StoreSame.refl s
  | _ => exact StoreSame.refl s

/-- No instruction but MOV II asks for a write. -/
theorem readIntent_executeSetup {i : Instr} {s : State} (hi : ∀ rx ry, i ≠ .movII rx ry)
    (hv : (executeSetup i (beginTick s)).cpuPins.valid = true) :
    (executeSetup i (beginTick s)).cpuPins.readIntent = true := by
  cases i with
  | movDLI | movDUI | movDWI => rfl
  | movII rx ry => exact absurd rfl (hi rx ry)
  | jz m rx ry | jnz m rx ry =>
    simp only [executeSetup, jzSetup, jnzSetup, condJumpSetup] at hv
    split at hv <;> (try split at hv) <;> cases hv
  | nop =>
    simp only [executeSetup, nopSetup] at hv
    split at hv <;> cases hv
  | _ => cases hv

/-- A bus cycle without a write does not touch the store. -/
theorem storeSame_busCycle {s t : State} (h : busCycle s = .next t)
    (hread : s.cpuPins.valid = true → s.cpuPins.readIntent = true) : StoreSame s t := by
  rcases busCycle_cases s t h with ⟨-, rfl⟩ | ⟨-, -, -, hs, -⟩ | ⟨-, -, -, hs, -⟩ |
    ⟨hv, hw, -⟩ | ⟨hv, hw, -⟩
  · exact StoreSame.refl s
  · rw [hs]; exact StoreSame.refl s
  · rw [hs]; exact StoreSame.refl s
  · exact nomatch hw.symm.trans (hread hv)
  · exact nomatch hw.symm.trans (hread hv)

/-- An Execute tick of any instruction but MOV II leaves RAM and console alone. -/
theorem storeSame_execTick {i : Instr} {s t : State} (hi : ∀ rx ry, i ≠ .movII rx ry)
    (h : execTick i s = .next t) : StoreSame s t := by
  obtain ⟨u, hu, ht⟩ := execTick_eq_next h
  have hbus : StoreSame s u :=
    (storeSame_executeSetup i (beginTick s)).trans
      (storeSame_busCycle hu (readIntent_executeSetup hi))
  rcases ht with rfl | rfl
  · exact hbus
  · exact hbus.trans (storeSame_executeComplete i u)

/-- Settles O46: no tick of another instruction asks the bus for a write. -/
theorem onlyMovIIWritesMemory : Obligations.OnlyMovIIWritesMemory := by
  intro i s t h hi
  have hsame : StoreSame s t := by
    cases hw : i.wellFormed with
    | false =>
      rw [exec_unassigned i s hw] at h
      cases h
      exact StoreSame.refl s
    | true =>
      rcases exec_cases hw h with h | ⟨u, hII, -⟩
      · exact storeSame_execTick hi h
      · obtain ⟨rx, ry, rfl⟩ := isII_iff.1 hII
        exact absurd rfl (hi rx ry)
  obtain ⟨hparams, hram, hcon⟩ := hsame
  exact ⟨readByte_congr hparams hram, hcon⟩

/-! ### An instruction of no halting class does not halt -/

/-- Completion writes no record and does not halt. -/
theorem executeComplete_runs (i : Instr) (s : State) (hx : s.cpuState ≠ .halted) :
    (executeComplete i s).cpuState ≠ .halted ∧ (executeComplete i s).haltRecord = s.haltRecord := by
  cases i with
  | movDLI | movDUI | movDWI =>
    simp only [executeComplete, movDLIComplete, movDUIComplete, movDWIComplete, loadComplete]
    split
    · exact ⟨nofun, rfl⟩
    · exact ⟨hx, rfl⟩
  | movII =>
    simp only [executeComplete, movIIComplete]
    split
    · exact ⟨nofun, rfl⟩
    · split <;> exact ⟨hx, rfl⟩
  | _ => exact ⟨nofun, rfl⟩

theorem execTick_of_runs {i : Instr} {s t : State} (hc : haltCauseOf s.params i = none)
    (hx : s.cpuState ≠ .halted) (h : execTick i s = .next t) :
    t.cpuState ≠ .halted ∧ t.haltRecord = s.haltRecord ∧ t.params = s.params := by
  obtain ⟨u, hu, ht⟩ := execTick_eq_next h
  obtain ⟨hstate, hrecord⟩ := executeSetup_of_runs (s := beginTick s) hc
  obtain ⟨hparams, -, hstate', -, -, -, -, hrecord'⟩ := busCycle_frame hu
  have hparams' : u.params = s.params :=
    hparams.trans (storeSame_executeSetup i (beginTick s)).1
  have hux : u.cpuState ≠ .halted := by rw [hstate', hstate]; exact hx
  have hur : u.haltRecord = s.haltRecord := hrecord'.trans hrecord
  rcases ht with rfl | rfl
  · exact ⟨hux, hur, hparams'⟩
  · obtain ⟨htx, htr⟩ := executeComplete_runs i u hux
    exact ⟨htx, htr.trans hur, (storeSame_executeComplete i u).1.trans hparams'⟩

/-- A running CPU is not halted by an instruction of no halting class, and gets no record. -/
theorem exec_of_runs {i : Instr} {s t : State} (hw : i.wellFormed = true)
    (hc : haltCauseOf s.params i = none) (hx : s.cpuState ≠ .halted) (h : exec i s = .next t) :
    t.cpuState ≠ .halted ∧ t.haltRecord = s.haltRecord := by
  rcases exec_cases hw h with h | ⟨u, -, hu, h⟩
  · obtain ⟨htx, htr, -⟩ := execTick_of_runs hc hx h
    exact ⟨htx, htr⟩
  · obtain ⟨hux, hur, hup⟩ := execTick_of_runs hc hx hu
    obtain ⟨htx, htr, -⟩ := execTick_of_runs (hup ▸ hc) hux h
    exact ⟨htx, htr.trans hur⟩

end Sys2Proof.Machine
end

section
/-! The instructions that run, one by one (42_move.md to 45_condjump.md), from Execute. -/

namespace Sys2Proof.Machine

/-! ### Instructions of registers alone -/

/-- Settles O29: the setup is one register write. -/
theorem movDDCopiesARegister : Obligations.MovDDCopiesARegister := fun s rx ry hx =>
  executeTick_setReg (movDDSetup rx ry) s rx (s.reg ry) rfl hx

/-- An 8-bit value extended to a word is joined to a zero high byte. -/
theorem zext16_eq_joinBytes (b : Byte) : zext16 b = joinBytes 0 b := by
  apply BitVec.eq_of_getLsbD_eq
  intro i hi
  rw [zext16, BitVec.getLsbD_setWidth, getLsbD_joinBytes]
  by_cases h8 : i < 8
  · simp [h8, hi]
  · simp [h8, BitVec.getLsbD_of_ge b i (Nat.le_of_not_lt h8)]

/-- Settles O37: the upper byte is that of the old value, or zero, as the parameter says. -/
theorem ldiSetsTheLowByte : Obligations.LdiSetsTheLowByte := by
  intro s rl imm hx
  have hset := executeTick_setReg (ldiSetup rl imm) s (rl.setWidth 4) _ rfl hx
  rw [beginTick_params] at hset
  cases hupper : s.params.ldiUpper <;> rw [hupper] at hset
  · exact hset
  · rwa [mergeLDI, zext16_eq_joinBytes] at hset

/-- Settles O38: the high byte is the immediate, the low byte the old value's. -/
theorem lduSetsTheHighByte : Obligations.LduSetsTheHighByte := fun s rl imm hx =>
  executeTick_setReg (lduSetup rl imm) s (rl.setWidth 4) _ rfl hx

/-- An LDO whose own address is `a` forms `a` plus its unsigned offset, modulo 2^16 (R223). -/
theorem ownAddressPlus_eq {s : State} {a : Word} (imm : Byte) (hpc : s.pc = a + 2) :
    ownAddressPlus imm s = BitVec.ofNat 16 ((a.toNat + imm.toNat) % 65536) := by
  have hown : s.pc - BitVec.ofNat 16 Config.wordBytes = a := by
    rw [hpc]
    exact BitVec.add_sub_cancel a 2
  rw [ownAddressPlus, hown, zext16]
  apply BitVec.eq_of_toNat_eq
  simp only [BitVec.toNat_add, BitVec.toNat_setWidth, BitVec.toNat_ofNat]
  omega

/-- Settles O39: the value written is the own address plus the offset. -/
theorem ldoFormsAnAddressFromItsOwn : Obligations.LdoFormsAnAddressFromItsOwn := by
  intro s rl imm a hx hpc
  have hown := ownAddressPlus_eq (s := beginTick s) imm hpc
  exact executeTick_setReg (ldoSetup rl imm) s _ _ (congrArg _ hown) hx

/-- Settles O40: addition and subtraction of words, as arithmetic modulo 2^16. -/
theorem incDecWrapModulo : Obligations.IncDecWrapModulo := by
  intro s rx hx
  have hinc : s.reg rx + 1 = BitVec.ofNat 16 (((s.reg rx).toNat + 1) % 65536) := by
    apply BitVec.eq_of_toNat_eq
    simp
  have hdec : s.reg rx - 1 = BitVec.ofNat 16 (((s.reg rx).toNat + 65535) % 65536) := by
    apply BitVec.eq_of_toNat_eq
    simp [BitVec.toNat_sub, Nat.add_comm]
  rw [← hinc, ← hdec]
  exact ⟨executeTick_setReg (incSetup rx) s rx _ rfl hx, executeTick_setReg (decSetup rx) s rx _ rfl hx⟩

/-- A conditional jump of mode 0 whose condition holds writes the PC. -/
theorem executeTick_condJump_taken {taken : Word → Bool} {rx : RegIdx} {s : State} (ry : RegIdx)
    (hx : s.cpuState = .execute) (ht : taken (s.reg rx) = true) :
    ∃ t, executeTick (condJumpSetup taken 0 rx ry) toFetch s = .next t ∧
      RegsUpdated s t Config.idxPC (s.reg ry) ∧ QuietlyDone s t :=
  executeTick_setReg _ s _ _ ((condJumpSetup_modeDD taken rx ry (beginTick s)).trans (if_pos ht)) hx

/-- One whose condition fails writes no register. -/
theorem executeTick_condJump_not_taken {taken : Word → Bool} {rx : RegIdx} {s : State} (ry : RegIdx)
    (hx : s.cpuState = .execute) (ht : taken (s.reg rx) = false) :
    ∃ t, executeTick (condJumpSetup taken 0 rx ry) toFetch s = .next t ∧
      RegsSame s t ∧ QuietlyDone s t :=
  executeTick_same _ s ((condJumpSetup_modeDD taken rx ry (beginTick s)).trans
    (if_neg (Bool.eq_false_iff.1 ht))) hx

/-- Settles O41: JZ is taken on the register values JNZ is not taken on. -/
theorem conditionalJumpsTestARegister : Obligations.ConditionalJumpsTestARegister := by
  intro s rx ry hx
  refine ⟨fun hzero => ?zero, fun hne => ?nonzero⟩
  case zero =>
    have hcond : isZero (s.reg rx) = true := by rw [hzero]; rfl
    exact ⟨executeTick_condJump_taken ry hx hcond,
      executeTick_condJump_not_taken ry hx (by simp [hcond])⟩
  case nonzero =>
    have hcond : isZero (s.reg rx) = false := beq_eq_false_iff_ne.2 hne
    exact ⟨executeTick_condJump_taken ry hx (by simp [hcond]),
      executeTick_condJump_not_taken ry hx hcond⟩

/-! ### LDO of a label -/

/-- The assembler gives an offset exactly for labels 0 to 255 bytes ahead (31_assembler.md R142). -/
theorem labelOffset_eq_ok {own target : Nat} {imm : Byte} :
    Asm.labelOffset own target = .ok imm ↔
      (own ≤ target ∧ target ≤ own + 255) ∧ imm = BitVec.ofNat 8 (target - own) := by
  unfold Asm.labelOffset
  by_cases hnear : own ≤ target ∧ target - own < 256
  · rw [if_pos hnear, Except.ok.injEq, eq_comm, and_iff_right (by omega)]
  · rw [if_neg hnear]
    exact iff_of_false nofun fun h => hnear (by omega)

/-- Settles O56: the offset added to the instruction's own address is the label's address. -/
theorem labelOffsetExecutesToTheLabel : Obligations.LabelOffsetExecutesToTheLabel := by
  refine fun own target => ⟨by simp [labelOffset_eq_ok], fun imm rl s himm hx hpc => ?_⟩
  obtain ⟨hnear, rfl⟩ := labelOffset_eq_ok.1 himm
  have hown : s.pc = BitVec.ofNat 16 own + 2 := by rw [hpc, BitVec.ofNat_add]; rfl
  have htarget : BitVec.ofNat 16 (((BitVec.ofNat 16 own).toNat +
      (BitVec.ofNat 8 (target - own)).toNat) % 65536) = BitVec.ofNat 16 target := by
    apply BitVec.eq_of_toNat_eq
    simp only [BitVec.toNat_ofNat]
    omega
  rw [← htarget]
  exact ldoFormsAnAddressFromItsOwn s rl _ _ hx hown

/-! ### Loads -/

/-- Every word address is the console's, one that the RAM answers, or the top of the store. -/
theorem address_cases (a : Word) : a = Config.consoleAddr ∨ RamWordAddress a ∨ a = 0xFFFF := by
  by_cases hconsole : a = Config.consoleAddr
  · exact .inl hconsole
  · by_cases htop : a = 0xFFFF
    · exact .inr (.inr htop)
    · have hne : a.toNat ≠ 0xFFFF := fun h => htop (BitVec.eq_of_toNat_eq h)
      have hlt := a.isLt
      exact .inr (.inl ⟨hconsole, by rw [Config.ramSize]; omega⟩)

/-- DUI's completion looks at the parameter after the tick, which has not changed it. -/
theorem executeTick_movDUI {s : State} {ry : RegIdx} (rx : RegIdx) (hx : s.cpuState = .execute)
    (ha : RamWordAddress (s.reg ry)) :
    executeTick (loadSetup ry) (movDUIComplete rx) s =
      executeTick (loadSetup ry) (loadComplete (mergeDUI s.params.duiSource) rx) s := by
  have hread := fun complete => executeTick_read (s.reg ry) complete s (by rw [hx]; decide) ha
  exact (hread (movDUIComplete rx)).trans (hread (loadComplete (mergeDUI s.params.duiSource) rx)).symm

/-- The bytes of a word that is read (20_memory.md R52). -/
theorem lowByte_readWord (s : State) (a : Nat) : lowByte (s.readWord a) = s.readByte a :=
  lowByte_joinBytes _ _

theorem highByte_readWord (s : State) (a : Nat) : highByte (s.readWord a) = s.readByte (a + 1) :=
  highByte_joinBytes _ _

/-- Settles O30: the merge takes one byte of the word read and one of the old value. -/
theorem byteLoadsMergeOneByte : Obligations.ByteLoadsMergeOneByte := by
  refine fun s rx ry hx ha => ⟨?dli, ?dui⟩
  case dli =>
    have hload := executeTick_load mergeDLI rx ry s hx ha
    rwa [mergeDLI, withLowByte, lowByte_readWord] at hload
  case dui =>
    have hload := executeTick_load (mergeDUI s.params.duiSource) rx ry s hx ha
    rw [← executeTick_movDUI rx hx ha] at hload
    cases hsource : s.params.duiSource <;> rw [hsource] at hload
    · rwa [mergeDUI, withHighByte, lowByte_readWord] at hload
    · rwa [mergeDUI, withHighByte, highByte_readWord] at hload

/-- Settles O31: the load that takes the whole word read. -/
theorem wordLoadReadsTheWord : Obligations.WordLoadReadsTheWord := fun s rx ry hx ha =>
  executeTick_load (fun _ d => d) rx ry s hx ha

/-- A load's completion without an answer changes nothing (R170). -/
theorem loadComplete_unanswered {merge : Word → Word → Word} {rx : RegIdx} {s : State}
    (hv : s.cpuPins.valid = false) : loadComplete merge rx s = s :=
  if_neg (Bool.eq_false_iff.1 hv)

/-- Settles O32: the tick is never answered, and MOV II makes no second one. -/
theorem readOfTheConsoleWaits : Obligations.ReadOfTheConsoleWaits := by
  rintro s rx ry i hx ha (rfl | rfl | rfl | ⟨rfl, hp⟩)
  · exact executeTick_load_console (movDLIComplete rx) ry s hx (fun _ => loadComplete_unanswered) ha
  · exact executeTick_load_console (movDUIComplete rx) ry s hx (fun _ => loadComplete_unanswered) ha
  · exact executeTick_load_console (movDWIComplete rx) ry s hx (fun _ => loadComplete_unanswered) ha
  · obtain ⟨t, ht, hrest⟩ := movIITick_console rx ry s hx hp ha
    have ⟨_, _, _, _, _, _, _, _, hpending, _⟩ := hrest
    refine ⟨t, ?_, hrest⟩
    change execMovII rx ry s = _
    rw [execMovII, if_neg (by rw [hp]; decide), ht, andThen_next, if_neg (by rw [hpending, hp]; decide)]

/-! ### MOV II -/

/-- What the write tick leaves beside registers, RAM and console. -/
def WriteTickDone (s t : State) : Prop :=
  t.cpuState = .fetch ∧ t.pending = false ∧ t.cycle = s.cycle + 1 ∧ RegsSame s t ∧
    t.scratch = s.scratch ∧ t.dec = s.dec ∧ t.params = s.params ∧ t.haltRecord = s.haltRecord

/-- The write tick of MOV II to the RAM: the scratch value stands at the destination. -/
theorem movIITick_to_ram {s : State} {rx : RegIdx} (ry : RegIdx) (hx : s.cpuState = .execute)
    (hp : s.pending = true) (ha : RamWordAddress (s.reg rx))
    (hrising : s.ram.Pairwise fun c d => c.1 < d.1) :
    ∃ t, movIITick rx ry s = .next t ∧ WriteTickDone s t ∧ ConsoleSame s t ∧
      t.readWord (s.reg rx).toNat = s.scratch ∧ RamSameOutsideWord s t (s.reg rx).toNat :=
  ⟨_, movIITick_write rx ry s hx hp ha, ⟨rfl, rfl, rfl, fun _ => rfl, rfl, rfl, rfl, rfl⟩, ⟨rfl, rfl⟩,
    readWord_writeWord_same (beginTick s) _ s.scratch hrising,
    ramSameOutsideWord_writeWord (beginTick s) _ s.scratch hrising⟩

/-- The write tick of MOV II to the console: it takes the scratch value's low byte. -/
theorem movIITick_to_console {s : State} {rx : RegIdx} (ry : RegIdx) (hx : s.cpuState = .execute)
    (hp : s.pending = true) (ha : s.reg rx = Config.consoleAddr) :
    ∃ t, movIITick rx ry s = .next t ∧ WriteTickDone s t ∧ RamSame s t ∧
      t.conBuffer = bufferAfter (lowByte s.scratch) s.conBuffer ∧
      t.conLines = linesAfter (lowByte s.scratch) s.conBuffer s.conLines :=
  ⟨_, movIITick_write_console rx ry s hx hp ha, ⟨rfl, rfl, rfl, fun _ => rfl, rfl, rfl, rfl, rfl⟩,
    fun _ => rfl, rfl, rfl⟩

/-- Equal words have equal bytes in the RAM. -/
theorem readByte_eq_of_readWord_eq {s t : State} {a b : Nat} (h : t.readWord a = s.readWord b) :
    t.readByte a = s.readByte b ∧ t.readByte (a + 1) = s.readByte (b + 1) := by
  rw [← lowByte_readWord, ← highByte_readWord, h, lowByte_readWord, highByte_readWord]
  exact ⟨rfl, rfl⟩

/-- Settles O33: the write tick after the read tick, whose scratch value is the word read. -/
theorem movIICopiesAWordInRam : Obligations.MovIICopiesAWordInRam := by
  intro s rx ry hs hx hp hsource hdest
  have ⟨hrising, _, _⟩ := hs.ramWf
  obtain ⟨t, ht, ⟨hfetch, hpend, hcycle, hregs, hscratch, hdec, hparams, hrecord⟩, hcon, hword, hother⟩ :=
    movIITick_to_ram (s := afterRead ry s) (rx := rx) ry hx rfl hdest hrising
  obtain ⟨hlow, hhigh⟩ := readByte_eq_of_readWord_eq (s := s) hword
  rw [← exec_movII_read rx ry s hx hp hsource] at ht
  exact ⟨t, ht, hfetch, hpend, hcycle, hlow, hhigh, hword, hother, hregs, hcon, hscratch, hdec, hparams,
    hrecord⟩

/-- What the console holds after a byte, by the byte (20_memory.md R72). -/
theorem console_after_cases (c : Byte) (buffer : List Byte) (lines : List (List Byte)) :
    if c = 0x0A then linesAfter c buffer lines = lines ++ [buffer] ∧ bufferAfter c buffer = []
    else if c = 0x00 then linesAfter c buffer lines = lines ∧ bufferAfter c buffer = buffer
    else linesAfter c buffer lines = lines ∧ bufferAfter c buffer = buffer ++ [c] := by
  change if c = Config.newline then _ else _
  by_cases hnewline : c = Config.newline
  · simp [linesAfter, bufferAfter, hnewline]
  · by_cases hzero : c = 0
    · rw [if_neg hnewline, if_pos hzero, linesAfter, if_neg hnewline, bufferAfter, if_neg hnewline,
        if_pos hzero]
      exact ⟨rfl, rfl⟩
    · rw [if_neg hnewline, if_neg hzero, linesAfter, if_neg hnewline, bufferAfter, if_neg hnewline,
        if_neg hzero]
      exact ⟨rfl, rfl⟩

/-- Settles O34: the write tick hands the low byte of the word read to the console. -/
theorem movIIToTheConsole : Obligations.MovIIToTheConsole := by
  intro s rx ry hx hp hsource hdest
  obtain ⟨t, ht, ⟨hfetch, hpend, hcycle, hregs, hscratch, hdec, hparams, hrecord⟩, hram, hbuffer, hlines⟩ :=
    movIITick_to_console (s := afterRead ry s) (rx := rx) ry hx rfl hdest
  have hbyte : lowByte (afterRead ry s).scratch = s.readByte (s.reg ry).toNat := lowByte_readWord s _
  rw [hbyte] at hbuffer hlines
  rw [← exec_movII_read rx ry s hx hp hsource] at ht
  refine ⟨t, ht, hfetch, hpend, hcycle, hregs, hram, hscratch, hdec, hparams, hrecord, ?_⟩
  rw [hbuffer, hlines]
  exact console_after_cases _ s.conBuffer s.conLines

/-- Settles O35: the pending write is one tick, to the RAM or to the console. -/
theorem pendingMovIIWritesTheScratch : Obligations.PendingMovIIWritesTheScratch := by
  intro s rx ry hs hx hp htop
  rw [exec_movII_pending rx ry s hp]
  have ⟨hrising, _, _⟩ := hs.ramWf
  rcases address_cases (s.reg rx) with hdest | hdest | hdest
  · obtain ⟨t, ht, ⟨hfetch, hpend, hcycle, hregs, hscratch, hdec, hparams, hrecord⟩, hram, hconsole⟩ :=
      movIITick_to_console ry hx hp hdest
    exact ⟨t, ht, hfetch, hpend, hcycle, hregs, hscratch, hdec, hparams, hrecord,
      fun hne => absurd hdest hne, fun _ => ⟨hram, hconsole⟩⟩
  · obtain ⟨t, ht, ⟨hfetch, hpend, hcycle, hregs, hscratch, hdec, hparams, hrecord⟩, hcon, hword, hother⟩ :=
      movIITick_to_ram ry hx hp hdest hrising
    exact ⟨t, ht, hfetch, hpend, hcycle, hregs, hscratch, hdec, hparams, hrecord,
      fun _ => ⟨hword, hother, hcon⟩, fun hzero => absurd hzero hdest.1⟩
  · exact absurd hdest htop

/-! ### Accesses at the top of the store -/

/-- The write tick of MOV II at 0xFFFF has no result (20_memory.md R67). -/
theorem movIITick_write_top {s : State} {rx : RegIdx} (ry : RegIdx) (hp : s.pending = true)
    (ha : s.reg rx = 0xFFFF) : movIITick rx ry s = .fault .busOutOfRange :=
  executeTick_write_top (movIISetup rx ry) movIIComplete s s.scratch (s.reg rx) ha (if_pos hp)

/-- The read tick of MOV II at 0xFFFF has none either. -/
theorem movIITick_read_top {s : State} {ry : RegIdx} (rx : RegIdx) (hp : s.pending = false)
    (ha : s.reg ry = 0xFFFF) : movIITick rx ry s = .fault .busOutOfRange :=
  executeTick_read_top (movIISetup rx ry) movIIComplete s (s.reg ry) ha (if_neg (by simp [hp]))

/-- Settles O26: the access is the fault of its tick, the first or, for the write after an answered read,
the second. -/
theorem accessAtTheTopOfTheStoreFaults : Obligations.AccessAtTheTopOfTheStoreFaults := by
  intro s rx ry hx
  refine ⟨fun ha => ?read, fun ha hwrite => ?write⟩
  case read =>
    have hload := fun complete => executeTick_read_top (loadSetup ry) complete s (s.reg ry) ha rfl
    refine ⟨hload _, hload _, hload _, fun hp => ?_⟩
    change execMovII rx ry s = _
    rw [execMovII, if_neg (by rw [hp]; decide), movIITick_read_top rx hp ha, andThen_fault]
  case write =>
    cases hp : s.pending with
    | true => rw [exec_movII_pending rx ry s hp, movIITick_write_top ry hp ha]
    | false =>
      have hsource : RamWordAddress (s.reg ry) := hwrite.resolve_left (by rw [hp]; decide)
      rw [exec_movII_read rx ry s hx hp hsource, 
        movIITick_write_top (s := afterRead ry s) ry rfl ha]

end Sys2Proof.Machine
end

section
/-! Bus transactions of MOV in Execute (42_move.md section 6). -/

namespace Sys2Proof.Machine

/-- The request of a CPU in Execute is the one its instruction's setup makes. -/
theorem nextRequest_execute {s : State} {i : Instr} (hx : s.cpuState = .execute) (hi : s.dec.instr = i) :
    nextRequest s = if (executeSetup i (beginTick s)).cpuPins.valid
      then some (executeSetup i (beginTick s)).cpuPins else none := by
  have hsetup : cpuSetup s = executeSetup i (beginTick s) := by rw [cpuSetup, hx, ← hi]
  rw [nextRequest, hsetup]

/-- A tick in Execute is one tick of the latched instruction. -/
theorem tick_eq_execTick {s : State} {i : Instr} (hx : s.cpuState = .execute) (hi : s.dec.instr = i) :
    tick s = execTick i s := by
  rw [tick_execute s hx, hi, execTick]

/-- It is the whole of a declared instruction but MOV II. -/
theorem tick_eq_exec {s : State} {i : Instr} (hx : s.cpuState = .execute) (hi : s.dec.instr = i)
    (hw : i.wellFormed = true) (hII : isII i = false) : tick s = exec i s := by
  rw [tick_eq_execTick hx hi, exec_tick i s hw hII, execTick]

/-- The read tick of MOV II, its write request, and its write tick. -/
theorem ticks_movII {s : State} {rx ry : RegIdx} (hx : s.cpuState = .execute)
    (hi : s.dec.instr = .movII rx ry) (hp : s.pending = false) (ha : RamWordAddress (s.reg ry)) :
    tick s = .next (afterRead ry s) ∧
      nextRequest (afterRead ry s) = some { address := s.reg rx, data := s.readWord (s.reg ry).toNat,
                                            readIntent := false, valid := true } ∧
      (s.reg rx ≠ 0xFFFF →
        ∃ t, tick (afterRead ry s) = .next t ∧ t.cpuState = .fetch ∧ t.pending = false) := by
  refine ⟨?read, ?request, fun htop => ?write⟩
  case read => exact (tick_eq_execTick hx hi).trans (movIITick_read rx ry s hx hp ha)
  case request => exact (nextRequest_execute (s := afterRead ry s) hx hi).trans rfl
  case write =>
    rw [tick_eq_execTick (s := afterRead ry s) hx hi]
    rcases address_cases (s.reg rx) with hdest | hdest | hdest
    · exact ⟨_, movIITick_write_console rx ry (afterRead ry s) hx rfl hdest, rfl, rfl⟩
    · exact ⟨_, movIITick_write rx ry (afterRead ry s) hx rfl hdest, rfl, rfl⟩
    · exact absurd hdest htop

/-- Settles O25: the requests are those of the setups, and the ends those of the ticks. -/
theorem busTransactionsOfMov : Obligations.BusTransactionsOfMov := by
  intro s rx ry hx
  refine ⟨fun hi => ⟨(nextRequest_execute hx hi).trans rfl, ?dd⟩, fun hi => ⟨?request, fun ha => ?load⟩,
    fun hi hp => ⟨?requestII, fun ha => ?ii⟩, fun hi => ?store⟩
  case dd =>
    obtain ⟨t, ht, -, hfetch, -⟩ := movDDCopiesARegister s rx ry hx
    exact ⟨t, (tick_eq_exec hx hi rfl rfl).trans ht, hfetch⟩
  case request =>
    rcases hi with hi | hi | hi <;> exact ⟨_, (nextRequest_execute hx hi).trans rfl, rfl, rfl⟩
  case load =>
    obtain ⟨⟨t, ht, hfetch, -⟩, t', ht', hfetch', -⟩ := byteLoadsMergeOneByte s rx ry hx ha
    obtain ⟨t'', ht'', hfetch'', -⟩ := wordLoadReadsTheWord s rx ry hx ha
    rcases hi with hi | hi | hi <;> rw [tick_eq_exec hx hi rfl rfl]
    · exact ⟨t, ht, hfetch⟩
    · exact ⟨t', ht', hfetch'⟩
    · exact ⟨t'', ht'', hfetch''⟩
  case requestII =>
    have hsetup : executeSetup (.movII rx ry) (beginTick s) = requestRead (s.reg ry) (beginTick s) :=
      if_neg (by rw [beginTick_pending, hp]; decide)
    refine ⟨{ s.cpuPins with address := s.reg ry, readIntent := true, valid := true }, ?_, rfl, rfl⟩
    rw [nextRequest_execute hx hi, hsetup]
    rfl
  case ii =>
    obtain ⟨hread, hrequest, hwrite⟩ := ticks_movII hx hi hp ha
    exact ⟨_, hread, hx, rfl, rfl, hrequest, hwrite⟩
  case store =>
    have hhalt : haltCauseOf s.params s.dec.instr = some .unsupportedMode := by
      rcases hi with hi | hi | hi <;> rw [hi] <;> rfl
    have hsetup : executeSetup s.dec.instr (beginTick s) = raiseHalt .unsupportedMode (beginTick s) :=
      executeSetup_of_halts hhalt
    refine ⟨?_, _, (tick_eq_execTick hx rfl).trans (execTick_of_halts hhalt), nofun⟩
    rw [nextRequest_execute hx rfl, hsetup]
    rfl

end Sys2Proof.Machine
end

section
/-! The cycle (40_cycle.md): the Fetch tick by address, the hang at the console's address, and the step from
Fetch by the word it fetches. -/

namespace Sys2Proof.Machine

/-! ### The Fetch tick -/

/-- The registers after an answered fetch. -/
theorem reg_afterFetch (s : State) (q : RegIdx) :
    (afterFetch s).reg q = fetchedReg s (s.readWord s.pc.toNat) q := by
  rw [fetchedReg, ← reg_setReg s Config.idxIR q, ← reg_setReg]
  rfl

/-- In Fetch the CPU requests a read at the PC. -/
theorem nextRequest_fetch {s : State} (hx : s.cpuState = .fetch) :
    nextRequest s = some { s.cpuPins with address := s.pc, readIntent := true, valid := true } := by
  rw [nextRequest, cpuSetup, hx]
  rfl

/-- A Fetch tick that the RAM answers. -/
theorem tick_fetch_answered {s : State} (hx : s.cpuState = .fetch) (ha : RamWordAddress s.pc) :
    ∃ p q r, tick s = .next ((afterFetch s).withPins p q r) :=
  ⟨_, _, _, (tick_fetch s hx).trans (fetchTick_answered s ha)⟩

/-- A Fetch tick at the console's address. -/
theorem tick_fetch_unanswered {s : State} (hx : s.cpuState = .fetch) (ha : s.pc = Config.consoleAddr) :
    ∃ p q r, tick s = .next ({ s with cycle := s.cycle + 1 }.withPins p q r) :=
  ⟨_, _, _, (tick_fetch s hx).trans (fetchTick_unanswered s ha)⟩

/-- Settles O12: the three kinds of address. -/
theorem fetchTickByAddress : Obligations.FetchTickByAddress := by
  intro s hx
  refine ⟨by rw [nextRequest_fetch hx]; rfl, fun ha => ?answered, fun ha => ?unanswered, fun ha => ?top⟩
  case answered =>
    obtain ⟨p, q, r, ht⟩ := tick_fetch_answered hx ha
    exact ⟨_, ht, rfl, reg_afterFetch s, rfl, fun _ => rfl, ⟨rfl, rfl⟩, ⟨rfl, rfl, rfl, rfl, rfl⟩⟩
  case unanswered =>
    obtain ⟨p, q, r, ht⟩ := tick_fetch_unanswered hx ha
    refine ⟨_, ht, hx, fun _ => rfl, rfl, fun _ => rfl, ⟨rfl, rfl⟩, ⟨rfl, rfl, rfl, rfl, rfl⟩, ?_⟩
    rw [nextRequest_fetch (by exact hx)]
    exact congrArg (fun a => some (a, true)) ha
  case top =>
    rw [tick_fetch s hx]
    exact fetchTick_outOfRange s (by rw [ha]; decide) (by rw [ha]; decide)

/-! ### The hang -/

/-- Settles O18: by induction on the ticks, each of which is an unanswered fetch. -/
theorem fetchAtTheConsoleHangs : Obligations.FetchAtTheConsoleHangs := by
  intro n
  induction n with
  | zero => exact fun s hx _ => ⟨s, rfl, hx, rfl, fun _ => rfl, fun _ => rfl, ⟨rfl, rfl⟩, rfl⟩
  | succ n ih =>
    intro s hx ha
    obtain ⟨p, q, r, hu⟩ := tick_fetch_unanswered hx ha
    obtain ⟨t, ht, hfetch, hcycle, hrest⟩ := ih ({ s with cycle := s.cycle + 1 }.withPins p q r) hx ha
    refine ⟨t, ?_, hfetch, ?_, hrest⟩
    · rw [ticks_succ, hu, andThen_next, ht]
    · exact hcycle.trans (Nat.add_right_comm s.cycle 1 n)

/-- One tick of a load or of MOV II that reads the console's address. -/
theorem tick_waits {s : State} {rx ry : RegIdx} (hx : s.cpuState = .execute) (hp : s.pending = false)
    (hi : s.dec.instr = .movDLI rx ry ∨ s.dec.instr = .movDUI rx ry ∨ s.dec.instr = .movDWI rx ry ∨
      s.dec.instr = .movII rx ry) (ha : s.reg ry = 0x0000) :
    ∃ t, tick s = .next t ∧ t.cpuState = .execute ∧ t.cycle = s.cycle + 1 ∧ RegsSame s t ∧
      RamSame s t ∧ ConsoleSame s t ∧ ControlSame s t := by
  have hload := fun i => readOfTheConsoleWaits s rx ry i hx ha
  rcases hi with hi | hi | hi | hi
  · rw [tick_eq_exec hx hi rfl rfl]
    exact hload _ (.inl rfl)
  · rw [tick_eq_exec hx hi rfl rfl]
    exact hload _ (.inr (.inl rfl))
  · rw [tick_eq_exec hx hi rfl rfl]
    exact hload _ (.inr (.inr (.inl rfl)))
  · rw [tick_eq_execTick hx hi]
    exact movIITick_console rx ry s hx hp ha

/-- Settles O19: by induction on the ticks, each of which waits and keeps what made it wait. -/
theorem executeOnTheConsoleHangs : Obligations.ExecuteOnTheConsoleHangs := by
  intro n
  induction n with
  | zero =>
    exact fun s _ _ hx hp _ _ =>
      ⟨s, rfl, hx, hp, rfl, rfl, fun _ => rfl, fun _ => rfl, ⟨rfl, rfl⟩, rfl⟩
  | succ n ih =>
    intro s rx ry hx hp hi ha
    obtain ⟨u, hu, hux, hucycle, huregs, huram, ⟨hubuf, hulines⟩, -, hudec, -, hupend, hurec⟩ :=
      tick_waits hx hp hi ha
    obtain ⟨t, ht, htx, htp, htdec, htcycle, htregs, htram, ⟨htbuf, htlines⟩, htrec⟩ :=
      ih u rx ry hux (hupend.trans hp) (by rw [hudec]; exact hi) ((huregs ry).trans ha)
    refine ⟨t, ?_, htx, htp, htdec.trans hudec, by omega, fun q => (htregs q).trans (huregs q),
      fun a => (htram a).trans (huram a), ⟨htbuf.trans hubuf, htlines.trans hulines⟩, htrec.trans hurec⟩
    rw [ticks_succ, hu, andThen_next, ht]

/-! ### The step from Fetch -/

/-- `u` is `s` once the Fetch and Decode ticks are over and the word `w` at the PC is latched: Execute is
entered, or, for an unassigned number, the Decode tick has still to end in its halt. -/
structure ReadyToRun (s : State) (w : Word) (u : State) : Prop where
  reg : ∀ q, u.reg q = fetchedReg s w q
  dec : u.dec = Fields.ofWord w
  cycle : u.cycle = s.cycle + 2
  cpuState : u.cpuState = if (decodeWord w).wellFormed then .execute else .decode
  ramSame : RamSame s u
  consoleSame : ConsoleSame s u
  params : u.params = s.params
  scratch : u.scratch = s.scratch
  pending : u.pending = s.pending
  haltRecord : u.haltRecord = s.haltRecord
  quiet : NoPinAsserted u

/-- A step from Fetch at an address the RAM answers runs the word's instruction. -/
theorem step_eq_exec {s : State} (hx : s.cpuState = .fetch) (ha : RamWordAddress s.pc) :
    ∃ u, step s = exec (decodeWord (s.readWord s.pc.toNat)) u ∧
      ReadyToRun s (s.readWord s.pc.toNat) u := by
  obtain ⟨v, hv, -, hstep⟩ := step_fetch_answered s hx ha
  obtain ⟨p, q, r, htick⟩ := tick_fetch_answered hx ha
  rw [tick_fetch s hx, hv] at htick
  cases htick
  have hir : ((afterFetch s).withPins p q r).ir = s.readWord s.pc.toNat := reg_afterFetch s Config.idxIR
  rw [decodePhase_eq, hir, andThen_next] at hstep
  refine ⟨_, hstep, ?_⟩
  exact {
    reg := reg_afterFetch s
    dec := rfl
    cycle := rfl
    cpuState := by rw [decodeWord, wellFormed_instr]; rfl
    ramSame := fun _ => rfl
    consoleSame := ⟨rfl, rfl⟩
    params := rfl
    scratch := rfl
    pending := rfl
    haltRecord := rfl
    quiet := ⟨rfl, rfl, rfl⟩ }

/-- The instruction that the two bytes at an address decode to is that of the word there. -/
theorem decode_bytes_eq_ok {s : State} {a : Nat} {i : Instr}
    (h : decode [s.readByte a, s.readByte (a + 1)] = .ok (i, [])) : decodeWord (s.readWord a) = i := by
  cases h
  rfl

/-- Settles O11: the state after the two first ticks is ready to run the word's instruction. -/
theorem stepRunsTheDecodedInstruction : Obligations.StepRunsTheDecodedInstruction := by
  intro s i hx ha hdecode
  obtain ⟨u, hstep, hu⟩ := step_eq_exec hx ha
  obtain rfl := decode_bytes_eq_ok hdecode
  exact ⟨u, hstep, hu.reg, hu.dec, congrArg Fields.instr hu.dec, hu.cycle, hu.cpuState, hu.ramSame,
    hu.consoleSame, hu.params, hu.scratch, hu.pending, hu.haltRecord, hu.quiet⟩

/-- The unassigned numbers are the halting class of the Decode tick. -/
theorem wellFormed_iff_haltCauseOf (p : Params) (i : Instr) :
    i.wellFormed = false ↔ haltCauseOf p i = some .unrecognizedOpcode := by
  cases i <;> simp [Instr.wellFormed, haltCauseOf]

/-- What a halt after the first two ticks leaves, `k` of them having been counted in `t`. -/
theorem exec_halts_of_ready {s u : State} {w : Word} {c : HaltCause} (hu : ReadyToRun s w u)
    (hc : haltCauseOf u.params (decodeWord w) = some c) :
    ∃ t, exec (decodeWord w) u = .next t ∧
      HaltedWith u t c (s.cycle + (if c = .unrecognizedOpcode then 2 else 3)) ∧ NoPinAsserted t := by
  cases hw : (decodeWord w).wellFormed with
  | false =>
    rw [(wellFormed_iff_haltCauseOf u.params _).1 hw] at hc
    cases hc
    rw [if_pos rfl, ← hu.cycle]
    exact ⟨_, exec_unassigned _ u hw, ⟨rfl, rfl, rfl, rfl, fun _ => rfl, fun _ => rfl, ⟨rfl, rfl⟩, rfl, rfl,
      rfl⟩, hu.quiet⟩
  | true =>
    have hne : c ≠ .unrecognizedOpcode := by
      rintro rfl
      exact nomatch hw.symm.trans ((wellFormed_iff_haltCauseOf u.params _).2 hc)
    rw [if_neg hne, show s.cycle + 3 = u.cycle + 1 by rw [hu.cycle]]
    exact exec_haltedInExecute hw hc

/-- Settles O13: the class of the word is that of its instruction, which halts or runs. -/
theorem everyWordHaltsByItsClassOrNotAtAll : Obligations.EveryWordHaltsByItsClassOrNotAtAll := by
  rintro s w hx ha rfl
  obtain ⟨u, hstep, hu⟩ := step_eq_exec hx ha
  have hclass := haltClass_eq s.params (Fields.ofWord (s.readWord s.pc.toNat))
  rw [← hu.params] at hclass
  refine ⟨fun c hc => ?halts, fun hc t ht => ?runs⟩
  case halts =>
    rw [← hu.params] at hc
    obtain ⟨t, ht, ⟨hhalt, -, hcycle, hrecord, hregs, hram, ⟨hbuf, hlines⟩, hparams, -, hscratch⟩, hquiet⟩ :=
      exec_halts_of_ready hu (hclass.symm.trans hc)
    rw [hu.dec] at hrecord
    exact ⟨t, _, hstep.trans ht, rfl, hhalt, hcycle, hrecord, fun q => (hregs q).trans (hu.reg q),
      fun a => (hram a).trans (hu.ramSame a),
      ⟨hbuf.trans hu.consoleSame.1, hlines.trans hu.consoleSame.2⟩, hparams.trans hu.params,
      hscratch.trans hu.scratch, hquiet⟩
  case runs =>
    rw [← hu.params] at hc
    have hnone := hclass.symm.trans hc
    have hw : (decodeWord (s.readWord s.pc.toNat)).wellFormed = true := by
      rw [← Bool.not_eq_false, wellFormed_iff_haltCauseOf u.params]
      exact fun h => nomatch hnone.symm.trans h
    have hrunning : u.cpuState ≠ .halted := by rw [hu.cpuState, if_pos hw]; decide
    obtain ⟨htx, htr⟩ := exec_of_runs hw hnone hrunning (hstep ▸ ht)
    exact ⟨htx, htr.trans hu.haltRecord⟩

/-! ### Ticks per instruction -/

/-- The source operand of a latched MOV is the field RY (decision D5). -/
theorem ry_eq_of_instr {f : Fields} {rx ry : RegIdx} (hi : f.instr = .movDLI rx ry ∨
    f.instr = .movDUI rx ry ∨ f.instr = .movDWI rx ry ∨ f.instr = .movII rx ry) : f.ry = ry := by
  have hraw := raw_instr f
  rcases hi with hi | hi | hi | hi <;>
    · rw [hi] at hraw
      simp only [Instr.raw, reduceCtorEq, RawInstr.rr.injEq, false_or, or_false] at hraw
      obtain ⟨-, -, -, hry⟩ := hraw
      exact (BitVec.eq_of_toNat_eq hry).symm

/-- Any instruction but MOV II takes one Execute tick, and stays in Execute only where it reads the
console's address. -/
theorem exec_cycle_of_not_movII {s t : State} (hx : s.cpuState = .execute)
    (hw : s.dec.instr.wellFormed = true) (hII : isII s.dec.instr = false)
    (h : exec s.dec.instr s = .next t) :
    t.cycle = s.cycle + 1 ∧ (t.cpuState = .execute → s.reg s.dec.ry = Config.consoleAddr) := by
  rw [← tick_eq_exec hx rfl hw hII] at h
  have hd : DeclaredInExecute s := fun _ => by rw [← wellFormed_instr, hw]
  refine ⟨by rw [cycle_tick hd h, if_neg (by rw [hx]; decide)], fun hstays => ?_⟩
  cases tickTo_of_tick hd h with
  | waits rx ry _ _ _ _ hi ha =>
    rw [ry_eq_of_instr (hi.imp_right (Or.imp_right (Or.imp_right And.left)))]
    exact ha
  | readsScratch rx ry _ _ _ _ hi => rw [hi] at hII; cases hII
  | stopped hx' | fetched _ _ _ hx' | unfetched _ _ _ hx' | latched hx' | unrecognized hx' =>
    exact nomatch hx.symm.trans hx'
  | _ => exact nomatch hstays

/-- MOV II takes two Execute ticks to finish, and stays in Execute after one where it reads the console's
address. -/
theorem exec_cycle_of_movII {s t : State} {rx ry : RegIdx} (hx : s.cpuState = .execute)
    (hp : s.pending = false) (hi : s.dec.instr = .movII rx ry) (h : exec (.movII rx ry) s = .next t) :
    (t.cpuState = .fetch ∧ t.cycle = s.cycle + 2) ∨
      (t.cpuState = .execute ∧ t.cycle = s.cycle + 1 ∧ s.reg ry = Config.consoleAddr) := by
  obtain ⟨htopRead, htopWrite⟩ := accessAtTheTopOfTheStoreFaults s rx ry hx
  rcases address_cases (s.reg ry) with hsource | hsource | hsource
  · obtain ⟨t', ht', hexec, hcycle, -⟩ :=
      readOfTheConsoleWaits s rx ry _ hx hsource (.inr (.inr (.inr ⟨rfl, hp⟩)))
    cases ht'.symm.trans h
    exact .inr ⟨hexec, hcycle, hsource⟩
  · by_cases hdest : s.reg rx = 0xFFFF
    · rw [htopWrite hdest (.inr hsource)] at h
      cases h
    · obtain ⟨-, -, hwrite⟩ := ticks_movII hx hi hp hsource
      obtain ⟨t', ht', hfetch, -⟩ := hwrite hdest
      have hd : DeclaredInExecute (afterRead ry s) := fun _ => by
        rw [← wellFormed_instr, show (afterRead ry s).dec.instr = _ from hi]
        rfl
      have hcycle := cycle_tick hd ht'
      rw [tick_eq_execTick (s := afterRead ry s) hx hi] at ht'
      rw [exec_movII_read rx ry s hx hp hsource] at h
      cases ht'.symm.trans h
      exact .inl ⟨hfetch, hcycle.trans (if_neg (by rw [show (afterRead ry s).cpuState = _ from hx]; decide))⟩
  · obtain ⟨-, -, -, hfault⟩ := htopRead hsource
    rw [hfault hp] at h
    cases h

/-- MOV II by opcode and mode bits (30_encoding.md R104). -/
theorem isII_instr_iff {f : Fields} :
    isII f.instr = true ↔ f.op = Config.opMOV ∧ f.mode = Config.modeII := by
  rw [isII_iff]
  constructor
  · rintro ⟨rx, ry, hi⟩
    obtain ⟨hop, hmode, -⟩ := instr_eq_movII hi
    exact ⟨hop, hmode⟩
  · rintro ⟨hop, hmode⟩
    exact ⟨_, _, instr_of_movII hop hmode⟩

/-- Settles O14: two ticks to latch, and those of the instruction. -/
theorem ticksPerInstruction : Obligations.TicksPerInstruction := by
  intro s t w hx hp ha hword h
  obtain ⟨u, hstep, hu⟩ := step_eq_exec hx ha
  rw [hword] at hstep hu
  have hdec : u.dec.instr = decodeWord w := congrArg Fields.instr hu.dec
  have hsource : u.reg u.dec.ry = fetchedReg s w (field w 0 4) := by rw [hu.reg, hu.dec]; rfl
  have hmovII : isII u.dec.instr = true ↔ field w 11 5 = Config.opMOV ∧ field w 8 3 = Config.modeII := by
    rw [isII_instr_iff, hu.dec]
    rfl
  have hcycle := hu.cycle
  rw [← hsource]
  rw [hstep, ← hdec] at h
  cases hw : u.dec.instr.wellFormed with
  | false =>
    rw [exec_unassigned _ u hw] at h
    cases h
    exact ⟨nofun, nofun⟩
  | true =>
    have hux : u.cpuState = .execute := by rw [hu.cpuState, if_pos (hdec ▸ hw)]
    by_cases hII : isII u.dec.instr = true
    · obtain ⟨rx, ry, hi⟩ := isII_iff.1 hII
      have hry := ry_eq_of_instr (.inr (.inr (.inr hi)))
      rw [if_pos (hmovII.1 hII), hry]
      rcases exec_cycle_of_movII hux (hu.pending.trans hp) hi (hi ▸ h) with
        ⟨hfetch, htcycle⟩ | ⟨hexec, htcycle, haddr⟩
      · exact ⟨fun _ => by omega, fun hexec => nomatch hfetch.symm.trans hexec⟩
      · exact ⟨fun hfetch => (nomatch hexec.symm.trans hfetch), fun _ => ⟨by omega, haddr⟩⟩
    · obtain ⟨htcycle, hwaits⟩ := exec_cycle_of_not_movII hux hw (Bool.eq_false_iff.2 hII) h
      rw [if_neg fun hclass => hII (hmovII.2 hclass)]
      exact ⟨fun _ => by omega, fun hexec => ⟨by omega, hwaits hexec⟩⟩

end Sys2Proof.Machine
end

section
/-! The bus and the console, one process at a time (20_memory.md sections 3, 4 and 6). -/

namespace Sys2Proof.Machine

/-- Bus setup of a request at the console's address. -/
theorem busSetup_console {s : State} (hv : s.cpuPins.valid = true)
    (ha : s.cpuPins.address = Config.consoleAddr) :
    busSetup s = { s with
      conPins := { s.cpuPins with valid := true }, ramPins := { s.ramPins with valid := false } } := by
  rw [busSetup, if_pos hv, if_pos ha]

/-- Bus setup of a request at any other address. -/
theorem busSetup_ram {s : State} (hv : s.cpuPins.valid = true)
    (ha : s.cpuPins.address ≠ Config.consoleAddr) :
    busSetup s = { s with
      ramPins := { s.cpuPins with valid := true }, conPins := { s.conPins with valid := false } } := by
  rw [busSetup, if_pos hv, if_neg ha]

/-- Bus setup without a request. -/
theorem busSetup_none {s : State} (hv : s.cpuPins.valid = false) :
    busSetup s = { s with
      ramPins := { s.ramPins with valid := false }, conPins := { s.conPins with valid := false } } := by
  rw [busSetup, if_neg (by rw [hv]; decide)]

/-- A pin set whose `valid` is asserted already. -/
theorem pins_with_valid {p : Pins} (hv : p.valid = true) : { p with valid := true } = p := by
  rw [← hv]

/-- Settles O21: the three cases of the request, and the frame they share. -/
theorem busSetupRoutesByAddress : Obligations.BusSetupRoutesByAddress := by
  refine fun s => ⟨fun hv ha => ?console, fun hv ha => ?ram, fun hv => ?none, ?frame⟩
  case console =>
    rw [busSetup_console hv ha]
    exact ⟨pins_with_valid hv, rfl⟩
  case ram =>
    rw [busSetup_ram hv ha]
    exact ⟨pins_with_valid hv, rfl⟩
  case none =>
    rw [busSetup_none hv]
    exact ⟨rfl, rfl⟩
  case frame =>
    cases hv : s.cpuPins.valid with
    | false => rw [busSetup_none hv]
    | true =>
      by_cases ha : s.cpuPins.address = Config.consoleAddr
      · rw [busSetup_console hv ha]
      · rw [busSetup_ram hv ha]

/-- Without a write transaction the console does nothing (R73). -/
theorem consoleProcess_of_not_write {s : State}
    (h : s.conPins.valid = false ∨ s.conPins.readIntent = true) : consoleProcess s = s := by
  rw [consoleProcess, if_neg]
  rcases h with h | h <;> simp [h]

/-- A write transaction hands the low byte of the data to the console (R72). -/
theorem consoleProcess_write {s : State} (hv : s.conPins.valid = true)
    (hw : s.conPins.readIntent = false) :
    consoleProcess s = consoleTake (lowByte s.conPins.data) s := by
  rw [consoleProcess, if_pos (by simp [hv, hw])]

/-- Settles O23: the byte decides what the buffer and the lines become. -/
theorem consoleKeepsItsContract : Obligations.ConsoleKeepsItsContract := by
  refine fun s => ⟨consoleProcess_of_not_write, fun hv hw => ?_⟩
  rw [consoleProcess_write hv hw, consoleTake]
  have hbyte := console_after_cases (lowByte s.conPins.data) s.conBuffer s.conLines
  refine ⟨fun hnewline => ?newline, fun hnewline hzero => ?other, fun hzero => ?zero⟩
  case newline =>
    rw [if_pos hnewline] at hbyte
    rw [hbyte.1, hbyte.2]
  case other =>
    rw [if_neg hnewline, if_neg hzero] at hbyte
    rw [hbyte.1, hbyte.2]
  case zero =>
    rw [if_neg (by rw [hzero]; decide), if_pos hzero] at hbyte
    rw [hbyte.1, hbyte.2]

/-- Settles O24: of the five kinds of request only the read that the RAM answers comes back valid. -/
theorem onlyRamReadsAreAnswered : Obligations.OnlyRamReadsAreAnswered := by
  intro s t h
  cases hv : s.cpuPins.valid with
  | false =>
    rw [busCycle_quiet s hv] at h
    cases h
    exact ⟨by simp [quietPins], by simp [quietPins], nofun⟩
  | true =>
    cases hr : s.cpuPins.readIntent with
    | true =>
      rcases address_cases s.cpuPins.address with ha | ha | ha
      · rw [busCycle_read_console s hv hr ha] at h
        cases h
        exact ⟨by simp [ha], by simp, nofun⟩
      · rw [busCycle_read s hv hr ha] at h
        cases h
        exact ⟨iff_of_true rfl ⟨rfl, rfl, ha.1⟩, iff_of_true rfl ⟨rfl, hr⟩, fun _ => ⟨rfl, rfl⟩⟩
      · rw [busCycle_outOfRange s hv (by rw [ha]; decide) (by rw [ha]; decide)] at h
        cases h
    | false =>
      rcases address_cases s.cpuPins.address with ha | ha | ha
      · rw [busCycle_write_console s hv hr ha] at h
        cases h
        exact ⟨by simp, by simp, nofun⟩
      · rw [busCycle_write s hv hr ha] at h
        cases h
        exact ⟨by simp, by simp [hr], nofun⟩
      · rw [busCycle_outOfRange s hv (by rw [ha]; decide) (by rw [ha]; decide)] at h
        cases h

end Sys2Proof.Machine
end

section
/-! The host's operations: the load and the start of a run (20_memory.md section 8, 70_reset_and_hazards.md
section 1). -/

namespace Sys2Proof.Machine

/-- The load of an image that fits. -/
theorem loadImage_of_fits {s : State} {img : List Byte}
    (hfits : s.params.programBase.toNat + img.length ≤ 65536) :
    loadImage img s = .next
      { s with ram := memWriteBytes s.params.ramFill s.ram s.params.programBase.toNat img } := by
  rw [loadImage, if_neg (by rw [Config.ramSize]; omega)]

/-- Settles O48: the copy puts every byte of the image in place and no other. -/
theorem loadPlacesTheImageOrRefuses : Obligations.LoadPlacesTheImageOrRefuses := by
  refine fun s img hwf => ⟨fun hfits => ?fits, fun hlong => ?long⟩
  case fits =>
    obtain ⟨hinside, houtside⟩ :=
      memWriteBytes_read s.params.ramFill img s.ram s.params.programBase.toNat hwf.1
    exact ⟨_, loadImage_of_fits hfits, hinside, houtside, memWriteBytes_wf _ img _ _ hwf hfits, rfl⟩
  case long => rw [loadImage, if_pos (by rw [Config.ramSize]; exact hlong)]

/-- Reset gives the CPU's state its values of R39 under the state's own parameters. -/
theorem cpuReset_resetCpu (s : State) : CpuReset s.params (resetCpu s) := by
  obtain ⟨hpc, hsp, hother⟩ := reg_of_resetRegs (s := resetCpu s) rfl
  exact ⟨rfl, hpc, hsp, hother, rfl, rfl, rfl, rfl, rfl, rfl, rfl, rfl⟩

/-- After reset the invariant is a matter of the RAM and the console, which reset keeps. -/
theorem inv_resetCpu {s : State} (hwf : Memory.wf s.params.ramFill s.ram)
    (hclean : ∀ c ∈ s.conBuffer, c ≠ 0 ∧ c ≠ Config.newline) : (resetCpu s).Inv where
  ramWf := hwf
  pendingOnly := nofun
  recordIff := iff_of_false nofun nofun
  executeDeclared := nofun
  executeLatched := nofun
  haltedQuiet := nofun
  bufferClean := hclean

/-- Before the load the RAM lists no byte, under whatever fill byte. -/
theorem powerOn_ram_wf (p : Params) : Memory.wf (powerOn p).params.ramFill (powerOn p).ram :=
  ⟨List.Pairwise.nil, nofun, nofun⟩

/-- Settles O49: the start of a run is the reset of the CPU after the load into an empty machine. -/
theorem resetOfTheCpuAndStartOfARun : Obligations.ResetOfTheCpuAndStartOfARun := by
  refine ⟨fun s => ⟨cpuReset_resetCpu s, fun _ => rfl, ⟨rfl, rfl⟩, rfl⟩, fun p img hfits => ?run⟩
  case run =>
    obtain ⟨hload, -⟩ := loadPlacesTheImageOrRefuses (powerOn p) img (powerOn_ram_wf p)
    obtain ⟨t, ht, hinside, houtside, hwf, hframe⟩ := hload hfits
    have hparams : t.params = p := by rw [hframe]; rfl
    have hbuffer : t.conBuffer = [] := by rw [hframe]; rfl
    have hlines : t.conLines = [] := by rw [hframe]; rfl
    have hreset := cpuReset_resetCpu t
    rw [hparams] at hreset
    exact ⟨resetCpu t, by rw [startRun, ht, andThen_next], inv_resetCpu hwf (by rw [hbuffer]; nofun),
      hparams, hreset, hinside, houtside, hbuffer, hlines⟩

end Sys2Proof.Machine
end

section
/-! Pins and tick counts do not influence a step (70_reset_and_hazards.md R312, R316): a tick is a function of
the state without them. The pins matter inside a tick alone, as the request of its setup and the answer its
completion sees. -/

namespace Sys2Proof.Machine

/-! ### What the pins mean -/

/-- The meaning of the CPU's pins after setup (20_memory.md R62, R63). -/
inductive Request
  | read (a : Word)
  | write (a d : Word)

/-- The request a pin set carries: nothing of it matters while `valid` is false, and no data on a read. -/
def Pins.request (p : Pins) : Option Request :=
  if p.valid then some (if p.readIntent then .read p.address else .write p.address p.data) else none

/-- The answer a pin set carries after the bus cycle (R60). -/
def Pins.answer (p : Pins) : Option Word := if p.valid then some p.data else none

/-- What the bus and its slaves make of a request, pins and counts aside. -/
def serve : Option Request → State → Host.Outcome (State × Option Word) Fault Refusal
  | none, v => .next (v, none)
  | some (.read a), v =>
    if a = Config.consoleAddr then .next (v, none)
    else if a.toNat + 1 < Config.ramSize then .next (v, some (v.readWord a.toNat))
    else .fault .busOutOfRange
  | some (.write a d), v =>
    if a = Config.consoleAddr then .next (consoleTake (lowByte d) v, none)
    else if a.toNat + 1 < Config.ramSize then .next (v.writeWord a.toNat d, none)
    else .fault .busOutOfRange

/-- A result of which only `f` of the next state is seen. -/
def viewNext {α : Type} (f : State → α) : Result → Host.Outcome α Fault Refusal
  | .next t => .next (f t)
  | .fault e => .fault e
  | .refused e => .refused e

/-- What completion can see of a state after the bus cycle. -/
def observed (t : State) : State × Option Word := (t.untimed, t.cpuPins.answer)

theorem untimedResult_eq_viewNext (r : Result) : untimedResult r = viewNext State.untimed r := by
  cases r <;> rfl

/-- Results that look the same are two next states that do, or one stop. -/
theorem viewNext_eq_cases {α : Type} {f : State → α} {r r' : Result}
    (h : viewNext f r = viewNext f r') :
    (∃ t t', r = .next t ∧ r' = .next t' ∧ f t = f t') ∨ r = r' := by
  cases r with
  | next t =>
    cases r' with
    | next t' => exact .inl ⟨t, t', rfl, rfl, Host.Outcome.next.inj h⟩
    | fault e | refused e => cases h
  | fault e =>
    cases r' with
    | fault e' => exact .inr (congrArg _ (Host.Outcome.fault.inj h))
    | next e' | refused e' => cases h
  | refused e =>
    cases r' with
    | refused e' => exact .inr (congrArg _ (Host.Outcome.refused.inj h))
    | next e' | fault e' => cases h

/-- The bus serves the request from the state without pins and counts. -/
theorem observed_busCycle (s : State) :
    viewNext observed (busCycle s) = serve s.cpuPins.request s.untimed := by
  cases hv : s.cpuPins.valid with
  | false =>
    rw [busCycle_quiet s hv, Pins.request, if_neg (by rw [hv]; decide)]
    rfl
  | true =>
    rw [Pins.request, if_pos hv]
    cases hr : s.cpuPins.readIntent with
    | true =>
      rw [if_pos rfl, serve]
      rcases address_cases s.cpuPins.address with ha | ha | ha
      · rw [busCycle_read_console s hv hr ha, if_pos ha]
        rfl
      · rw [busCycle_read s hv hr ha, if_neg ha.1, if_pos ha.2]
        rfl
      · rw [busCycle_outOfRange s hv (by rw [ha]; decide) (by rw [ha]; decide), ha]
        rfl
    | false =>
      rw [if_neg nofun, serve]
      rcases address_cases s.cpuPins.address with ha | ha | ha
      · rw [busCycle_write_console s hv hr ha, if_pos ha]
        rfl
      · rw [busCycle_write s hv hr ha, if_neg ha.1, if_pos ha.2]
        rfl
      · rw [busCycle_outOfRange s hv (by rw [ha]; decide) (by rw [ha]; decide), ha]
        rfl

/-! ### The halves of a tick -/

/-- The state after setup, and the request it makes, come from the state without pins and counts. -/
def SetupUntimed (f : State → State) : Prop :=
  ∀ s s', s.untimed = s'.untimed →
    (f s).untimed = (f s').untimed ∧ (f s).cpuPins.request = (f s').cpuPins.request

/-- The state after completion comes from the state without pins and counts, and from the answer. -/
def CompleteUntimed (g : State → State) : Prop :=
  ∀ t t', t.untimed = t'.untimed → t.cpuPins.answer = t'.cpuPins.answer →
    (g t).untimed = (g t').untimed

/-- A whole result comes from the state without pins and counts. -/
def ResultUntimed (F : State → Result) : Prop :=
  ∀ s s', s.untimed = s'.untimed → untimedResult (F s) = untimedResult (F s')

/-- To show it of a setup, say what it computes of the state without pins and counts. -/
theorem SetupUntimed.of_eq {f : State → State} (U : State → State) (R : State → Option Request)
    (hU : ∀ s, (f s).untimed = U s.untimed) (hR : ∀ s, (f s).cpuPins.request = R s.untimed) :
    SetupUntimed f := fun s s' h => ⟨by rw [hU, hU, h], by rw [hR, hR, h]⟩

/-- The same of a completion. -/
theorem CompleteUntimed.of_eq {g : State → State} (U : Option Word → State → State)
    (hU : ∀ t, (g t).untimed = U t.cpuPins.answer t.untimed) : CompleteUntimed g :=
  fun t t' h ha => by rw [hU, hU, h, ha]

/-- A tick of such halves. -/
theorem resultUntimed_runTick {f g : State → State} (hf : SetupUntimed f) (hg : CompleteUntimed g) :
    ResultUntimed (runTick f g) := by
  intro s s' h
  obtain ⟨hstate, hrequest⟩ := hf s s' h
  have hbus : viewNext observed (busCycle (f s)) = viewNext observed (busCycle (f s')) := by
    rw [observed_busCycle, observed_busCycle, hstate, hrequest]
  unfold runTick
  rcases viewNext_eq_cases hbus with ⟨t, t', ht, ht', hsame⟩ | hstop
  · obtain ⟨hsame, hanswer⟩ := Prod.mk.inj hsame
    rw [ht, ht']
    exact congrArg Host.Outcome.next (hg t t' hsame hanswer)
  · rw [hstop]

/-- One part of a step after another. -/
theorem ResultUntimed.andThen {F G : State → Result} (hF : ResultUntimed F) (hG : ResultUntimed G) :
    ResultUntimed fun s => andThen (F s) G := by
  intro s s' h
  have hview := hF s s' h
  rw [untimedResult_eq_viewNext, untimedResult_eq_viewNext] at hview
  rcases viewNext_eq_cases hview with ⟨t, t', ht, ht', hsame⟩ | hstop
  · simp only [ht, ht', andThen_next]
    exact hG t t' hsame
  · simp only [hstop]

/-- A part of a step that answers a next state. -/
theorem resultUntimed_next {f : State → State} (U : State → State)
    (hU : ∀ s, (f s).untimed = U s.untimed) : ResultUntimed fun s => .next (f s) :=
  fun s s' h => congrArg Host.Outcome.next (by rw [hU, hU, h])

/-- A choice by a test that pins and counts do not enter. -/
theorem ResultUntimed.ite {F G : State → Result} {c : State → Prop} [DecidablePred c]
    (hc : ∀ s, c s ↔ c s.untimed) (hF : ResultUntimed F) (hG : ResultUntimed G) :
    ResultUntimed fun s => if c s then F s else G s := by
  intro s s' h
  have hsame : c s ↔ c s' := by rw [hc s, hc s', h]
  by_cases hs : c s
  · simp only [if_pos hs, if_pos (hsame.1 hs)]
    exact hF s s' h
  · simp only [if_neg hs, if_neg (hsame.not.1 hs)]
    exact hG s s' h

/-- A choice of setups by such a test. -/
theorem SetupUntimed.ite {f g : State → State} {c : State → Prop} [DecidablePred c]
    (hc : ∀ s, c s ↔ c s.untimed) (hf : SetupUntimed f) (hg : SetupUntimed g) :
    SetupUntimed fun s => if c s then f s else g s := by
  intro s s' h
  have hsame : c s ↔ c s' := by rw [hc s, hc s', h]
  by_cases hs : c s
  · simp only [if_pos hs, if_pos (hsame.1 hs)]
    exact hf s s' h
  · simp only [if_neg hs, if_neg (hsame.not.1 hs)]
    exact hg s s' h

/-! ### The halves of an Execute tick -/

/-- A setup that halts. -/
theorem setupUntimed_raiseHalt (c : HaltCause) : SetupUntimed fun s => raiseHalt c (beginTick s) :=
  .of_eq (fun v => (raiseHalt c v).untimed) (fun _ => none) (fun _ => rfl) fun _ => rfl

/-- A setup that changes nothing. -/
theorem setupUntimed_beginTick : SetupUntimed beginTick :=
  .of_eq id (fun _ => none) (fun _ => rfl) fun _ => rfl

/-- A setup that writes one register, with a value that pins and counts do not enter. -/
theorem setupUntimed_setReg (r : RegIdx) (v : State → Word) (hv : ∀ s, v (beginTick s) = v s.untimed) :
    SetupUntimed fun s => (beginTick s).setReg r (v (beginTick s)) :=
  .of_eq (fun u => u.setReg r (v u)) (fun _ => none) (fun s => by rw [hv]; rfl) fun _ => rfl

/-- A setup that reads at a register's address. -/
theorem setupUntimed_load (ry : RegIdx) : SetupUntimed fun s => loadSetup ry (beginTick s) :=
  .of_eq id (fun v => some (.read (v.reg ry))) (fun _ => rfl) fun _ => rfl

/-- A setup that writes the scratch value at a register's address. -/
theorem setupUntimed_store (rx : RegIdx) :
    SetupUntimed fun s => requestWrite (s.reg rx) s.scratch (beginTick s) :=
  .of_eq id (fun v => some (.write (v.reg rx) v.scratch)) (fun _ => rfl) fun _ => rfl

/-- The setup of MOV II: the write where it is pending, the read otherwise. -/
theorem setupUntimed_movII (rx ry : RegIdx) : SetupUntimed fun s => movIISetup rx ry (beginTick s) :=
  .ite (c := fun s => s.pending = true) (fun _ => Iff.rfl) (setupUntimed_store rx) (setupUntimed_load ry)

/-- The setup of a conditional jump (45_condjump.md). -/
theorem setupUntimed_condJump (taken : Word → Bool) (m : BitVec 3) (rx ry : RegIdx) :
    SetupUntimed fun s => condJumpSetup taken m rx ry (beginTick s) :=
  .ite (c := fun _ => m ≠ Config.modeDD) (fun _ => Iff.rfl) (setupUntimed_raiseHalt _)
    (.ite (c := fun s => taken (s.reg rx) = true) (fun _ => Iff.rfl)
      (setupUntimed_setReg Config.idxPC (fun s => s.reg ry) fun _ => rfl) setupUntimed_beginTick)

/-- The setup of NOP, by its parameter. -/
theorem nopSetup_eq (s : State) : nopSetup s =
    if s.params.nopBehaviour = .notImplemented then raiseHalt .notImplemented s else s := by
  rw [nopSetup]
  cases s.params.nopBehaviour <;> rfl

theorem setupUntimed_nop : SetupUntimed fun s => nopSetup (beginTick s) := by
  simp only [nopSetup_eq]
  exact .ite (c := fun s => s.params.nopBehaviour = .notImplemented) (fun _ => Iff.rfl)
    (setupUntimed_raiseHalt _) setupUntimed_beginTick

/-- Every instruction's setup. -/
theorem setupUntimed_execute (i : Instr) : SetupUntimed fun s => executeSetup i (beginTick s) := by
  cases i with
  | nop => exact setupUntimed_nop
  | movDD rx ry => exact setupUntimed_setReg rx (fun s => s.reg ry) fun _ => rfl
  | movDLI | movDUI | movDWI => exact setupUntimed_load _
  | movII => exact setupUntimed_movII _ _
  | ldi rl imm =>
    exact setupUntimed_setReg _ (fun s => mergeLDI s.params.ldiUpper (s.reg (regOfRL rl)) imm) fun _ => rfl
  | ldu rl imm => exact setupUntimed_setReg _ (fun s => withHighByte (s.reg (regOfRL rl)) imm) fun _ => rfl
  | ldo rl imm => exact setupUntimed_setReg _ (ownAddressPlus imm) fun _ => rfl
  | inc rx => exact setupUntimed_setReg rx (fun s => s.reg rx + 1) fun _ => rfl
  | dec rx => exact setupUntimed_setReg rx (fun s => s.reg rx - 1) fun _ => rfl
  | jz | jnz => exact setupUntimed_condJump _ _ _ _
  | _ => exact setupUntimed_raiseHalt _

/-- Completion of a load, by its answer. -/
theorem completeUntimed_load (merge : State → Word → Word → Word) (rx : RegIdx)
    (hmerge : ∀ t, merge t = merge t.untimed) :
    CompleteUntimed fun t => loadComplete (merge t) rx t := by
  refine .of_eq (fun answer v => match answer with
    | some d => toFetch (v.setReg rx (merge v (v.reg rx) d))
    | none => v) fun t => ?_
  unfold loadComplete Pins.answer
  cases hv : t.cpuPins.valid
  · rfl
  · rw [if_pos rfl, if_pos rfl, hmerge]
    rfl

/-- Completion of MOV II, by the sub-state and the answer. -/
theorem completeUntimed_movII : CompleteUntimed movIIComplete := by
  refine .of_eq (fun answer v => if v.pending then toFetch { v with pending := false }
    else match answer with
      | some d => { v with scratch := d, pending := true }
      | none => v) fun t => ?_
  unfold movIIComplete Pins.answer
  by_cases hp : t.pending = true
  · rw [if_pos hp, if_pos (show t.untimed.pending = true from hp)]
    rfl
  · rw [if_neg hp, if_neg (show ¬ t.untimed.pending = true from hp)]
    cases hv : t.cpuPins.valid <;> rfl

/-- Every instruction's completion. -/
theorem completeUntimed_execute (i : Instr) : CompleteUntimed (executeComplete i) := by
  cases i with
  | movDLI rx => exact completeUntimed_load (fun _ => mergeDLI) rx fun _ => rfl
  | movDUI rx => exact completeUntimed_load (fun t => mergeDUI t.params.duiSource) rx fun _ => rfl
  | movDWI rx => exact completeUntimed_load (fun _ _ d => d) rx fun _ => rfl
  | movII => exact completeUntimed_movII
  | _ => exact .of_eq (fun _ => toFetch) fun _ => rfl

/-- A completion that a halt in setup turns off. -/
theorem CompleteUntimed.unlessHalted {g : State → State} (hg : CompleteUntimed g) :
    CompleteUntimed (unlessHalted g) := by
  intro t t' h hanswer
  have hstate : t.cpuState = t'.cpuState := show t.untimed.cpuState = t'.untimed.cpuState by rw [h]
  unfold Machine.unlessHalted
  by_cases hx : t.cpuState = .halted
  · rw [if_pos hx, if_pos (hstate.symm.trans hx)]
    exact h
  · rw [if_neg hx, if_neg fun hx' => hx (hstate.trans hx')]
    exact hg t t' h hanswer

/-! ### The step -/

theorem resultUntimed_execTick (i : Instr) : ResultUntimed (execTick i) :=
  resultUntimed_runTick (setupUntimed_execute i) (completeUntimed_execute i).unlessHalted

theorem resultUntimed_exec (i : Instr) : ResultUntimed (exec i) := by
  cases hw : i.wellFormed with
  | false =>
    rw [show exec i = fun s => .next (raiseHalt .unrecognizedOpcode s) from
      funext fun s => exec_unassigned i s hw]
    exact resultUntimed_next (fun v => (raiseHalt .unrecognizedOpcode v).untimed) fun _ => rfl
  | true =>
    by_cases hII : isII i = true
    · obtain ⟨rx, ry, rfl⟩ := isII_iff.1 hII
      have htick : ResultUntimed (movIITick rx ry) := resultUntimed_execTick (.movII rx ry)
      exact .ite (c := fun s => s.pending = true) (fun _ => Iff.rfl) htick
        (htick.andThen (.ite (c := fun t => t.pending = true) (fun _ => Iff.rfl) htick
          (resultUntimed_next id fun _ => rfl)))
    · rw [show exec i = execTick i from funext fun s => exec_tick i s hw (Bool.eq_false_iff.2 hII)]
      exact resultUntimed_execTick i

/-- The latched instruction is the same in states that agree but for pins and counts. -/
theorem resultUntimed_runLatched : ResultUntimed runLatched := by
  intro s s' h
  have hdec : s.dec = s'.dec := show s.untimed.dec = s'.untimed.dec by rw [h]
  rw [runLatched, runLatched, hdec]
  exact resultUntimed_exec _ s s' h

theorem resultUntimed_decodeAndRun : ResultUntimed decodeAndRun := by
  refine ResultUntimed.andThen (F := decodePhase) ?_ resultUntimed_runLatched
  rw [show decodePhase = _ from funext decodePhase_eq]
  exact resultUntimed_next (fun v => { v with
    dec := Fields.ofWord v.ir
    cpuState := if (Fields.ofWord v.ir).declared then .execute else v.cpuState }) fun _ => rfl

/-- Completion of a Fetch tick, by its answer (40_cycle.md R164, R165). -/
theorem completeUntimed_fetch : CompleteUntimed fetchComplete := by
  refine .of_eq (fun answer v => match answer with
    | some d => { ((v.setReg Config.idxIR d).setReg Config.idxPC
        (v.pc + BitVec.ofNat 16 Config.wordBytes)) with cpuState := .decode }
    | none => v) fun t => ?_
  unfold fetchComplete Pins.answer
  cases hv : t.cpuPins.valid <;> rfl

theorem resultUntimed_fetchAndRun : ResultUntimed fetchAndRun := by
  have hsetup : SetupUntimed fun s => fetchSetup (beginTick s) :=
    .of_eq id (fun v => some (.read v.pc)) (fun _ => rfl) fun _ => rfl
  refine ResultUntimed.andThen (F := fetchTick) (resultUntimed_runTick hsetup completeUntimed_fetch) ?_
  exact .ite (c := fun t => t.cpuState = .decode) (fun _ => Iff.rfl) resultUntimed_decodeAndRun
    (resultUntimed_next id fun _ => rfl)

/-- Settles O20: the step of each CPU state, made of ticks whose halves pins and counts do not enter. -/
theorem pinsAndTickCountsDoNotInfluence : Obligations.PinsAndTickCountsDoNotInfluence := by
  intro s s' h
  have hstate : s'.cpuState = s.cpuState := (congrArg State.cpuState h).symm
  cases hx : s.cpuState <;> rw [hx] at hstate
  case fetch =>
    rw [step, step, advance, advance, hx, hstate]
    exact resultUntimed_fetchAndRun s s' h
  case decode =>
    rw [step, step, advance, advance, hx, hstate]
    exact resultUntimed_decodeAndRun s s' h
  case execute =>
    rw [step, step, advance, advance, hx, hstate]
    exact resultUntimed_runLatched s s' h
  case halted =>
    rw [step_halted s hx, step_halted s' hstate, tick_halted s hx, tick_halted s' hstate]
    exact congrArg Host.Outcome.next h

end Sys2Proof.Machine
end

section
/-! The first pass of the assembler (31_assembler.md section 2): addresses and the counter. -/

namespace Sys2Proof.Asm

/-- The addresses of the instructions read so far, in order. -/
def Pass.addresses (p : Pass) : List Nat := p.instrs.map SrcInstr.address

/-- `q` has the slots of `p`, and the data bytes `bs` more. -/
def KeepsSlots (bs : List Byte) (p q : Pass) : Prop :=
  q.base = p.base ∧ q.addresses = p.addresses ∧ q.dataBytes = p.dataBytes ++ bs ∧
    q.counter = p.counter + bs.length

/-- `q` has one slot more than `p`, at the counter, and no data yet. -/
def TakesSlot (p q : Pass) : Prop :=
  q.base = p.base ∧ q.addresses = p.addresses ++ [p.base + p.counter] ∧ p.dataBytes = [] ∧
    q.dataBytes = [] ∧ q.counter = p.counter + Config.wordBytes

theorem dataBytes_of_none {p : Pass} (hd : p.data = none) : p.dataBytes = [] := by
  rw [Pass.dataBytes, hd]

/-- A token of the data section adds its bytes (R133). -/
theorem passData_keepsSlots {t : Token} {p q : Pass} {d : DataItem} (hd : p.data = some d)
    (h : passData d t p = .ok q) : KeepsSlots (t.value.map charByte) p q := by
  unfold passData at h
  split at h <;> cases h
  refine ⟨rfl, rfl, ?_, by rw [List.length_map]⟩
  simp only [Pass.dataBytes, hd]

/-- A label takes no room (R131 items 1 and 2). -/
theorem passLabel_keepsSlots {next : Option Token} {t : Token} {p q : Pass} (hd : p.data = none)
    (h : passLabel next t p = .ok q) : KeepsSlots [] p q := by
  unfold passLabel at h
  split at h <;> cases h
  refine ⟨rfl, by simp [Pass.addresses, Pass.instrs], ?_, rfl⟩
  rw [dataBytes_of_none hd, Pass.dataBytes]
  dsimp only
  split
  · rename_i d hitem
    split at hitem <;> cases hitem
    rfl
  · rfl

/-- An operand belongs to the slot of its instruction (R131 item 3). -/
theorem passOperand_keepsSlots {t : Token} {p q : Pass} (h : passOperand t p = .ok q) :
    KeepsSlots [] p q := by
  unfold passOperand at h
  split at h
  · rename_i i hcurrent
    cases h
    exact ⟨rfl, by simp [Pass.addresses, Pass.instrs, hcurrent], (List.append_nil _).symm, rfl⟩
  · split at h <;> cases h

/-- An opcode takes the slot at the counter (R131 item 3, R132). -/
theorem passOpcode_takesSlot (t : Token) {p : Pass} (hd : p.data = none) :
    TakesSlot p (passOpcode t p) :=
  ⟨rfl, by simp [Pass.addresses, Pass.instrs, passOpcode], dataBytes_of_none hd, dataBytes_of_none hd, rfl⟩

/-- Every token of the first pass takes one slot or adds data bytes, possibly none. -/
theorem passToken_slots {next : Option Token} {t : Token} {p q : Pass} (h : passToken next t p = .ok q) :
    (∃ bs, KeepsSlots bs p q) ∨ TakesSlot p q := by
  cases hd : p.data with
  | some d =>
    rw [passToken_data next t p d hd] at h
    exact .inl ⟨_, passData_keepsSlots hd h⟩
  | none =>
    simp only [passToken, hd] at h
    cases hk : t.kind <;> simp only [hk] at h
    case opcode =>
      cases h
      exact .inr (passOpcode_takesSlot t hd)
    case labelDefinition => exact .inl ⟨_, passLabel_keepsSlots hd h⟩
    all_goals exact .inl ⟨_, passOperand_keepsSlots h⟩

/-- The slots stand one after the other from the base on, and the counter behind the last of them and the
data. -/
structure Pass.Counted (base : Nat) (p : Pass) : Prop where
  base_eq : p.base = base
  addresses : p.addresses = (List.range p.instrs.length).map fun k => base + 2 * k
  counter : p.counter = 2 * p.instrs.length + p.dataBytes.length

theorem Pass.length_addresses (p : Pass) : p.addresses.length = p.instrs.length := List.length_map _

theorem counted_passToken {base : Nat} {next : Option Token} {t : Token} {p q : Pass}
    (hp : p.Counted base) (h : passToken next t p = .ok q) : q.Counted base := by
  obtain ⟨hbase, haddr, hcounter⟩ := hp
  have hlen := q.length_addresses
  rcases passToken_slots h with ⟨bs, hb, ha, hdata, hc⟩ | ⟨hb, ha, hnone, hdata, hc⟩
  · rw [ha, p.length_addresses] at hlen
    refine ⟨hb.trans hbase, by rw [ha, haddr, hlen], ?_⟩
    rw [hc, hcounter, hdata, List.length_append, hlen, Nat.add_assoc]
  · rw [ha, List.length_append, p.length_addresses, List.length_singleton] at hlen
    rw [hnone, List.length_nil, Nat.add_zero] at hcounter
    refine ⟨hb.trans hbase, ?_, ?_⟩
    · rw [ha, haddr, ← hlen, List.range_succ, List.map_append, hbase, hcounter]
      rfl
    · rw [hc, hcounter, hdata, ← hlen, Config.wordBytes, List.length_nil]
      omega

theorem counted_firstPass {base : Nat} {toks : List Token} {p q : Pass} (hp : p.Counted base)
    (h : firstPass toks p = .ok q) : q.Counted base := by
  induction toks generalizing p with
  | nil => cases h; exact hp
  | cons t ts ih =>
    unfold firstPass at h
    split at h
    · cases h
    · rename_i p' hp'
      exact ih (counted_passToken hp hp') h

theorem counted_start (base : Nat) : (Pass.start base).Counted base := ⟨rfl, rfl, rfl⟩

/-- Settles O50: by induction on the tokens, the slots stand one after the other. -/
theorem firstPassCountsBytes : Obligations.FirstPassCountsBytes := by
  intro base toks p h
  have hp := counted_firstPass (counted_start base) h
  refine ⟨fun k i hk => ?_, hp.counter⟩
  have haddr : p.addresses[k]? = some i.address := by
    rw [Pass.addresses, List.getElem?_map, hk, Option.map_some]
  rw [hp.addresses, List.getElem?_map] at haddr
  obtain ⟨n, hn, hi⟩ := Option.map_eq_some_iff.1 haddr
  obtain ⟨_, hk'⟩ := List.getElem?_eq_some_iff.1 hn
  rw [List.getElem_range] at hk'
  rw [← hi, hk']

end Sys2Proof.Asm
end

section
/-! The second pass (31_assembler.md sections 3 and 4): undefined labels, and what the operand forms give. -/

namespace Sys2Proof.Asm

/-- The first element that fails is the error of the list. -/
theorem mapE_append_error {α β : Type} {f : α → Except AsmError β} {pre : List α} {a : α} {e : AsmError}
    (post : List α) (hpre : ∀ u ∈ pre, ∃ b, f u = .ok b) (ha : f a = .error e) :
    mapE f (pre ++ a :: post) = .error e := by
  induction pre with
  | nil => rw [List.nil_append, mapE, ha]
  | cons u us ih =>
    obtain ⟨⟨b, hb⟩, hus⟩ := List.forall_mem_cons.1 hpre
    rw [List.cons_append, mapE, hb]
    simp only [ih hus]

/-- A label-immediate without an entry in the symbol table (R135). -/
theorem resolveOperand_undefined {symbols : List (List Char × Nat)} {t : Token}
    (ht : t.kind = .labelImmediate) (hnone : lookupLabel symbols t.value = none) :
    resolveOperand symbols t = .error (.undefinedLabel t.value) := by
  simp only [resolveOperand, ht, hnone]

/-- Settles O52: the label does not resolve, so not all operands do, and where those before it do its error
is the first. -/
theorem undefinedLabelFailsAssembly : Obligations.UndefinedLabelFailsAssembly := by
  intro symbols i pre post t hops ht hnone
  have hfails := resolveOperand_undefined ht hnone
  refine ⟨fun r hr => ?never, fun hpre => ?first⟩
  case never =>
    unfold assembleInstr at hr
    split at hr
    · cases hr
    · rename_i ops hresolved
      obtain ⟨o, -, ho⟩ := mapE_mem _ _ _ hresolved t (by rw [hops]; simp)
      exact nomatch hfails.symm.trans ho
  case first => rw [assembleInstr, hops, mapE_append_error post hpre hfails]

/-- A declared instruction that an operand form can give (R140). -/
def Produced (i : Instr) : Prop := i.assemblable = true ∧ i.wellFormed = true

section forms
variable {kw : List Char} {ops : List Operand} {i : Instr}

theorem formN_ok {j : Instr} (h : formN kw j ops = .ok i) : i = j := by
  unfold formN at h
  split at h <;> cases h
  rfl

theorem formR_ok {mk : RegIdx → Instr} (h : formR kw mk ops = .ok i) : ∃ a, i = mk a := by
  unfold formR at h
  split at h
  · obtain ⟨a, -, hi⟩ := build1_ok h
    exact ⟨a, hi⟩
  · cases h

theorem formRR_ok {mk : BitVec 3 → RegIdx → RegIdx → Instr} (h : formRR kw mk ops = .ok i) :
    ∃ a b, i = mk Config.modeDD a b := by
  unfold formRR at h
  split at h
  · obtain ⟨a, b, -, -, hi⟩ := build2_ok h
    exact ⟨a, b, hi⟩
  · cases h

theorem formRI_ok {mk : BitVec 3 → Byte → Instr} (h : formRI kw mk ops = .ok i) : ∃ a b, i = mk a b := by
  unfold formRI at h
  split at h
  · obtain ⟨a, b, -, -, hi⟩ := build2_ok h
    exact ⟨a, b, hi⟩
  · obtain ⟨a, b, -, -, hi⟩ := build2_ok h
    exact ⟨a, b, hi⟩
  · cases h

theorem formLdo_ok {own : Nat} (h : formLdo kw own ops = .ok i) : ∃ a b, i = .ldo a b := by
  unfold formLdo at h
  split at h
  · obtain ⟨a, b, -, -, hi⟩ := build2_ok h
    exact ⟨a, b, hi⟩
  · exact formRI_ok h

theorem formMov_produced (h : formMov kw ops = .ok i) : Produced i := by
  unfold formMov at h
  split at h
  case h_5 => cases h
  all_goals
    obtain ⟨a, b, -, -, rfl⟩ := build2_ok h
    exact ⟨rfl, rfl⟩

theorem formMovByte_ok {load store : RegIdx → RegIdx → Instr}
    (h : formMovByte kw load store ops = .ok i) : ∃ a b, i = load a b ∨ i = store a b := by
  unfold formMovByte at h
  split at h
  · obtain ⟨a, b, -, -, hi⟩ := build2_ok h
    exact ⟨a, b, .inl hi⟩
  · obtain ⟨a, b, -, -, hi⟩ := build2_ok h
    exact ⟨a, b, .inr hi⟩
  · cases h

/-- Every keyword's form gives a declared instruction, with mode 0 where the format has a mode of its own. -/
theorem instrOf_produced {k : Keyword} {own : Nat} (h : instrOf k kw own ops = .ok i) : Produced i := by
  cases k with
  | halt | nop | ret => rw [formN_ok h]; exact ⟨rfl, rfl⟩
  | mov => exact formMov_produced h
  | movl | movu =>
    obtain ⟨a, b, rfl | rfl⟩ := formMovByte_ok h
    · exact ⟨rfl, rfl⟩
    · exact ⟨rfl, rfl⟩
  | ldi | ldu =>
    obtain ⟨a, b, rfl⟩ := formRI_ok h
    exact ⟨rfl, rfl⟩
  | ldo =>
    obtain ⟨a, b, rfl⟩ := formLdo_ok h
    exact ⟨rfl, rfl⟩
  | inc | dec | jmp | call | push | pop | not =>
    obtain ⟨a, rfl⟩ := formR_ok h
    exact ⟨rfl, rfl⟩
  | jz | jnz | add | sub | and | or | xor | shl | shr =>
    obtain ⟨a, b, rfl⟩ := formRR_ok h
    exact ⟨rfl, rfl⟩
end forms

/-- The second pass gives what the keyword's form gives. -/
theorem assembleInstr_produced {symbols : List (List Char × Nat)} {s : SrcInstr} {i : Instr}
    (h : assembleInstr symbols s = .ok i) : Produced i := by
  unfold assembleInstr at h
  split at h
  · cases h
  · split at h
    · exact instrOf_produced h
    · cases h

/-- What the assembler answers comes of a first pass, and of the second pass on each of its instructions. -/
theorem assembleParts_eq_ok {base : Nat} {src : List Char} {is : List Instr} {bytes : List Byte}
    (h : assembleParts base src = .ok (is, bytes)) :
    ∃ toks p, firstPass toks (Pass.start base) = .ok p ∧
      mapE (assembleInstr p.symbols) p.instrs = .ok is ∧ bytes = p.dataBytes := by
  unfold assembleParts at h
  split at h
  · cases h
  · rename_i toks _
    split at h
    · cases h
    · rename_i p hp
      split at h
      · cases h
      · rename_i is' his
        cases h
        exact ⟨toks, p, hp, his, rfl⟩

/-- Settles O53: each instruction of the result comes of the second pass on one of the source. -/
theorem assemblerProducesAssemblableInstructions : Obligations.AssemblerProducesAssemblableInstructions := by
  intro base src is bytes h i hi
  obtain ⟨toks, p, -, his, -⟩ := assembleParts_eq_ok h
  obtain ⟨s, -, hs⟩ := mapE_mem_result _ _ _ his i hi
  exact assembleInstr_produced hs

end Sys2Proof.Asm
end

section
/-! The image does not depend on the base (31_assembler.md section 4, R142): both passes commute with a shift
of all addresses, and the second gives the same instructions. -/

namespace Sys2Proof.Asm

/-! ### Shifted states of the passes -/

/-- A symbol table with all addresses `d` higher. -/
def shiftSymbols (d : Nat) (symbols : List (List Char × Nat)) : List (List Char × Nat) :=
  symbols.map fun s => (s.1, s.2 + d)

/-- An instruction of the source `d` bytes higher. -/
def SrcInstr.shift (d : Nat) (i : SrcInstr) : SrcInstr := { i with address := i.address + d }

/-- A data item `d` bytes higher. -/
def DataItem.shift (d : Nat) (i : DataItem) : DataItem := { i with address := i.address + d }

/-- A first pass with a base `d` bytes higher. -/
def Pass.shift (d : Nat) (p : Pass) : Pass where
  base := p.base + d
  counter := p.counter
  finished := p.finished.map (SrcInstr.shift d)
  current := p.current.map (SrcInstr.shift d)
  data := p.data.map (DataItem.shift d)
  symbols := shiftSymbols d p.symbols

/-- A resolved operand with its address, if it has one, `d` higher. -/
def Operand.shift (d : Nat) : Operand → Operand
  | .address a => .address (a + d)
  | .direct name => .direct name
  | .indirect name => .indirect name
  | .decimal text => .decimal text
  | .hex text => .hex text

@[simp] theorem Pass.shift_instrs (d : Nat) (p : Pass) :
    (p.shift d).instrs = p.instrs.map (SrcInstr.shift d) := by
  cases hc : p.current <;> simp [Pass.instrs, Pass.shift, hc]

@[simp] theorem Pass.shift_dataBytes (d : Nat) (p : Pass) : (p.shift d).dataBytes = p.dataBytes := by
  cases hd : p.data <;> simp [Pass.dataBytes, Pass.shift, hd, DataItem.shift]

theorem start_eq_shift (base : Nat) : Pass.start base = (Pass.start 0).shift base := by
  simp [Pass.start, Pass.shift, shiftSymbols]

theorem lookupLabel_shiftSymbols (d : Nat) (symbols : List (List Char × Nat)) (name : List Char) :
    lookupLabel (shiftSymbols d symbols) name = (lookupLabel symbols name).map (· + d) := by
  induction symbols with
  | nil => rfl
  | cons s symbols ih =>
    obtain ⟨n, a⟩ := s
    rw [shiftSymbols, List.map_cons, lookupLabel_cons, lookupLabel_cons, ← shiftSymbols, ih]
    split <;> rfl

/-! ### The first pass -/

theorem passData_shift (d : Nat) (item : DataItem) (t : Token) (p : Pass) :
    passData (item.shift d) t (p.shift d) = (passData item t p).map (Pass.shift d) := by
  unfold passData
  split <;> rfl

theorem passLabel_shift (d : Nat) (next : Option Token) (t : Token) (p : Pass) :
    passLabel next t (p.shift d) = (passLabel next t p).map (Pass.shift d) := by
  have hlookup : lookupLabel (p.shift d).symbols t.value = (lookupLabel p.symbols t.value).map (· + d) :=
    lookupLabel_shiftSymbols d p.symbols t.value
  have haddress : p.base + d + p.counter = p.base + p.counter + d := Nat.add_right_comm ..
  unfold passLabel
  rw [hlookup]
  cases lookupLabel p.symbols t.value with
  | some a => rfl
  | none =>
    simp only [Option.map_none, Pass.shift_instrs, Except.map, Except.ok.injEq]
    simp only [Pass.shift, shiftSymbols, List.map_cons, haddress]
    congr 1
    split <;> rfl

theorem passOpcode_shift (d : Nat) (t : Token) (p : Pass) :
    passOpcode t (p.shift d) = (passOpcode t p).shift d := by
  have haddress : p.base + d + p.counter = p.base + p.counter + d := Nat.add_right_comm ..
  simp only [passOpcode, Pass.shift_instrs]
  simp only [Pass.shift, haddress, Option.map_some, SrcInstr.shift]

theorem passOperand_shift (d : Nat) (t : Token) (p : Pass) :
    passOperand t (p.shift d) = (passOperand t p).map (Pass.shift d) := by
  unfold passOperand
  cases hc : p.current with
  | some i => simp [Pass.shift, hc, Except.map, SrcInstr.shift]
  | none =>
    simp only [Pass.shift, hc, Option.map_none]
    split <;> rfl

theorem passToken_shift (d : Nat) (next : Option Token) (t : Token) (p : Pass) :
    passToken next t (p.shift d) = (passToken next t p).map (Pass.shift d) := by
  cases hd : p.data with
  | some item =>
    rw [passToken_data next t p item hd, ← passData_shift,
      passToken_data next t (p.shift d) (item.shift d) (by rw [Pass.shift, hd]; rfl)]
  | none =>
    have hd' : (p.shift d).data = none := by rw [Pass.shift, hd]; rfl
    simp only [passToken, hd, hd']
    cases t.kind with
    | labelDefinition => exact passLabel_shift d next t p
    | opcode => exact congrArg Except.ok (passOpcode_shift d t p)
    | _ => exact passOperand_shift d t p

/-- The first pass of a shifted start is the first pass, shifted. -/
theorem firstPass_shift (d : Nat) (toks : List Token) (p : Pass) :
    firstPass toks (p.shift d) = (firstPass toks p).map (Pass.shift d) := by
  induction toks generalizing p with
  | nil => rfl
  | cons t ts ih =>
    rw [firstPass, firstPass, passToken_shift]
    cases passToken ts.head? t p with
    | error e => rfl
    | ok q => exact ih q

/-! ### The second pass -/

theorem mapE_map {α β γ : Type} (f : β → Except AsmError γ) (g : α → β) (l : List α) :
    mapE f (l.map g) = mapE (fun a => f (g a)) l := by
  induction l with
  | nil => rfl
  | cons a as ih => rw [List.map_cons, mapE, mapE, ih]

theorem mapE_result_map {α β γ : Type} (f : α → Except AsmError β) (g : β → γ) (l : List α) :
    mapE (fun a => (f a).map g) l = (mapE f l).map (List.map g) := by
  induction l with
  | nil => rfl
  | cons a as ih =>
    rw [mapE, mapE, ih]
    cases f a with
    | error e => rfl
    | ok b => cases mapE f as <;> rfl

theorem resolveOperand_shift (d : Nat) (symbols : List (List Char × Nat)) (t : Token) :
    resolveOperand (shiftSymbols d symbols) t = (resolveOperand symbols t).map (Operand.shift d) := by
  unfold resolveOperand
  cases t.kind with
  | labelImmediate =>
    simp only [lookupLabel_shiftSymbols]
    cases lookupLabel symbols t.value <;> rfl
  | _ => rfl

/-- Only the difference of the two addresses is encoded (R142). -/
theorem labelOffset_shift (d own target : Nat) :
    labelOffset (own + d) (target + d) = labelOffset own target := by
  have hint : ((target + d : Nat) : Int) - ((own + d : Nat) : Int) = (target : Int) - (own : Int) := by
    push_cast
    omega
  unfold labelOffset
  simp only [Nat.add_sub_add_right, hint, Nat.add_le_add_iff_right]

section forms
/-! No form but LDO's looks at an address: the case split is on the operands the forms look at, which are
two at most. -/

variable (d : Nat) (kw : List Char) (ops : List Operand)

theorem formN_shift (i : Instr) : formN kw i (ops.map (Operand.shift d)) = formN kw i ops := by
  cases ops <;> rfl

theorem formR_shift (mk : RegIdx → Instr) :
    formR kw mk (ops.map (Operand.shift d)) = formR kw mk ops := by
  rcases ops with _ | ⟨_ | _, _ | ⟨b, ops⟩⟩ <;> rfl

theorem formRR_shift (mk : BitVec 3 → RegIdx → RegIdx → Instr) :
    formRR kw mk (ops.map (Operand.shift d)) = formRR kw mk ops := by
  rcases ops with _ | ⟨_ | _, _ | ⟨_ | _, _ | ⟨c, ops⟩⟩⟩ <;> rfl

theorem formRI_shift (mk : BitVec 3 → Byte → Instr) :
    formRI kw mk (ops.map (Operand.shift d)) = formRI kw mk ops := by
  rcases ops with _ | ⟨_ | _, _ | ⟨_ | _, _ | ⟨c, ops⟩⟩⟩ <;> rfl

theorem formMov_shift : formMov kw (ops.map (Operand.shift d)) = formMov kw ops := by
  rcases ops with _ | ⟨_ | _, _ | ⟨_ | _, _ | ⟨c, ops⟩⟩⟩ <;> rfl

theorem formMovByte_shift (load store : RegIdx → RegIdx → Instr) :
    formMovByte kw load store (ops.map (Operand.shift d)) = formMovByte kw load store ops := by
  rcases ops with _ | ⟨_ | _, _ | ⟨_ | _, _ | ⟨c, ops⟩⟩⟩ <;> rfl

/-- LDO looks at a label's address relative to its own. -/
theorem formLdo_label (own target : Nat) (a : List Char) :
    formLdo kw own [.direct a, .address target] =
      build2 (lowRegisterOf a) (labelOffset own target) Instr.ldo := rfl

theorem formLdo_shift (own : Nat) :
    formLdo kw (own + d) (ops.map (Operand.shift d)) = formLdo kw own ops := by
  rcases ops with _ | ⟨_ | _, _ | ⟨_ | _, _ | ⟨c, ops⟩⟩⟩
  case cons.direct.cons.address.nil a target =>
    change formLdo kw (own + d) [.direct a, .address (target + d)] = _
    rw [formLdo_label, formLdo_label, labelOffset_shift]
  all_goals rfl

/-- A keyword's form gives the same at a shifted address. -/
theorem instrOf_shift (k : Keyword) (own : Nat) :
    instrOf k kw (own + d) (ops.map (Operand.shift d)) = instrOf k kw own ops := by
  cases k with
  | halt | nop | ret => exact formN_shift d kw ops _
  | mov => exact formMov_shift d kw ops
  | movl | movu => exact formMovByte_shift d kw ops _ _
  | ldi | ldu => exact formRI_shift d kw ops _
  | ldo => exact formLdo_shift d kw ops own
  | inc | dec | jmp | call | push | pop | not => exact formR_shift d kw ops _
  | jz | jnz | add | sub | and | or | xor | shl | shr => exact formRR_shift d kw ops _
end forms

/-- The second pass gives the same instruction at a shifted address. -/
theorem assembleInstr_shift (d : Nat) (symbols : List (List Char × Nat)) (i : SrcInstr) :
    assembleInstr (shiftSymbols d symbols) (i.shift d) = assembleInstr symbols i := by
  have hops : mapE (resolveOperand (shiftSymbols d symbols)) i.operands =
      (mapE (resolveOperand symbols) i.operands).map (List.map (Operand.shift d)) := by
    rw [← mapE_result_map]
    exact congrArg (mapE · i.operands) (funext (resolveOperand_shift d symbols))
  unfold assembleInstr
  rw [show (i.shift d).operands = i.operands from rfl, hops]
  cases mapE (resolveOperand symbols) i.operands with
  | error e => rfl
  | ok ops =>
    simp only [Except.map, SrcInstr.shift]
    cases keywordOf i.opcode with
    | none => rfl
    | some k => exact instrOf_shift d i.opcode ops k i.address

/-- The parts of the image at a base are those at base 0. -/
theorem assembleParts_eq_zero (base : Nat) (src : List Char) :
    assembleParts base src = assembleParts 0 src := by
  unfold assembleParts
  cases lex src with
  | error e => rfl
  | ok toks =>
    simp only [start_eq_shift base, firstPass_shift]
    cases firstPass toks (Pass.start 0) with
    | error e => rfl
    | ok p =>
      have hinstrs : mapE (assembleInstr (p.shift base).symbols) (p.shift base).instrs =
          mapE (assembleInstr p.symbols) p.instrs := by
        rw [Pass.shift_instrs, mapE_map]
        exact congrArg (mapE · p.instrs) (funext (assembleInstr_shift base p.symbols))
      simp only [Except.map, hinstrs, Pass.shift_dataBytes]

/-- Settles O54: at both bases the parts are those at base 0. -/
theorem imageDoesNotDependOnTheBase : Obligations.ImageDoesNotDependOnTheBase := by
  intro base base' src
  rw [assemble, assemble, assembleParts_eq_zero base, assembleParts_eq_zero base']

end Sys2Proof.Asm
end
